-- ==== Sys2Proof/Word.lean ====
section
/-! DEFINITION. The value types of the DCT8x8-STEG core: a register word, a message byte, an exact number, and an
8×8 matrix (R11). -/

namespace Sys2Proof

/-- One cell of the `REG` space: 32 bits (10_state.md R24). -/
abbrev Word := BitVec 32

/-- One cell of `MSGIN` or `MSGOUT` (R44). -/
abbrev Byte := BitVec 8

/-- A number `re + im·√d` over a ground type, for a `d` that the arithmetic supplies (Machine/Scalar.lean). -/
structure Quad (α : Type) where
  re : α
  im : α
deriving DecidableEq, Repr, Inhabited

/-- The numbers `re + im·√(2+√(2+√2))` over `ℚ(√2)(√(2+√2))`: every rational number and every entry of the matrix `T` of
40_transform.md R101 is one. -/
abbrev Scalar := Quad (Quad (Quad Rat))

/-- A block of samples or a matrix of coefficients: 64 values in the linear order of R11, element `[i][j]` at `8*i + j`. -/
abbrev Mat8 (α : Type) := Vector α 64

end Sys2Proof
end

