-- ==== Sys2Proof/Machine/Matrix.lean ====
section
/-! DEFINITION. Access to 8×8 matrices (00_scope.md R11). -/

namespace Sys2Proof

/-- The linear index of element `[i][j]`: `8*i + j` (R11). -/
def Mat8.lin (i j : Fin 8) : Fin 64 := ⟨8 * i.val + j.val, by omega⟩

/-- Element `[i][j]`. -/
def Mat8.at {α : Type} (m : Mat8 α) (i j : Fin 8) : α := m[Mat8.lin i j]

/-- The matrix with given elements. (Irreducible, so that no unifier unrolls it; Laws/Matrix.lean says what it holds.) -/
@[irreducible] def Mat8.of {α : Type} (f : Fin 8 → Fin 8 → α) : Mat8 α :=
  Vector.ofFn fun k : Fin 64 => f ⟨k.val / 8, by omega⟩ ⟨k.val % 8, by omega⟩

/-- The matrix with element `[i][j]` replaced. -/
def Mat8.put {α : Type} (m : Mat8 α) (i j : Fin 8) (v : α) : Mat8 α := m.set (Mat8.lin i j) v

/-- The 64 positions in linear order. -/
def Mat8.positions : List (Fin 8 × Fin 8) :=
  (List.finRange 8).flatMap fun r => (List.finRange 8).map fun c => (r, c)

end Sys2Proof
end

