-- ==== Sys2Proof/Machine/Numerics.lean ====
section
/-! DEFINITION. The numerics record `NUM` (00_scope.md R12) over any type `S`, the polarity rule (42_embed_extract.md R121),
what is required of every instance of `NUM` (R8, R12, R50, NP1 of 40_transform.md R106, NP2 of R127), and the reference
instance over the real numbers, written as the spec writes it (R101, R103). -/

namespace Sys2Proof

/-- The operations of `NUM` on its type `S` (R12), with the two values that reset needs (R50). -/
structure Num (S : Type) where
  /-- `S` zero, the positive one in a floating-point instance: what reset writes to `BLK` and `COEF` (R50). -/
  zero : S
  /-- `ALPHA_RESET`: one tenth, or the value of `S` nearest to it (R8, R50). -/
  alphaReset : S
  fdct : Mat8 S → Mat8 S
  idct : Mat8 S → Mat8 S
  add : S → S → S
  neg : S → S
  abs : S → S
  isPos : S → Bool
  isNonneg : S → Bool

/-- The polarity rule of the embedder (R121). -/
def Machine.pol {S : Type} (n : Num S) (b : Bool) (c a : S) : S :=
  if b then n.add (n.abs c) a else n.neg (n.add (n.abs c) a)

/-- The polarity rule of the extractor (R121). -/
def Machine.dec {S : Type} (n : Num S) (c : S) : Bool := n.isNonneg c

/-- `embed(C, b, a)` of R127: `C` with its carrier replaced. -/
def Num.embedAt {S : Type} (n : Num S) (cu cv : Fin 8) (c : Mat8 S) (b : Bool) (a : S) : Mat8 S :=
  c.put cu cv (Machine.pol n b (c.at cu cv) a)

/-- An instance of `NUM` (R12) with the parameter `EPS_S` that belongs to it (R8). -/
structure Numerics where
  /-- `S`. -/
  S : Type
  ops : Num S
  /-- Which real number a value of `S` is; none where it is no number (an infinity, a NaN). -/
  real : S → Option ℝ
  /-- Whether a value of `S` is the negative zero of a floating-point `S` (93 U2). -/
  negZero : S → Bool
  /-- `EPS_S`. -/
  epsS : ℝ

/-- `ALPHA_LO` (R8). -/
noncomputable def Numerics.alphaLo : ℝ := 1 / 100

/-- `ALPHA_HI` (R8). -/
noncomputable def Numerics.alphaHi : ℝ := 10

/-- A sample in the nominal range (R106). -/
def Numerics.nominal (N : Numerics) (v : N.S) : Prop := ∃ x, N.real v = some x ∧ 0 ≤ x ∧ x ≤ 255

/-- A strength in the range over which the round trip is required (R8). -/
def Numerics.safeAlpha (N : Numerics) (a : N.S) : Prop :=
  ∃ x, N.real a = some x ∧ Numerics.alphaLo ≤ x ∧ x ≤ Numerics.alphaHi

/-- `|v − w| < EPS_S`, or `v = w` where `EPS_S` is 0 (R106). -/
def Numerics.near (N : Numerics) (v w : N.S) : Prop :=
  (N.epsS = 0 → v = w) ∧ (0 < N.epsS → ∃ x y, N.real v = some x ∧ N.real w = some y ∧ |x - y| < N.epsS)

/-- Every sample of a block lies in the nominal range. -/
def Numerics.nominalBlock (N : Numerics) (b : Mat8 N.S) : Prop := ∀ r c, N.nominal (b.at r c)

/-- NP1 (R106): transform round-trip tolerance. -/
def Numerics.NP1 (N : Numerics) : Prop :=
  ∀ b, N.nominalBlock b → ∀ r c, N.near ((N.ops.idct (N.ops.fdct b)).at r c) (b.at r c)

/-- NP2 (R127): decode safety through the image. -/
def Numerics.NP2 (N : Numerics) (cu cv : Fin 8) : Prop :=
  ∀ blk b a, N.nominalBlock blk → N.safeAlpha a →
    Machine.dec N.ops ((N.ops.fdct (N.ops.idct (N.ops.embedAt cu cv (N.ops.fdct blk) b a))).at cu cv) = b

/-- What the spec requires of the `NUM` of every engine instance with its carrier position. That the members are total
functions of their arguments (R12) is their type. -/
structure Numerics.Lawful (N : Numerics) (cu cv : Fin 8) : Prop where
  /-- `EPS_S` is a bound on an error (R8). -/
  epsS_nonneg : 0 ≤ N.epsS
  /-- R50. -/
  zero_is_zero : N.real N.ops.zero = some 0
  /-- R50: positive zero in a floating-point instance. -/
  zero_positive : N.negZero N.ops.zero = false
  /-- A negative zero is a zero. -/
  negZero_is_zero : ∀ v, N.negZero v = true → N.real v = some 0
  /-- R8, R50: no value of `S` is nearer to one tenth. -/
  alphaReset_nearest : ∃ x, N.real N.ops.alphaReset = some x ∧ ∀ v y, N.real v = some y → |x - 1 / 10| ≤ |y - 1 / 10|
  np1 : N.NP1
  np2 : N.NP2 cu cv

/-! ### The reference instance, over the real numbers -/

/-- Entry `T[k][n]` of R101. -/
noncomputable def Numerics.T (k n : Fin 8) : ℝ :=
  (if k = 0 then 1 / Real.sqrt 8 else 1 / 2) * Real.cos ((2 * (n.val : ℝ) + 1) * (k.val : ℝ) * Real.pi / 16)

/-- The operations of the reference instance (R12): `fdct` is R101, `idct` is R103. -/
noncomputable def Numerics.exact : Num ℝ where
  zero := 0
  alphaReset := 1 / 10
  fdct := fun b => Mat8.of fun u v => ∑ r, ∑ c, Numerics.T u r * b.at r c * Numerics.T v c
  idct := fun m => Mat8.of fun r c => ∑ u, ∑ v, Numerics.T u r * m.at u v * Numerics.T v c
  add := fun x y => x + y
  neg := fun x => -x
  abs := fun x => |x|
  isPos := fun x => decide (0 < x)
  isNonneg := fun x => decide (0 ≤ x)

/-- The reference instance of R12: `S` is the real numbers, which have no negative zero, and `EPS_S` is 0. -/
noncomputable def Numerics.reference : Numerics := ⟨ℝ, Numerics.exact, some, fun _ => false, 0⟩

end Sys2Proof
end

