-- ==== Sys2Proof/Machine/Scalar.lean ====
section
/-! DEFINITION. The numbers with which the reference instance of `NUM` computes (00_scope.md R12): the field that the matrix
`T` of 40_transform.md R101 generates over the rational numbers, its arithmetic and its sign test, and the real numbers
that they are. That they agree is proved here, since the sign test of samples (Machine/Sample.lean) rests on it. -/

namespace Sys2Proof

/-! ### The arithmetic -/

/-- The arithmetic of one ordered field of the tower, sign test included. -/
structure Level (α : Type) where
  zero : α
  one : α
  isZero : α → Bool
  add : α → α → α
  mul : α → α → α
  neg : α → α
  /-- −1, 0 or 1. -/
  sgn : α → Int

/-- The rational numbers. -/
def ratLevel : Level Rat where
  zero := 0
  one := 1
  isZero := fun x => x.num == 0
  add := fun x y => if x.num = 0 then y else if y.num = 0 then x else x + y
  mul := fun x y => if x.num = 0 then 0 else if y.num = 0 then 0 else x * y
  neg := fun x => -x
  sgn := fun x => x.num.sign

/-- The numbers `re + im·√d` for a positive `d` of the field below. The sign of a sum of two terms of opposite sign is
that of the term with the larger square. -/
def quadLevel {α : Type} (l : Level α) (d : α) : Level (Quad α) where
  zero := ⟨l.zero, l.zero⟩
  one := ⟨l.one, l.zero⟩
  isZero := fun x => l.isZero x.re && l.isZero x.im
  add := fun x y => ⟨l.add x.re y.re, l.add x.im y.im⟩
  mul := fun x y =>
    if l.isZero x.re && l.isZero x.im || l.isZero y.re && l.isZero y.im then ⟨l.zero, l.zero⟩ else
    ⟨l.add (l.mul x.re y.re) (l.mul d (l.mul x.im y.im)), l.add (l.mul x.re y.im) (l.mul x.im y.re)⟩
  neg := fun x => ⟨l.neg x.re, l.neg x.im⟩
  sgn := fun x =>
    let a := l.sgn x.re
    let b := l.sgn x.im
    if a = 0 then b
    else if b = 0 then a
    else if a = b then a
    else a * l.sgn (l.add (l.mul x.re x.re) (l.neg (l.mul d (l.mul x.im x.im))))

/-- `ℚ(√2)`. -/
def level1 : Level (Quad Rat) := quadLevel ratLevel 2

/-- `ℚ(√2)(√(2+√2))`. -/
def level2 : Level (Quad (Quad Rat)) := quadLevel level1 ⟨2, 1⟩

/-- `ℚ(√2)(√(2+√2))(√(2+√(2+√2)))`, which is `ℚ(2·cos(π/16))`. -/
def level : Level Scalar := quadLevel level2 ⟨⟨2, 0⟩, ⟨1, 0⟩⟩

/-! ### The real numbers -/

/-- The real number `re + im·√d`, where `v` gives those of the ground type. -/
noncomputable def Quad.real {α : Type} (v : α → ℝ) (d : ℝ) (x : Quad α) : ℝ := v x.re + v x.im * Real.sqrt d

/-- The real number that an element of the field is. -/
noncomputable def Scalar.real : Scalar → ℝ :=
  Quad.real (Quad.real (Quad.real (fun q : Rat => (q : ℝ)) 2) (2 + Real.sqrt 2)) (2 + Real.sqrt (2 + Real.sqrt 2))

/-! ### They agree -/

/-- `φ` respects the ring operations of a level. -/
structure Level.Hom {α R : Type} [CommRing R] (l : Level α) (φ : α → R) : Prop where
  zero : φ l.zero = 0
  one : φ l.one = 1
  isZero : ∀ x, l.isZero x = true → φ x = 0
  add : ∀ x y, φ (l.add x y) = φ x + φ y
  mul : ∀ x y, φ (l.mul x y) = φ x * φ y
  neg : ∀ x, φ (l.neg x) = -φ x

theorem ratLevel_hom {R : Type} [Field R] [CharZero R] : Level.Hom ratLevel (fun q : Rat => (q : R)) where
  zero := by simp [ratLevel]
  one := by simp [ratLevel]
  isZero := by intro x h; simpa [ratLevel] using h
  add := by intro x y; simp only [ratLevel]; split <;> [skip; split] <;> simp_all
  mul := by intro x y; simp only [ratLevel]; split <;> [skip; split] <;> simp_all
  neg := by intro x; simp [ratLevel]

theorem Level.Hom.quad {α R R' : Type} [CommRing R] [CommRing R'] {l : Level α} {φ : α → R} (h : l.Hom φ)
    (ι : R →+* R') {d : α} {s : R'} (hs : s * s = ι (φ d)) :
    (quadLevel l d).Hom (fun x => ι (φ x.re) + ι (φ x.im) * s) where
  zero := by simp [quadLevel, h.zero]
  one := by simp [quadLevel, h.zero, h.one]
  isZero := by
    intro x hx
    simp only [quadLevel, Bool.and_eq_true] at hx
    simp [h.isZero _ hx.1, h.isZero _ hx.2]
  add := by intro x y; simp only [quadLevel, h.add, map_add]; ring
  mul := by
    intro x y
    simp only [quadLevel]
    split
    · rename_i hz
      simp only [Bool.or_eq_true, Bool.and_eq_true] at hz
      rcases hz with hz | hz <;> simp [h.isZero _ hz.1, h.isZero _ hz.2, h.zero]
    · simp only [h.add, h.mul, map_add, map_mul, ← hs]; ring
  neg := by intro x; simp only [quadLevel, h.neg, map_neg]; ring

/-- `v` respects the sign test. -/
def Level.SignOf {α : Type} (l : Level α) (v : α → ℝ) : Prop :=
  ∀ x, l.sgn x = (SignType.sign (v x) : ℤ)


theorem sign_add_sqrt_of_opposite {a b d : ℝ} (hd : 0 < d) (hab : a * b < 0) :
    SignType.sign (a + b * Real.sqrt d) = SignType.sign a * SignType.sign (a * a - d * (b * b)) := by
  have hr : 0 < Real.sqrt d := Real.sqrt_pos.mpr hd
  have hsq : Real.sqrt d * Real.sqrt d = d := Real.mul_self_sqrt hd.le
  have key : a * a - d * (b * b) = (a + b * Real.sqrt d) * (a - b * Real.sqrt d) := by
    linear_combination (b * b) * hsq
  have hsame : SignType.sign (a - b * Real.sqrt d) = SignType.sign a := by
    rcases lt_or_gt_of_ne (left_ne_zero_of_mul hab.ne) with ha | ha
    · have hb : 0 < b := by nlinarith
      rw [sign_neg ha, sign_neg (by nlinarith [mul_pos hb hr])]
    · have hb : b < 0 := by nlinarith
      rw [sign_pos ha, sign_pos (by nlinarith [mul_pos (neg_pos.mpr hb) hr])]
  have hone : SignType.sign a * SignType.sign a = 1 := by
    rw [← sign_mul, sign_pos (mul_self_pos.mpr (left_ne_zero_of_mul hab.ne))]
  rw [key, sign_mul, hsame, mul_comm (SignType.sign (a + b * Real.sqrt d)), ← mul_assoc, hone, one_mul]

theorem Level.SignOf.quad {α : Type} {l : Level α} {v : α → ℝ} (h : l.Hom v) (hs : l.SignOf v) {d : α} (hd : 0 < v d) :
    (quadLevel l d).SignOf (Quad.real v (v d)) := by
  intro x
  have hr : 0 < Real.sqrt (v d) := Real.sqrt_pos.mpr hd
  have key := hs (l.add (l.mul x.re x.re) (l.neg (l.mul d (l.mul x.im x.im))))
  have eq : v (l.add (l.mul x.re x.re) (l.neg (l.mul d (l.mul x.im x.im)))) =
      v x.re * v x.re - v d * (v x.im * v x.im) := by
    simp only [h.add, h.mul, h.neg]; ring
  rw [eq] at key
  simp only [quadLevel, Quad.real, hs x.re, hs x.im, key]
  rcases lt_trichotomy (v x.re) 0 with ha | ha | ha <;> rcases lt_trichotomy (v x.im) 0 with hb | hb | hb
  · have hsum : v x.re + v x.im * Real.sqrt (v d) < 0 := by nlinarith [mul_pos (neg_pos.mpr hb) hr]
    simp [sign_neg ha, sign_neg hb, sign_neg hsum]
  · simp [hb, sign_neg ha]
  · rw [sign_add_sqrt_of_opposite hd (by nlinarith), sign_neg ha, sign_pos hb]; simp
  · simp [ha, sign_neg hb, sign_mul, sign_pos hr]
  · simp [ha, hb]
  · simp [ha, sign_pos hb, sign_mul, sign_pos hr]
  · rw [sign_add_sqrt_of_opposite hd (by nlinarith), sign_pos ha, sign_neg hb]; simp
  · simp [hb, sign_pos ha]
  · have hsum : 0 < v x.re + v x.im * Real.sqrt (v d) := by nlinarith [mul_pos hb hr]
    simp [sign_pos ha, sign_pos hb, sign_pos hsum]

theorem ratLevel_signOf : ratLevel.SignOf (fun q : Rat => (q : ℝ)) := by
  intro q
  simp only [ratLevel]
  rcases lt_trichotomy q 0 with hq | hq | hq
  · rw [sign_neg (by exact_mod_cast hq), Int.sign_eq_neg_one_of_neg (Rat.num_neg.mpr hq)]; rfl
  · simp [hq]
  · rw [sign_pos (by exact_mod_cast hq), Int.sign_eq_one_of_pos (Rat.num_pos.mpr hq)]; rfl

theorem Quad.real_hom {α : Type} {l : Level α} {v : α → ℝ} (h : l.Hom v) {d : α} (hd : 0 < v d) :
    (quadLevel l d).Hom (Quad.real v (v d)) := by
  have := h.quad (RingHom.id ℝ) (d := d) (s := Real.sqrt (v d)) (by simpa using Real.mul_self_sqrt hd.le)
  exact this

namespace Scalar

theorem real_facts : level.Hom Scalar.real ∧ level.SignOf Scalar.real := by
  have h0 := ratLevel_hom (R := ℝ)
  have s0 := ratLevel_signOf
  have d0 : (0 : ℝ) < ((2 : Rat) : ℝ) := by norm_num
  have h1 := Quad.real_hom h0 d0
  have s1 := s0.quad h0 d0
  have e1 : Quad.real (fun q : Rat => (q : ℝ)) ((2 : Rat) : ℝ) ⟨2, 1⟩ = 2 + Real.sqrt 2 := by simp [Quad.real]
  have d1 : 0 < Quad.real (fun q : Rat => (q : ℝ)) ((2 : Rat) : ℝ) ⟨2, 1⟩ := by rw [e1]; positivity
  have h2 := Quad.real_hom h1 d1
  have s2 := s1.quad h1 d1
  have e2 : Quad.real (Quad.real (fun q : Rat => (q : ℝ)) ((2 : Rat) : ℝ))
      (Quad.real (fun q : Rat => (q : ℝ)) ((2 : Rat) : ℝ) ⟨2, 1⟩) ⟨⟨2, 0⟩, ⟨1, 0⟩⟩ = 2 + Real.sqrt (2 + Real.sqrt 2) := by
    rw [e1]; simp [Quad.real]
  have d2 : 0 < Quad.real (Quad.real (fun q : Rat => (q : ℝ)) ((2 : Rat) : ℝ))
      (Quad.real (fun q : Rat => (q : ℝ)) ((2 : Rat) : ℝ) ⟨2, 1⟩) ⟨⟨2, 0⟩, ⟨1, 0⟩⟩ := by rw [e2]; positivity
  have h3 := Quad.real_hom h2 d2
  have s3 := s2.quad h2 d2
  rw [e2, e1] at h3 s3
  norm_num at h3 s3
  exact ⟨h3, s3⟩

theorem real_hom : level.Hom Scalar.real := real_facts.1
theorem sgn_eq (x : Scalar) : level.sgn x = (SignType.sign (Scalar.real x) : ℤ) := real_facts.2 x

end Scalar

/-- The zero test is exact. -/
def Level.Exact {α : Type} (l : Level α) : Prop := ∀ x, l.isZero x = true ↔ x = l.zero

theorem ratLevel_exact : ratLevel.Exact := by intro x; simp [ratLevel]

theorem Level.Exact.quad {α : Type} {l : Level α} (h : l.Exact) (d : α) : (quadLevel l d).Exact := by
  rintro ⟨a, b⟩; simp [quadLevel, h a, h b]

theorem Scalar.isZero_iff (x : Scalar) : level.isZero x = true ↔ x = level.zero :=
  ((ratLevel_exact.quad _).quad _).quad _ x

end Sys2Proof
end

