-- ==== Sys2Proof/Machine/Sample.lean ====
section
/-! DEFINITION. One value of the type `S` (00_scope.md R12) as plain data. DESIGN CHOICE (log 2): in the reference instance a
sample is a linear form `Σ cᵢ·aᵢ`, where `a₀` is 1, the other `aᵢ` are real numbers of which nothing is known, and the factors
are exact numbers of Machine/Scalar.lean. So the samples of a state can be any real numbers at all, the operations of the
engine, which are linear but for the sign test, are exact, and where only `a₀` occurs they can be run. In an instance with
numerics of its own a sample is only a NAME of one of that instance's values. -/

namespace Sys2Proof

/-! ### Linear forms: terms by strictly rising index, no factor zero -/

/-- Indices rise strictly from `lo` on, and no factor is zero. -/
def Form.wfFrom : Nat → List (Nat × Scalar) → Bool
  | _, [] => true
  | lo, (i, x) :: m => decide (lo ≤ i) && !level.isZero x && Form.wfFrom (i + 1) m

/-- A term that is left out where its factor is zero. -/
def Form.cons (i : Nat) (x : Scalar) (m : List (Nat × Scalar)) : List (Nat × Scalar) :=
  if level.isZero x then m else (i, x) :: m

/-- A term added to a form. -/
def Form.insert (i : Nat) (x : Scalar) : List (Nat × Scalar) → List (Nat × Scalar)
  | [] => Form.cons i x []
  | (j, y) :: m =>
    if i < j then Form.cons i x ((j, y) :: m)
    else if i = j then Form.cons i (level.add x y) m
    else (j, y) :: Form.insert i x m

/-- The sum of two forms. -/
def Form.add : List (Nat × Scalar) → List (Nat × Scalar) → List (Nat × Scalar)
  | [], n => n
  | (i, x) :: m, n => Form.insert i x (Form.add m n)

/-- A form with every factor changed. -/
def Form.map (f : Scalar → Scalar) : List (Nat × Scalar) → List (Nat × Scalar)
  | [] => []
  | (i, x) :: m => Form.cons i (f x) (Form.map f m)

/-- What a form amounts to, in terms of the factors and of what stands for the `aᵢ`. -/
def Form.eval {R : Type} [CommRing R] (φ : Scalar → R) (w : Nat → R) : List (Nat × Scalar) → R
  | [] => 0
  | (i, x) :: m => φ x * w i + Form.eval φ w m

theorem Form.wfFrom_mono {lo lo' : Nat} (h : lo ≤ lo') :
    ∀ {m : List (Nat × Scalar)}, Form.wfFrom lo' m = true → Form.wfFrom lo m = true
  | [], _ => rfl
  | (_, _) :: _, k => by
    simp only [Form.wfFrom, Bool.and_eq_true, decide_eq_true_eq] at k ⊢
    exact ⟨⟨h.trans k.1.1, k.1.2⟩, k.2⟩

theorem Form.wfFrom_cons {lo i : Nat} (h : lo ≤ i) (x : Scalar) {m : List (Nat × Scalar)}
    (k : Form.wfFrom (i + 1) m = true) : Form.wfFrom lo (Form.cons i x m) = true := by
  unfold Form.cons
  split
  · exact Form.wfFrom_mono (by omega) k
  · simp_all [Form.wfFrom]

theorem Form.wfFrom_insert {i : Nat} (x : Scalar) :
    ∀ {lo : Nat} {m : List (Nat × Scalar)}, lo ≤ i → Form.wfFrom lo m = true → Form.wfFrom lo (Form.insert i x m) = true
  | _, [], h, _ => Form.wfFrom_cons h x rfl
  | lo, (j, y) :: m, h, k => by
    simp only [Form.wfFrom, Bool.and_eq_true, decide_eq_true_eq] at k
    unfold Form.insert
    split
    · exact Form.wfFrom_cons h x (by simp only [Form.wfFrom, Bool.and_eq_true, decide_eq_true_eq]; exact ⟨⟨‹_›, k.1.2⟩, k.2⟩)
    split
    · rename_i e; subst e
      exact Form.wfFrom_cons h _ k.2
    · simp only [Form.wfFrom, Bool.and_eq_true, decide_eq_true_eq]
      exact ⟨k.1, Form.wfFrom_insert x (by omega) k.2⟩

theorem Form.wfFrom_add : ∀ {lo : Nat} {m n : List (Nat × Scalar)}, Form.wfFrom lo m = true → Form.wfFrom lo n = true →
    Form.wfFrom lo (Form.add m n) = true
  | _, [], _, _, k => k
  | lo, (i, x) :: m, n, h, k => by
    simp only [Form.wfFrom, Bool.and_eq_true, decide_eq_true_eq] at h
    exact Form.wfFrom_insert x h.1.1 (Form.wfFrom_add (Form.wfFrom_mono (by omega) h.2) k)

theorem Form.wfFrom_map (f : Scalar → Scalar) :
    ∀ {lo : Nat} {m : List (Nat × Scalar)}, Form.wfFrom lo m = true → Form.wfFrom lo (Form.map f m) = true
  | _, [], _ => rfl
  | lo, (i, x) :: m, h => by
    simp only [Form.wfFrom, Bool.and_eq_true, decide_eq_true_eq] at h
    exact Form.wfFrom_cons h.1.1 (f x) (Form.wfFrom_map f h.2)

/-! ### Samples -/

/-- One sample, coefficient or embedding strength (R12). -/
structure Sample where
  terms : { m : List (Nat × Scalar) // Form.wfFrom 0 m = true } := ⟨[], rfl⟩
deriving DecidableEq, Repr, Inhabited

namespace Sample

/-- The form of one term. -/
def term (i : Nat) (x : Scalar) : Sample := ⟨⟨Form.cons i x [], Form.wfFrom_cons (Nat.zero_le i) x rfl⟩⟩

/-- A rational number as a sample. -/
def ofRat (q : Rat) : Sample := term 0 ⟨⟨⟨q, 0⟩, ⟨0, 0⟩⟩, ⟨⟨0, 0⟩, ⟨0, 0⟩⟩⟩

/-- The real number `aᵢ`, of which nothing is known but that it is one (and that `a₀` is 1). -/
def unknown (i : Nat) : Sample := term i level.one

def zero : Sample := ⟨⟨[], rfl⟩⟩

def add (v w : Sample) : Sample := ⟨⟨Form.add v.terms.1 w.terms.1, Form.wfFrom_add v.terms.2 w.terms.2⟩⟩

/-- An exact number times a sample. -/
def scale (x : Scalar) (v : Sample) : Sample := ⟨⟨Form.map (level.mul x) v.terms.1, Form.wfFrom_map _ v.terms.2⟩⟩

def neg (v : Sample) : Sample := ⟨⟨Form.map level.neg v.terms.1, Form.wfFrom_map _ v.terms.2⟩⟩

/-- What a sample amounts to, in terms of the factors and of what stands for the `aᵢ`. -/
def eval {R : Type} [CommRing R] (φ : Scalar → R) (w : Nat → R) (v : Sample) : R := Form.eval φ w v.terms.1

/-- The real number that a sample is where `aᵢ` is `a i` for the indices above 0. -/
noncomputable def realWith (a : Nat → ℝ) (v : Sample) : ℝ := v.eval Scalar.real fun i => if i = 0 then 1 else a i

/-- The factor of `a₀`. -/
def constant (v : Sample) : Scalar :=
  match v.terms.1 with
  | (0, x) :: _ => x
  | _ => level.zero

theorem eval_zeros : ∀ (m : List (Nat × Scalar)) (lo : Nat), Form.wfFrom (lo + 1) m = true →
    Form.eval Scalar.real (fun i => if i = 0 then 1 else 0) m = 0
  | [], _, _ => rfl
  | (i, x) :: m, lo, h => by
    simp only [Form.wfFrom, Bool.and_eq_true, decide_eq_true_eq] at h
    simp [Form.eval, show i ≠ 0 by omega, eval_zeros m i h.2]

theorem realWith_zeros (v : Sample) : v.realWith (fun _ => 0) = Scalar.real v.constant := by
  obtain ⟨⟨m, h⟩⟩ := v
  match m, h with
  | [], _ => exact Scalar.real_hom.zero.symm
  | (0, x) :: m, h =>
    simp only [Form.wfFrom, Bool.and_eq_true] at h
    simp [realWith, eval, constant, Form.eval, eval_zeros m 0 h.2]
  | (i + 1, x) :: m, h =>
    have h' : Form.wfFrom (0 + 1) ((i + 1, x) :: m) = true := by
      simp only [Form.wfFrom, Bool.and_eq_true, decide_eq_true_eq] at h ⊢
      exact ⟨⟨by omega, h.1.2⟩, h.2⟩
    have e := eval_zeros _ 0 h'
    simp only [realWith, eval, constant, Scalar.real_hom.zero]
    exact e

end Sample

/-- The sign test of the samples, for real numbers `aᵢ` of which nothing is known: −1, 0 or 1, and for ONE choice of the
`aᵢ` the sign of every sample. (The default only shows that there is such a test. No constant of this type has it.) -/
structure Signs where
  law : { sgn : Sample → Int // ∃ a : Nat → ℝ, ∀ v, sgn v = (SignType.sign (v.realWith a) : ℤ) } :=
    ⟨fun v => level.sgn v.constant, fun _ => 0, fun v => by rw [Sample.realWith_zeros]; exact Scalar.sgn_eq _⟩
deriving Inhabited

end Sys2Proof
end

