-- ==== Sys2Proof/Config.lean ====
section
/-! DEFINITION. What an engine instance fixes (the parameters of 00_scope.md R8), and the free values: constants without a
body, of which no proof can learn anything but what their types say. -/

namespace Sys2Proof

/-- Which numerics an instance has (`NUM` is OPEN in R8): the reference instance of R12, or the `k`-th of an
implementation's own. -/
inductive NumSel where
  | reference
  | impl (k : Nat)
deriving DecidableEq, Repr

/-- The parameters of one engine instance (R8, R9, R49): constants, which no step changes. They stand beside the state
so that every statement about a state holds for every admitted value of them (log 1). `N`, `ALPHA_LO` and `ALPHA_HI` are
fixed (R8); `EPS_S` belongs to `NUM`. -/
structure Inst where
  /-- `NUM`. -/
  num : NumSel
  /-- `CU`: row index of the carrier coefficient (R9). -/
  cu : Fin 8
  /-- `CV`: column index of the carrier coefficient. -/
  cv : Fin 8
  /-- `IMG_MAX`: cells of `IMG`. -/
  imgMax : Nat
  /-- `MSGIN_MAX`: bytes of `MSGIN`. -/
  msginMax : Nat
  /-- `MSGOUT_MAX`: bytes of `MSGOUT`. -/
  msgoutMax : Nat
  /-- The model's own: which engine after which power-up, the index of everything the spec leaves unspecified. -/
  chip : Nat
deriving DecidableEq, Repr

/-- The values with which the spec's examples are computed (R8, 92_eei_decisions.md, 95_test_vectors.md). -/
def Inst.ofExamples : Inst :=
  { num := .reference, cu := 4, cv := 3, imgMax := 4096, msginMax := 64, msgoutMax := 64, chip := 0 }

/-! ### Numerics of an implementation -/

/-- Plain numerics on the rational numbers among the names, with no transform at all. They only show that
`Implementation` has an element. -/
def Num.plain : Num Sample :=
  let q := fun v : Sample => v.constant.re.re.re
  { zero := .ofRat 0
    alphaReset := .ofRat ⟨1, 10, by decide, by decide⟩
    fdct := id
    idct := id
    add := fun v w => .ofRat (q v + q w)
    neg := fun v => .ofRat (-q v)
    abs := fun v => .ofRat |q v|
    isPos := fun v => decide (0 < q v)
    isNonneg := fun v => decide (0 ≤ q v) }

theorem Sample.constant_ofRat (q : Rat) : (Sample.ofRat q).constant.re.re.re = q := by
  by_cases h : q = 0
  · subst h; rfl
  · have hz : level.isZero (⟨⟨⟨q, 0⟩, ⟨0, 0⟩⟩, ⟨⟨0, 0⟩, ⟨0, 0⟩⟩⟩ : Scalar) = false := by
      rw [Bool.eq_false_iff, Ne, Scalar.isZero_iff]
      intro e
      exact h (congrArg (fun x : Scalar => x.re.re.re) e)
    simp [Sample.constant, Sample.ofRat, Sample.term, Form.cons, hz]

theorem Num.plain_lawful (cu cv : Fin 8) :
    Numerics.Lawful ⟨Sample, Num.plain, fun v => some (v.constant.re.re.re : ℝ), fun _ => false, 0⟩ cu cv where
  epsS_nonneg := le_refl 0
  zero_is_zero := by simp [Num.plain, Sample.constant_ofRat]
  zero_positive := rfl
  negZero_is_zero := fun _ h => Bool.noConfusion h
  alphaReset_nearest := by
    have h : (((⟨1, 10, by decide, by decide⟩ : Rat)) : ℝ) = 1 / 10 := by norm_num [Rat.cast_def]
    exact ⟨_, rfl, fun v y _ => by simp only [Num.plain, Sample.constant_ofRat, h]; simp⟩
  np1 := fun _ _ _ _ => ⟨fun _ => rfl, fun h => absurd h (lt_irrefl 0)⟩
  np2 := by
    rintro blk b a - ⟨x, hx, hlo, -⟩
    have ha : (0 : ℝ) < a.constant.re.re.re := by
      rw [Option.some.injEq] at hx; rw [hx]; exact lt_of_lt_of_le (by norm_num [Numerics.alphaLo]) hlo
    have ha' : 0 < a.constant.re.re.re := by exact_mod_cast ha
    have key : 0 < |(blk.at cu cv).constant.re.re.re| + a.constant.re.re.re := by positivity
    have hput : ∀ v : Sample, (blk.put cu cv v).at cu cv = v := fun v => by simp [Mat8.put, Mat8.at]
    cases b
    · simp [Num.plain, Num.embedAt, hput, Machine.dec, Machine.pol, Sample.constant_ofRat]; linarith
    · simp [Num.plain, Num.embedAt, hput, Machine.dec, Machine.pol, Sample.constant_ofRat, key.le]

/-- The numerics of an implementation: operations on the names of its values, and which names are those of a
negative zero. They satisfy what the spec requires with some reading of the names as real numbers and some `EPS_S`. (The default only shows that there is such a thing. No constant of
this type has it.) -/
structure Implementation (cu cv : Fin 8) where
  law : { n : Num Sample × (Sample → Bool) //
      ∃ (real : Sample → Option ℝ) (epsS : ℝ), Numerics.Lawful ⟨Sample, n.1, real, n.2, epsS⟩ cu cv } :=
    ⟨(Num.plain, fun _ => false), _, _, Num.plain_lawful cu cv⟩
deriving Inhabited

/-- The operations of an implementation. -/
def Implementation.ops {cu cv : Fin 8} (m : Implementation cu cv) : Num Sample := m.law.1.1

/-- Whether a name is that of a negative zero. -/
def Implementation.negZero {cu cv : Fin 8} (m : Implementation cu cv) : Sample → Bool := m.law.1.2

/-- FREE: the numerics of an implementation with a carrier position (R107, 93 U2 and U9), all that R12 admits. -/
opaque Config.impl : Nat → (cu cv : Fin 8) → Implementation cu cv

/-- FREE: the sign test of the samples of the reference instance, and with it the real numbers `aᵢ` that occur in them
(Machine/Sample.lean). -/
opaque Config.signs : Signs

/-! ### Unspecified contents -/

/-- FREE: what a cell of `IMG` holds after power-up (R45, R192, 93 U7), by chip and cell. -/
opaque Config.powerUpImg : Nat → Nat → Sample
/-- FREE: what a cell of `MSGIN` holds after power-up (R46). -/
opaque Config.powerUpMsgin : Nat → Nat → Byte
/-- FREE: what a cell of `MSGOUT` holds after power-up (R47). -/
opaque Config.powerUpMsgout : Nat → Nat → Byte

/-- FREE: what an unspecified host read returns (R64, R74, 93 U3 and U5), by chip and number of the draw. -/
opaque Config.freeWord : Nat → Nat → Word
/-- FREE: the same for a cell of type `S`. -/
opaque Config.freeSample : Nat → Nat → Sample
/-- FREE: the same for a byte cell. -/
opaque Config.freeByte : Nat → Nat → Byte

/-- FREE: whether a cell of `IMG` holds the new value after a reset that abandons a command (R191, 93 U4), by chip,
number of the draw and cell. -/
opaque Config.landedImg : Nat → Nat → Nat → Bool
/-- FREE: the same for a cell of `MSGOUT`. -/
opaque Config.landedMsgout : Nat → Nat → Nat → Bool

/-- FREE: the platform's parameters of R8 and R66. No rule depends on them and no step reads them (log 12). -/
opaque Config.regBase : Nat
/-- FREE: `SREG_BASE` (R66). -/
opaque Config.sregBase : Nat
/-- FREE: `IMG_BASE` (R66). -/
opaque Config.imgBase : Nat
/-- FREE: `MSGIN_BASE` (R66). -/
opaque Config.msginBase : Nat
/-- FREE: `MSGOUT_BASE` (R66). -/
opaque Config.msgoutBase : Nat
/-- FREE: `SBITS`, the bits of one value of `S` on the host interface (R8). -/
opaque Config.sbits : Nat

/-- The byte address of `REG` offset `k` (R24). -/
def Config.regByteAddress (k : Nat) : Nat := Config.regBase + 4 * k

end Sys2Proof
end

