-- ==== Sys2Proof/Syntax.lean ====
section
/-! DEFINITION. The command set `DCT8x8-STEG/1`: one constructor per row of the opcode table (30_encoding.md R86). -/

namespace Sys2Proof

/-- The 17 commands of R86. No command carries an operand: every operand is implicit (R87). -/
inductive Instr where
  /-- R160. -/
  | nop
  /-- R161. -/
  | clrerr
  /-- R162. -/
  | sreset
  /-- R102. -/
  | fdct
  /-- R104. -/
  | idct
  /-- R122. -/
  | embed
  /-- R124. -/
  | extract
  /-- R114. -/
  | blkrst
  /-- R113. -/
  | blknext
  /-- R115. -/
  | ldblk
  /-- R116. -/
  | stblk
  /-- R133. -/
  | frmrst
  /-- R134. -/
  | frmget
  /-- R136. -/
  | unfrst
  /-- R137. -/
  | unfput
  /-- R146. -/
  | encode
  /-- R150. -/
  | decode
deriving DecidableEq, Repr

/-- The class column of R86: an immediate command has its whole effect in the `CMD` write (20_memory.md R70). -/
def Instr.immediate : Instr → Bool
  | .nop | .clrerr | .sreset => true
  | .fdct | .idct | .embed | .extract | .blkrst | .blknext | .ldblk | .stblk => false
  | .frmrst | .frmget | .unfrst | .unfput | .encode | .decode => false

end Sys2Proof
end

