-- ==== Sys2Proof/WellFormed.lean ====
section
/-! DEFINITION. What is checked once: a command (nothing to check, R87) and the parameters of an instance (R8). -/

namespace Sys2Proof

/-- No command has a field (R87), so every command is well formed. -/
def Instr.wellFormed : Instr → Bool
  | .nop | .clrerr | .sreset | .fdct | .idct | .embed | .extract | .blkrst | .blknext => true
  | .ldblk | .stblk | .frmrst | .frmget | .unfrst | .unfput | .encode | .decode => true

/-- The ranges R8 admits for the sizes of the three memories. -/
def Inst.wf (p : Inst) : Bool :=
  decide (p.imgMax ≤ 65535 * 65535) && decide (p.msginMax < 2 ^ 28) &&
  decide (p.imgMax / 64 / 8 ≤ p.msgoutMax) && decide (p.msgoutMax < 2 ^ 32)

end Sys2Proof
end

