-- ==== Sys2Proof/Decode.lean ====
section
/-! DEFINITION. Decoding and encoding of command words (30_encoding.md R85, R86, R89). -/

namespace Sys2Proof

/-- Why a word is no command (R89). -/
inductive DecodeError where
  /-- `w[31:8] ≠ 0`. -/
  | reservedBits
  /-- `w[7:0]` is not one of the 17 opcodes. -/
  | unknownOpcode
deriving DecidableEq, Repr

/-- Field `op` of format `C` (R85). -/
def opField (w : Word) : BitVec 8 := w.extractLsb' 0 8

/-- Field `rsv` of format `C` (R85). -/
def rsvField (w : Word) : BitVec 24 := w.extractLsb' 8 24

/-- The `op` column of R86. -/
def opcodeTable : List (BitVec 8 × Instr) :=
  [(0x00#8, .nop), (0x01#8, .clrerr), (0x02#8, .sreset), (0x10#8, .fdct), (0x11#8, .idct), (0x20#8, .embed),
   (0x21#8, .extract), (0x30#8, .blkrst), (0x31#8, .blknext), (0x32#8, .ldblk), (0x33#8, .stblk), (0x40#8, .frmrst),
   (0x41#8, .frmget), (0x48#8, .unfrst), (0x49#8, .unfput), (0x80#8, .encode), (0x81#8, .decode)]

/-- The command an opcode stands for, if any. -/
def decodeOpcode (op : BitVec 8) : Option Instr :=
  (opcodeTable.find? fun row => row.1 == op).map (·.2)

/-- The command a word stands for; every other word is illegal (R89). A word comes whole from the data of the `CMD`
write (R78), so there is no byte order. -/
def decodeWord (w : Word) : Except DecodeError Instr :=
  if rsvField w = 0#24 then
    match decodeOpcode (opField w) with
    | some i => .ok i
    | none => .error .unknownOpcode
  else .error .reservedBits

/-- The word of a command (the `word` column of R86). -/
def encode : Instr → Word
  | .nop => 0x00000000#32
  | .clrerr => 0x00000001#32
  | .sreset => 0x00000002#32
  | .fdct => 0x00000010#32
  | .idct => 0x00000011#32
  | .embed => 0x00000020#32
  | .extract => 0x00000021#32
  | .blkrst => 0x00000030#32
  | .blknext => 0x00000031#32
  | .ldblk => 0x00000032#32
  | .stblk => 0x00000033#32
  | .frmrst => 0x00000040#32
  | .frmget => 0x00000041#32
  | .unfrst => 0x00000048#32
  | .unfput => 0x00000049#32
  | .encode => 0x00000080#32
  | .decode => 0x00000081#32

/-- The host's view of the decoder: a command of `nbits` bits whose bits are `w`. A command is one 32-bit word, so bits
above `nbits` are 0, and a number that does not fit is no command. -/
def decodeTableWord (nbits w : Nat) : Option Instr :=
  if nbits ≤ 32 ∧ w < 2 ^ nbits then
    match decodeWord (BitVec.ofNat 32 w) with
    | .ok i => some i
    | .error _ => none
  else none

end Sys2Proof
end

