-- ==== Sys2Proof/Machine/Reference.lean ====
section
/-! DEFINITION. The reference instance of `NUM` (00_scope.md R12, 40_transform.md R101 and R103) on the samples that a state
holds, the choice of an instance's numerics, and which values of the instance's `S` the samples stand for. -/

namespace Sys2Proof

namespace Reference

/-- One quarter. -/
def quarter : Rat := ⟨1, 4, by decide, by decide⟩

/-- `g0 = 1/2`, `g1` to `g7` of R101 (`gk = cos(k·π/16)/2`) and `g8 = 0`, in the tower's coordinates. -/
def g : Nat → Scalar
  | 0 => ⟨⟨⟨⟨1, 2, by decide, by decide⟩, 0⟩, ⟨0, 0⟩⟩, ⟨⟨0, 0⟩, ⟨0, 0⟩⟩⟩
  | 1 => ⟨⟨⟨0, 0⟩, ⟨0, 0⟩⟩, ⟨⟨quarter, 0⟩, ⟨0, 0⟩⟩⟩
  | 2 => ⟨⟨⟨0, 0⟩, ⟨quarter, 0⟩⟩, ⟨⟨0, 0⟩, ⟨0, 0⟩⟩⟩
  | 3 => ⟨⟨⟨0, 0⟩, ⟨0, 0⟩⟩, ⟨⟨-quarter, 0⟩, ⟨quarter, 0⟩⟩⟩
  | 4 => ⟨⟨⟨0, quarter⟩, ⟨0, 0⟩⟩, ⟨⟨0, 0⟩, ⟨0, 0⟩⟩⟩
  | 5 => ⟨⟨⟨0, 0⟩, ⟨0, 0⟩⟩, ⟨⟨quarter, quarter⟩, ⟨-quarter, 0⟩⟩⟩
  | 6 => ⟨⟨⟨0, 0⟩, ⟨-quarter, quarter⟩⟩, ⟨⟨0, 0⟩, ⟨0, 0⟩⟩⟩
  | 7 => ⟨⟨⟨0, 0⟩, ⟨0, 0⟩⟩, ⟨⟨-quarter, -quarter⟩, ⟨0, quarter⟩⟩⟩
  | _ => level.zero

/-- `cos(m·π/16)/2` for `m` in 0 .. 31, by the symmetries of the cosine. -/
def halfCos (m : Nat) : Scalar :=
  if m ≤ 8 then g m
  else if m ≤ 16 then level.neg (g (16 - m))
  else if m ≤ 24 then level.neg (g (m - 16))
  else g (32 - m)

/-- The matrix `T` of R101, `T[k][n] = a(k)·cos((2n+1)·k·π/16)`, the angle reduced modulo `2π`. -/
def T (k n : Fin 8) : Scalar :=
  if k.val = 0 then g 4 else halfCos ((2 * n.val + 1) * k.val % 32)

/-- A sum over an index of R101. -/
def sum8 (f : Fin 8 → Sample) : Sample :=
  (List.finRange 8).foldl (fun acc i => acc.add (f i)) .zero

/-- R101: `C[u][v] = Σ r c, T[u][r]·B[r][c]·T[v][c]`. -/
def fdct (b : Mat8 Sample) : Mat8 Sample :=
  Mat8.of fun u v => sum8 fun r => sum8 fun c => Sample.scale (level.mul (T u r) (T v c)) (b.at r c)

/-- R103: `B[r][c] = Σ u v, T[u][r]·C[u][v]·T[v][c]`. -/
def idct (m : Mat8 Sample) : Mat8 Sample :=
  Mat8.of fun r c => sum8 fun u => sum8 fun v => Sample.scale (level.mul (T u r) (T v c)) (m.at u v)

/-- The sign of a sample: −1, 0 or 1. Only where a number occurs in it of which nothing is known does it take the free
sign test. -/
def sgn (v : Sample) : Int :=
  match v.terms.1 with
  | [] => 0
  | [(0, x)] => level.sgn x
  | _ => Config.signs.law.1 v

/-- Greater than or equal to zero. -/
def isNonneg (v : Sample) : Bool := sgn v != -1

/-- `v ≤ w`. -/
def le (v w : Sample) : Bool := isNonneg (w.add v.neg)

/-- The reference instance (R12) on samples, with `ALPHA_RESET = 1/10` (R8). -/
def num : Num Sample where
  zero := .zero
  alphaReset := .ofRat ⟨1, 10, by decide, by decide⟩
  fdct := fdct
  idct := idct
  add := Sample.add
  neg := Sample.neg
  abs := fun v => if sgn v = -1 then v.neg else v
  isPos := fun v => sgn v == 1
  isNonneg := isNonneg

end Reference

/-- The real number that a sample of the reference instance is (log 2). -/
noncomputable def Sample.real (v : Sample) : ℝ := v.realWith (Classical.choose Config.signs.law.2)

/-- The numerics of an instance (R8: `NUM` is OPEN). -/
def Inst.numerics (p : Inst) : Num Sample :=
  match p.num with
  | .reference => Reference.num
  | .impl k => (Config.impl k p.cu p.cv).ops

/-- `NUM` of an instance, and the value of its type `S` for which each sample stands. -/
structure Reading where
  NUM : Numerics
  value : Sample → NUM.S

/-- `NUM` of an instance: the record of R12 itself for the reference instance, where the samples stand for real numbers;
for an implementation's own numerics, where the samples name its values, with the reading as real numbers and the `EPS_S`
that the type of `Config.impl` says there are. -/
noncomputable def Inst.reading (p : Inst) : Reading :=
  match p.num with
  | .reference => ⟨Numerics.reference, Sample.real⟩
  | .impl k =>
    let m := Config.impl k p.cu p.cv
    ⟨⟨Sample, m.ops, Classical.choose m.law.2, m.negZero, Classical.choose (Classical.choose_spec m.law.2)⟩, id⟩

/-- A sample in the nominal range (R106). -/
def Inst.nominal (p : Inst) (v : Sample) : Prop := p.reading.NUM.nominal (p.reading.value v)

/-- A strength in the range of R8. -/
def Inst.safeAlpha (p : Inst) (a : Sample) : Prop := p.reading.NUM.safeAlpha (p.reading.value a)

/-- Two samples within `EPS_S` of each other (R106). -/
def Inst.near (p : Inst) (v w : Sample) : Prop := p.reading.NUM.near (p.reading.value v) (p.reading.value w)

end Sys2Proof
end

