-- ==== Sys2Proof/Machine/State.lean ====
section
/-! DEFINITION. The state of the engine (10_state.md), what the host can do to it (20_memory.md R70), the outcomes of a
command rule (00_scope.md R13), and the state after reset (R50). -/

namespace Sys2Proof.Machine

/-- `STATUS.STATE` (R26). The value 3 never occurs. -/
inductive Mode where
  | idle
  | busy
  | error
deriving DecidableEq, Repr

/-- `STATUS.STOPC` (R26): why the most recent `DECODE` stopped. -/
inductive StopCause where
  | none
  | terminator
  | length
  | blocks
deriving DecidableEq, Repr

/-- The errors of 60_exceptions.md R166. `SizeMismatch` has a code and no raiser (R169). -/
inductive ErrorKind where
  | insufficientCapacity
  | terminatorNotFound
  | sizeMismatch
  | illegalCommand
  | badConfig
  | blockRange
  | frameExhausted
  | outputOverflow
deriving DecidableEq, Repr

/-- The five address spaces (R44). -/
inductive Space where
  | reg
  | sreg
  | img
  | msgin
  | msgout
deriving DecidableEq, Repr

/-- What the bus returns to a host read: one whole cell (R60, R65). -/
inductive ReadData where
  | word (w : Word)
  | sample (v : Sample)
  | byte (b : Byte)
deriving DecidableEq, Repr

/-- One step of the outside world or one turn of the engine (R70), and the reset pin (70_reset_and_hazards.md R190).
Accesses to `REG` are whole words by their type (R24, 93 U6). -/
inductive Event where
  /-- `HRead(space, i)`. -/
  | read (sp : Space) (i : Nat)
  /-- `HWrite(REG, i, w)`; at offset 0 the write that presents a command. -/
  | writeReg (i : Nat) (w : Word)
  /-- `HWrite(SREG, i, v)`. -/
  | writeSreg (i : Nat) (v : Sample)
  /-- `HWrite(IMG, i, v)`. -/
  | writeImg (i : Nat) (v : Sample)
  /-- `HWrite(MSGIN, i, b)`. -/
  | writeMsgin (i : Nat) (b : Byte)
  /-- `HWrite(MSGOUT, i, b)`. -/
  | writeMsgout (i : Nat) (b : Byte)
  /-- The engine's turn: `Complete`, if it is enabled. -/
  | engine
  /-- `rst_n` is asserted. -/
  | resetPin
deriving DecidableEq, Repr

/-- Why the machine stops. -/
inductive Fault where
  /-- Raised by `Complete` (Machine/HostPort.lean) when `STATE = BUSY` and `PEND` holds no opcode of a deferred command.
  No reachable state is such (R48, R51). Safe: the machine stops where the spec has no behaviour. -/
  | pendNotDeferred
deriving DecidableEq, Repr

/-- Why an instruction has no meaning. -/
inductive Refusal where
  /-- Raised by an arm of `exec` that has no meaning yet; no arm is such. Safe. -/
  | notModelled (mnemonic : String)
deriving DecidableEq, Repr

/-- The complete state of the engine (10_state.md section 1), and five fields of the model's own. -/
structure State where
  /-- The model's own: the parameters of this engine instance, which no step changes (R9, R49). -/
  inst : Inst
  /-- `STATUS.STATE` (R26). -/
  mode : Mode
  /-- `STATUS.DONE` (R26). -/
  done : Bool
  /-- `STATUS.HZD` (R26). -/
  hzd : Bool
  /-- `STATUS.UTERM` (R26). -/
  uterm : Bool
  /-- `STATUS.STOPC` (R26). -/
  stopc : StopCause
  /-- `ERR[7:0]` (R27). -/
  err : BitVec 8
  /-- `ERRINFO0` (R28). -/
  errinfo0 : Word
  /-- `ERRINFO1` (R28). -/
  errinfo1 : Word
  /-- `CFG.EXPEN` (R29). -/
  expen : Bool
  /-- `WIDTH` (R33). -/
  width : BitVec 16
  /-- `HEIGHT` (R33). -/
  height : BitVec 16
  /-- `MSGLEN` (R34). -/
  msglen : BitVec 28
  /-- `EXPLEN` (R35). -/
  explen : Word
  /-- `BIDX` (R22, R36). -/
  bidx : Word
  /-- `BIT` (R37). -/
  bit : Bool
  /-- `FPOS` (R38). -/
  fpos : Word
  /-- `UACC` (R39). -/
  uacc : BitVec 8
  /-- `UCNT` (R39). -/
  ucnt : BitVec 3
  /-- `UBITS` (R40). -/
  ubits : Word
  /-- `UOUT` (R40). -/
  uout : Word
  /-- `OUTLEN` (R41). -/
  outlen : Word
  /-- `ALPHA` (R30). -/
  alpha : Sample
  /-- `BLK` (R31). -/
  blk : Mat8 Sample
  /-- `COEF` (R32). -/
  coef : Mat8 Sample
  /-- `IMG` (R45): the written cells, by rising address. -/
  img : List (Nat × Sample)
  /-- `MSGIN` (R46). -/
  msgin : List Host.Cell
  /-- `MSGOUT` (R47). -/
  msgout : List Host.Cell
  /-- `PEND` (R48): the opcode of the deferred command that was accepted and has not completed. -/
  pend : Option (BitVec 8)
  /-- The model's own: what the outside world does next, and when the engine has its turn, oldest first (R70). -/
  agenda : List Event
  /-- The model's own: what the bus returned to the last host read. -/
  rdata : Option ReadData
  /-- The model's own: how many unspecified values have been drawn so far. -/
  draws : Nat
deriving DecidableEq, Repr

/-- How a command rule ends (R13): `done`, or `raise E(i0, i1)` with the state changes made before it. -/
inductive CmdResult where
  | done (s : State)
  | raise (e : ErrorKind) (i0 i1 : Nat) (s : State)

/-- The engine instance `p` right after its first reset (R50, R192). -/
def State.ofInst (p : Inst) : State :=
  { inst := p
    mode := .idle, done := false, hzd := false, uterm := false, stopc := .none
    err := 0, errinfo0 := 0, errinfo1 := 0
    expen := false, width := 0, height := 0, msglen := 0, explen := 0
    bidx := 0, bit := false, fpos := 0
    uacc := 0, ucnt := 0, ubits := 0, uout := 0, outlen := 0
    alpha := p.numerics.alphaReset
    blk := Vector.replicate 64 p.numerics.zero
    coef := Vector.replicate 64 p.numerics.zero
    img := [], msgin := [], msgout := []
    pend := none
    agenda := [], rdata := none, draws := 0 }

/-- The machine right after reset (R50), with the parameters of the spec's examples. -/
def State.reset : State := State.ofInst Inst.ofExamples

end Sys2Proof.Machine
end

