-- ==== Sys2Proof/Machine/Ops.lean ====
section
/-! DEFINITION. The named operations over memory and registers: cells, free values, ending a command
(60_exceptions.md R175, R176), leaving the error state (R177), and resetting the registers (10_state.md R50). -/

namespace Sys2Proof.Machine

/-! ### A memory: the written cells by strictly rising address. A cell not listed was never written; it has no entry and
so no value of its own to compare with, which makes the form canonical (log 4). -/

/-- What was last written to a cell, if anything. -/
def Mem.lookup {α : Type} : List (Nat × α) → Nat → Option α
  | [], _ => none
  | (b, w) :: m, a => if a = b then some w else Mem.lookup m a

/-- `MemWrite` (R13): cell `a` becomes `v`. -/
def Mem.write {α : Type} : List (Nat × α) → Nat → α → List (Nat × α)
  | [], a, v => [(a, v)]
  | (b, w) :: m, a, v =>
    if a < b then (a, v) :: (b, w) :: m
    else if a = b then (a, v) :: m
    else (b, w) :: Mem.write m a v

/-- Every address is above `lo`, and they rise strictly. -/
def Mem.rising {α : Type} : Option Nat → List (Nat × α) → Bool
  | _, [] => true
  | lo, (a, _) :: m => (match lo with | none => true | some b => decide (b < a)) && Mem.rising (some a) m

/-- The canonical form of a memory of `size` cells. -/
def Memory.wf {α : Type} (size : Nat) (m : List (Nat × α)) : Bool :=
  Mem.rising none m && m.all fun c => decide (c.1 < size)

/-- After a command was abandoned: each cell that the command would have written holds its new value where `landed`
says so, and its old one otherwise (R191). A cell it would have left as it was keeps its value. -/
def Mem.abandon {α : Type} [DecidableEq α] (landed : Nat → Bool) (old : List (Nat × α)) :
    List (Nat × α) → List (Nat × α)
  | [] => []
  | (a, v) :: m =>
    match Mem.lookup old a with
    | some w =>
      (a, if v = w then w else if landed a then v else w) :: Mem.abandon landed old m
    | none =>
      if landed a then (a, v) :: Mem.abandon landed old m else Mem.abandon landed old m

/-- `MemRead(IMG, a)`: what a cell holds, which after power-up is unspecified (R45, R192). -/
def State.imgAt (s : State) (a : Nat) : Sample :=
  (Mem.lookup s.img a).getD (Config.powerUpImg s.inst.chip a)

/-- `MemRead(MSGIN, a)` (R46). -/
def State.msginAt (s : State) (a : Nat) : Byte :=
  (Mem.lookup s.msgin a).getD (Config.powerUpMsgin s.inst.chip a)

/-- `MemRead(MSGOUT, a)` (R47). -/
def State.msgoutAt (s : State) (a : Nat) : Byte :=
  (Mem.lookup s.msgout a).getD (Config.powerUpMsgout s.inst.chip a)

/-- `MemWrite(IMG, a, v)`. -/
def State.setImg (s : State) (a : Nat) (v : Sample) : State := { s with img := Mem.write s.img a v }

/-- `MemWrite(MSGIN, a, b)`, by the host only (R46). -/
def State.setMsgin (s : State) (a : Nat) (b : Byte) : State := { s with msgin := Mem.write s.msgin a b }

/-- `MemWrite(MSGOUT, a, b)`. -/
def State.setMsgout (s : State) (a : Nat) (b : Byte) : State := { s with msgout := Mem.write s.msgout a b }

/-- The numerics of this engine instance. -/
def State.num (s : State) : Num Sample := s.inst.numerics

/-! ### Ending a command -/

/-- The code of an error (R166). -/
def ErrorKind.code : ErrorKind → BitVec 8
  | .insufficientCapacity => 1
  | .terminatorNotFound => 2
  | .sizeMismatch => 3
  | .illegalCommand => 4
  | .badConfig => 5
  | .blockRange => 6
  | .frameExhausted => 7
  | .outputOverflow => 8

/-- Error entry, R175: the engine's way of taking an exception. Nothing is saved elsewhere and control goes nowhere. -/
def State.enterError (s : State) (e : ErrorKind) (i0 i1 : Nat) : State :=
  { s with err := e.code, errinfo0 := BitVec.ofNat 32 i0, errinfo1 := BitVec.ofNat 32 i1
           mode := .error, done := false, pend := none }

/-- Normal completion, R176. -/
def State.complete (s : State) : State := { s with mode := .idle, done := true, pend := none }

/-- Leaving the error state without restoring anything (R161, R177): the engine's return from an exception. -/
def State.leaveError (s : State) : State :=
  { s with err := 0, errinfo0 := 0, errinfo1 := 0, mode := .idle, done := false }

/-- The end of a command rule: R176 after `done`, R175 after `raise`. -/
def CmdResult.finish : CmdResult → Host.Outcome State Fault Refusal
  | .done s => .next s.complete
  | .raise e i0 i1 s => .next (s.enterError e i0 i1)

/-- Every register takes its reset value (R50); the memories are kept. -/
def State.resetRegisters (s : State) : State :=
  { State.ofInst s.inst with
    img := s.img, msgin := s.msgin, msgout := s.msgout
    agenda := s.agenda, rdata := s.rdata, draws := s.draws }

end Sys2Proof.Machine
end

