-- ==== Sys2Proof/Machine/Operands.lean ====
section
/-! DEFINITION. The implicit operands of the commands (30_encoding.md R87): derived quantities (10_state.md R43), block
addresses (41_block_iterator.md R112), the carrier coefficient (42_embed_extract.md R121, R129), framed bits
(43_framer.md R131), and the shared bodies of which the commands are made. -/

namespace Sys2Proof.Machine

/-! ### Derived quantities, R43 -/

/-- `BW`: full blocks per block-row. -/
def State.bw (s : State) : Nat := s.width.toNat / 8

/-- `BH`: full block-rows. -/
def State.bh (s : State) : Nat := s.height.toNat / 8

/-- `NBLK`: capacity in blocks, which is capacity in bits. -/
def State.nblk (s : State) : Nat := s.bw * s.bh

/-- `LBITS`: framed bit length. -/
def State.lbits (s : State) : Nat := 8 * (s.msglen.toNat + 1)

/-! ### The checks that commands share (60_exceptions.md R166, `BadConfig`) -/

/-- Sub-cause 1: the configured image does not fit `IMG`. -/
def State.imageTooLarge (s : State) : Bool := decide (s.inst.imgMax < s.width.toNat * s.height.toNat)

/-- Sub-cause 2: the message does not fit `MSGIN`. -/
def State.messageTooLong (s : State) : Bool := decide (s.inst.msginMax < s.msglen.toNat)

/-- Sub-cause 3: `ALPHA` is not positive. -/
def State.alphaNotPositive (s : State) : Bool := !s.num.isPos s.alpha

/-! ### Blocks -/

/-- The `IMG` cell of sample `(r, c)` of block `k` in an image of the given width (R112). -/
def blockAddr (width k : Nat) (r c : Fin 8) : Nat :=
  (8 * (k / (width / 8)) + r.val) * width + 8 * (k % (width / 8)) + c.val

/-- The address of sample `(r, c)` of block `BIDX`. -/
def State.sampleAddr (s : State) (r c : Fin 8) : Nat := blockAddr s.width.toNat s.bidx.toNat r c

/-- `BIDX <- k`. -/
def State.setBidx (s : State) (k : Word) : State := { s with bidx := k }

/-- The body of `LDBLK` (R115): block `BIDX` of the image into `BLK`. -/
def State.loadBlock (s : State) : State :=
  { s with blk := Mat8.of fun r c => s.imgAt (s.sampleAddr r c) }

/-- A memory after the 64 values of `b` were written, element `[r][c]` at `addr r c`. (Irreducible, so that no unifier
unrolls it; Laws/Memory.lean says what it holds.) -/
@[irreducible] def Mem.writeBlock {α : Type} (m : List (Nat × α)) (addr : Fin 8 → Fin 8 → Nat) (b : Mat8 α) :
    List (Nat × α) :=
  Mat8.positions.foldl (fun m p => Mem.write m (addr p.1 p.2) (b.at p.1 p.2)) m

/-- The body of `STBLK` (R116, R117): `BLK` into block `BIDX` of the image, neither rounded nor clamped. -/
def State.storeBlock (s : State) : State := { s with img := Mem.writeBlock s.img s.sampleAddr s.blk }

/-! ### The transform -/

/-- The body of `FDCT` (R102). -/
def State.forward (s : State) : State := { s with coef := s.num.fdct s.blk }

/-- The body of `IDCT` (R104). -/
def State.inverse (s : State) : State := { s with blk := s.num.idct s.coef }

/-! ### The carrier coefficient -/

/-- `COEF[CU][CV]` (R129). -/
def State.carrier (s : State) : Sample := s.coef.at s.inst.cu s.inst.cv

/-- The body of `EMBED` (R122): one cell of `COEF` is written, the other 63 are not. -/
def State.embedBit (s : State) : State :=
  { s with coef := s.coef.put s.inst.cu s.inst.cv (pol s.num s.bit s.carrier s.alpha) }

/-- The body of `EXTRACT` (R124). -/
def State.extractBit (s : State) : State := { s with bit := dec s.num s.carrier }

/-! ### Framing and unframing -/

/-- `FPOS <- k`. -/
def State.setFpos (s : State) (k : Word) : State := { s with fpos := k }

/-- Bit `i` of the framed bitstream (R131): most significant bit of each byte first, then the terminator byte. -/
def State.frameBit (s : State) (i : Nat) : Bool :=
  if i < 8 * s.msglen.toNat then (s.msginAt (i / 8)).getLsbD (7 - i % 8) else false

/-- `BIT` takes the framed bit at `FPOS` and `FPOS` moves on (R134, R146). -/
def State.takeFrameBit (s : State) : State :=
  { s with bit := s.frameBit s.fpos.toNat, fpos := s.fpos + 1 }

/-- The body of `UNFRST` (R136). -/
def State.restartUnframer (s : State) : State :=
  { s with uacc := 0, ucnt := 0, ubits := 0, uout := 0, uterm := false }

/-- `((UACC << 1) | BIT) & 0xFF` (R137). -/
def State.shiftedAcc (s : State) : BitVec 8 := s.uacc <<< 1 ||| (BitVec.ofBool s.bit).setWidth 8

/-- The bit joins the current byte (R137). -/
def State.shiftIn (s : State) : State := { s with uacc := s.shiftedAcc, ucnt := s.ucnt + 1, ubits := s.ubits + 1 }

/-- The bit completes a terminator byte (R137). -/
def State.endMessage (s : State) : State := { s with uterm := true, uacc := 0, ucnt := 0, ubits := s.ubits + 1 }

/-- The bit completes a message byte, which is stored (R137). -/
def State.storeByte (s : State) : State :=
  { s with msgout := Mem.write s.msgout s.uout.toNat s.shiftedAcc
           uout := s.uout + 1, uacc := 0, ucnt := 0, ubits := s.ubits + 1 }

/-- The body of `UNFPUT` (R137), also performed by `DECODE` (44_encode_decode.md R150). -/
def State.unframe (s : State) : CmdResult :=
  if s.uterm then .done s
  else if s.ucnt.toNat < 7 then .done s.shiftIn
  else if s.shiftedAcc = 0 then .done s.endMessage
  else if s.inst.msgoutMax ≤ s.uout.toNat then .raise .outputOverflow s.uout.toNat s.inst.msgoutMax s
  else .done s.storeByte

end Sys2Proof.Machine
end

