-- ==== Sys2Proof/Machine/Flags.lean ====
section
/-! DEFINITION. The `STATUS` word (10_state.md R26) and its two computed flags (R23). -/

namespace Sys2Proof.Machine

/-- The code of `STATUS.STATE`. -/
def Mode.code : Mode → BitVec 2
  | .idle => 0
  | .busy => 1
  | .error => 2

/-- The code of `STATUS.STOPC`. -/
def StopCause.code : StopCause → BitVec 3
  | .none => 0
  | .terminator => 1
  | .length => 2
  | .blocks => 3

/-- `STATUS.BEND`, computed at each read: the block iterator is exhausted. -/
def State.bend (s : State) : Bool := decide (s.nblk ≤ s.bidx.toNat)

/-- `STATUS.FEND`, computed at each read: the framer has delivered every bit. -/
def State.fend (s : State) : Bool := decide (s.lbits ≤ s.fpos.toNat)

/-- What a read of `STATUS` returns. -/
def State.statusWord (s : State) : Word :=
  0#21 ++ s.stopc.code ++ 0#1 ++ BitVec.ofBool s.uterm ++ BitVec.ofBool s.fend ++ BitVec.ofBool s.bend ++
    BitVec.ofBool s.hzd ++ BitVec.ofBool s.done ++ s.mode.code

end Sys2Proof.Machine
end

