-- ==== Sys2Proof/Machine/Blocks.lean ====
section
/-! DEFINITION. Unit U4, the block iterator (41_block_iterator.md). -/

namespace Sys2Proof.Machine

/-- R114. -/
def execBlkrst (s : State) : Host.Outcome State Fault Refusal := (CmdResult.done (s.setBidx 0)).finish

/-- R113: saturates at `NBLK`. -/
def execBlknext (s : State) : Host.Outcome State Fault Refusal :=
  (CmdResult.done (if s.bidx.toNat < s.nblk then s.setBidx (s.bidx + 1) else s)).finish

/-- The two tests of `LDBLK` and `STBLK`, in their order (R115, R116, 60_exceptions.md R173), before `body`. -/
def State.withBlock (s : State) (body : State → State) : CmdResult :=
  if s.imageTooLarge then .raise .badConfig 1 0 s
  else if s.nblk ≤ s.bidx.toNat then .raise .blockRange s.bidx.toNat s.nblk s
  else .done (body s)

/-- R115. -/
def execLdblk (s : State) : Host.Outcome State Fault Refusal := (s.withBlock State.loadBlock).finish

/-- R116. -/
def execStblk (s : State) : Host.Outcome State Fault Refusal := (s.withBlock State.storeBlock).finish

end Sys2Proof.Machine
end

