-- ==== Sys2Proof/Machine/Carrier.lean ====
section
/-! DEFINITION. Units U2 and U3, the embedder and the extractor (42_embed_extract.md). -/

namespace Sys2Proof.Machine

/-- R122. -/
def execEmbed (s : State) : Host.Outcome State Fault Refusal :=
  (if s.alphaNotPositive then CmdResult.raise .badConfig 3 0 s else CmdResult.done s.embedBit).finish

/-- R124. -/
def execExtract (s : State) : Host.Outcome State Fault Refusal := (CmdResult.done s.extractBit).finish

end Sys2Proof.Machine
end

