-- ==== Sys2Proof/Machine/Framer.lean ====
section
/-! DEFINITION. Unit U5, the bitstream framer and its inverse (43_framer.md). -/

namespace Sys2Proof.Machine

/-- R133. -/
def execFrmrst (s : State) : Host.Outcome State Fault Refusal := (CmdResult.done (s.setFpos 0)).finish

/-- R134. -/
def execFrmget (s : State) : Host.Outcome State Fault Refusal :=
  (if s.messageTooLong then CmdResult.raise .badConfig 2 0 s
   else if s.lbits ≤ s.fpos.toNat then CmdResult.raise .frameExhausted s.fpos.toNat s.lbits s
   else CmdResult.done s.takeFrameBit).finish

/-- R136. -/
def execUnfrst (s : State) : Host.Outcome State Fault Refusal := (CmdResult.done s.restartUnframer).finish

/-- R137. -/
def execUnfput (s : State) : Host.Outcome State Fault Refusal := s.unframe.finish

end Sys2Proof.Machine
end

