-- ==== Sys2Proof/Machine/System.lean ====
section
/-! DEFINITION. The system commands (45_system.md). They are immediate: their whole effect is here, and the `CMD` write
performs it (Machine/HostPort.lean). -/

namespace Sys2Proof.Machine

/-- R160: no state change at all. -/
def execNop (s : State) : Host.Outcome State Fault Refusal := .next s

/-- R161: leave the error state. -/
def execClrerr (s : State) : Host.Outcome State Fault Refusal := .next s.leaveError

/-- R162: every register takes its reset value, the memories keep theirs. -/
def execSreset (s : State) : Host.Outcome State Fault Refusal := .next s.resetRegisters

end Sys2Proof.Machine
end

