-- ==== Sys2Proof/Machine/TopLevel.lean ====
section
/-! DEFINITION. The top-level sequences (44_encode_decode.md). Each is one atomic state change (20_memory.md R71), and
the sequential loop defines its result (R155). -/

namespace Sys2Proof.Machine

/-- One iteration of the loop of `ENCODE` (R146): one framed bit into one block. -/
def State.encodeBlock (s : State) : State :=
  s.takeFrameBit.loadBlock.forward.embedBit.inverse.storeBlock.setBidx (s.bidx + 1)

/-- The loop of `ENCODE`: exactly that many iterations. -/
def State.encodeBlocks : Nat → State → State
  | 0, s => s
  | n + 1, s => State.encodeBlocks n s.encodeBlock

/-- The rule of `ENCODE` (R146): all four tests come before the first state change. -/
def State.encodeRule (s : State) : CmdResult :=
  if s.imageTooLarge then .raise .badConfig 1 0 s
  else if s.messageTooLong then .raise .badConfig 2 0 s
  else if s.alphaNotPositive then .raise .badConfig 3 0 s
  else if s.nblk < s.lbits then .raise .insufficientCapacity s.lbits s.nblk s
  else .done (State.encodeBlocks s.lbits ((s.setBidx 0).setFpos 0))

/-- R146. -/
def execEncode (s : State) : Host.Outcome State Fault Refusal := s.encodeRule.finish

/-- `limit` of R150: the explicit length is an upper bound on the bits consumed (R153). -/
def State.decodeLimit (s : State) : Nat := if s.expen then min s.explen.toNat s.nblk else s.nblk

/-- `STOPC <- c`, `OUTLEN <- n`. -/
def State.setOutcome (s : State) (c : StopCause) (n : Word) : State := { s with stopc := c, outlen := n }

/-- The exit of the loop of `DECODE` at a terminator (R150). -/
def State.stopAtTerminator (s : State) : CmdResult := .done (s.setOutcome .terminator s.uout)

/-- The exit of the loop of `DECODE` when no bit is left (R150). -/
def State.stopAtLimit (s : State) : CmdResult :=
  if s.expen then
    .done (s.setOutcome (if s.explen.toNat ≤ s.nblk then .length else .blocks) s.uout)
  else .raise .terminatorNotFound s.nblk s.uout.toNat s

/-- The loop of `DECODE` (R150) with that many bits left before the limit. -/
def State.decodeBlocks : Nat → State → CmdResult
  | 0, s => if s.uterm then s.stopAtTerminator else s.stopAtLimit
  | n + 1, s =>
    if s.uterm then s.stopAtTerminator
    else
      match s.loadBlock.forward.extractBit.unframe with
      | .raise e i0 i1 t => .raise e i0 i1 t
      | .done t => State.decodeBlocks n (t.setBidx (t.bidx + 1))

/-- The rule of `DECODE` (R150). `ALPHA` is not read (42_embed_extract.md R125). -/
def State.decodeRule (s : State) : CmdResult :=
  if s.imageTooLarge then .raise .badConfig 1 0 (s.setOutcome .none 0)
  else State.decodeBlocks s.decodeLimit ((s.setOutcome .none 0).setBidx 0).restartUnframer

/-- R150. -/
def execDecode (s : State) : Host.Outcome State Fault Refusal := s.decodeRule.finish

end Sys2Proof.Machine
end

