-- ==== Sys2Proof/Machine/Transform.lean ====
section
/-! DEFINITION. Unit U1, the transform (40_transform.md): `FDCT` and `IDCT`. Neither raises an error (R109). -/

namespace Sys2Proof.Machine

/-- R102. -/
def execFdct (s : State) : Host.Outcome State Fault Refusal := (CmdResult.done s.forward).finish

/-- R104. -/
def execIdct (s : State) : Host.Outcome State Fault Refusal := (CmdResult.done s.inverse).finish

end Sys2Proof.Machine
end

