-- ==== Sys2Proof/Machine/Dispatch.lean ====
section
/-! DEFINITION. The meaning of each command, one arm per constructor: for an immediate command its whole effect, for a
deferred one the effect of its `Complete` step (20_memory.md R70, R71). -/

namespace Sys2Proof.Machine

def exec (i : Instr) (s : State) : Host.Outcome State Fault Refusal :=
  match i with
  | .nop => Sys2Proof.Machine.execNop s
  | .clrerr => Sys2Proof.Machine.execClrerr s
  | .sreset => Sys2Proof.Machine.execSreset s
  | .fdct => Sys2Proof.Machine.execFdct s
  | .idct => Sys2Proof.Machine.execIdct s
  | .embed => Sys2Proof.Machine.execEmbed s
  | .extract => Sys2Proof.Machine.execExtract s
  | .blkrst => Sys2Proof.Machine.execBlkrst s
  | .blknext => Sys2Proof.Machine.execBlknext s
  | .ldblk => Sys2Proof.Machine.execLdblk s
  | .stblk => Sys2Proof.Machine.execStblk s
  | .frmrst => Sys2Proof.Machine.execFrmrst s
  | .frmget => Sys2Proof.Machine.execFrmget s
  | .unfrst => Sys2Proof.Machine.execUnfrst s
  | .unfput => Sys2Proof.Machine.execUnfput s
  | .encode => Sys2Proof.Machine.execEncode s
  | .decode => Sys2Proof.Machine.execDecode s

end Sys2Proof.Machine
end

