-- ==== Sys2Proof/Machine/HostPort.lean ====
section
/-! DEFINITION. The host interface (20_memory.md R64 to R74, 10_state.md R24 to R47): reads and writes of cells, the
write to `CMD` (30_encoding.md R88), the engine's `Complete` step (R70), and the reset pin (70_reset_and_hazards.md
R190, R191). -/

namespace Sys2Proof.Machine

/-- The number of cells of a space (R44). -/
def Space.size (p : Inst) : Space → Nat
  | .reg => 64
  | .sreg => 192
  | .img => p.imgMax
  | .msgin => p.msginMax
  | .msgout => p.msgoutMax

/-! ### Reads -/

/-- What a read of `REG` offset `i` returns (R24 to R43). Offsets 0x16 to 0x3F are reserved and read 0, as does `CMD`. -/
def State.regAt (s : State) (i : Nat) : Word :=
  match i with
  | 0x01 => s.statusWord
  | 0x02 => s.err.setWidth 32
  | 0x03 => s.errinfo0
  | 0x04 => s.errinfo1
  | 0x05 => (BitVec.ofBool s.expen).setWidth 32
  | 0x06 => s.width.setWidth 32
  | 0x07 => s.height.setWidth 32
  | 0x08 => s.msglen.setWidth 32
  | 0x09 => s.explen
  | 0x0A => s.bidx
  | 0x0B => BitVec.ofNat 32 s.nblk
  | 0x0C => (BitVec.ofBool s.bit).setWidth 32
  | 0x0D => s.fpos
  | 0x0E => BitVec.ofNat 32 s.lbits
  | 0x0F => s.uacc.setWidth 32
  | 0x10 => s.ucnt.setWidth 32
  | 0x11 => s.ubits
  | 0x12 => s.uout
  | 0x13 => s.outlen
  | 0x14 => 8
  | 0x15 => BitVec.ofNat 32 (s.inst.cu.val * 16 + s.inst.cv.val)
  | _ => 0

/-- What a read of `SREG` cell `i` returns (R30 to R32, R44). Cells 1 to 63 are reserved and read `S` zero. -/
def State.sregAt (s : State) (i : Nat) : Sample :=
  if i = 0 then s.alpha
  else if 64 ≤ i ∧ i < 128 then s.blk[i - 64]?.getD s.num.zero
  else if 128 ≤ i ∧ i < 192 then s.coef[i - 128]?.getD s.num.zero
  else s.num.zero

/-- What a cell holds. -/
def State.cellAt (s : State) (sp : Space) (i : Nat) : ReadData :=
  match sp with
  | .reg => .word (s.regAt i)
  | .sreg => .sample (s.sregAt i)
  | .img => .sample (s.imgAt i)
  | .msgin => .byte (s.msginAt i)
  | .msgout => .byte (s.msgoutAt i)

/-- An unspecified value of the type of a space's cells (93_implementation_defined.md U3, U5). -/
def State.freeData (s : State) (sp : Space) : ReadData :=
  match sp with
  | .reg => .word (Config.freeWord s.inst.chip s.draws)
  | .sreg => .sample (Config.freeSample s.inst.chip s.draws)
  | .img => .sample (Config.freeSample s.inst.chip s.draws)
  | .msgin => .byte (Config.freeByte s.inst.chip s.draws)
  | .msgout => .byte (Config.freeByte s.inst.chip s.draws)

/-- The bus returns a defined value. -/
def State.returnCell (s : State) (sp : Space) (i : Nat) : State := { s with rdata := some (s.cellAt sp i) }

/-- The bus returns an unspecified value. -/
def State.returnFree (s : State) (sp : Space) : State :=
  { s with rdata := some (s.freeData sp), draws := s.draws + 1 }

/-- `STATUS.HZD <- 1` (R74). -/
def State.hazard (s : State) : State := { s with hzd := true }

/-- `HRead(sp, i)`: R64 outside the space, R74 while `BUSY`, else the cell's value and no side effect (R65). -/
def State.hostRead (s : State) (sp : Space) (i : Nat) : State :=
  if i < sp.size s.inst then
    if s.mode = .busy ∧ ¬(sp = .reg ∧ i = 0x01) then s.hazard.returnFree sp else s.returnCell sp i
  else s.returnFree sp

/-! ### Writes -/

/-- What a write of `w` to `REG` offset `i` other than `CMD` stores (R29, R33 to R37). Every other offset is read-only or
reserved and ignores it (R24). -/
def State.storeReg (s : State) (i : Nat) (w : Word) : State :=
  match i with
  | 0x05 => { s with expen := w.getLsbD 0 }
  | 0x06 => { s with width := w.setWidth 16 }
  | 0x07 => { s with height := w.setWidth 16 }
  | 0x08 => { s with msglen := w.setWidth 28 }
  | 0x09 => { s with explen := w }
  | 0x0A => { s with bidx := w }
  | 0x0C => { s with bit := w.getLsbD 0 }
  | _ => s

/-- What a write of `v` to `SREG` cell `i` stores (R30 to R32). Cells 1 to 63 are reserved and ignore it (R44). -/
def State.storeSreg (s : State) (i : Nat) (v : Sample) : State :=
  if i = 0 then { s with alpha := v }
  else if 64 ≤ i ∧ i < 128 then { s with blk := s.blk.setIfInBounds (i - 64) v }
  else if 128 ≤ i ∧ i < 192 then { s with coef := s.coef.setIfInBounds (i - 128) v }
  else s

/-- `HWrite` to cell `i` of a space with effect `store`: R64 outside the space, R74 while `BUSY`. -/
def State.hostWrite (s : State) (sp : Space) (i : Nat) (store : State → State) : State :=
  if i < sp.size s.inst then
    if s.mode = .busy then s.hazard else store s
  else s

/-! ### The `CMD` write -/

/-- A deferred command is accepted (R88). -/
def State.accept (s : State) (op : BitVec 8) : State := { s with done := false, pend := some op, mode := .busy }

/-- An illegal word is offered in `IDLE` (R88, R89): error entry at once, without a `BUSY` phase. -/
def State.rejectWord (s : State) (w : Word) : State := s.enterError .illegalCommand w.toNat 0

/-- `HWrite(REG, 0x00, w)`, R88. -/
def commandWrite (w : Word) (s : State) : Host.Outcome State Fault Refusal :=
  match s.mode with
  | .busy => .next s.hazard
  | .error =>
    match decodeWord w with
    | .ok i => if i.immediate then exec i s else .next s
    | .error _ => .next s
  | .idle =>
    match decodeWord w with
    | .ok i => if i.immediate then exec i s else .next (s.accept (opField w))
    | .error _ => .next (s.rejectWord w)

/-! ### The engine's step and the reset pin -/

/-- The deferred command in `PEND`, if it holds one. -/
def State.pending (s : State) : Option Instr :=
  match s.pend with
  | none => none
  | some op =>
    match decodeOpcode op with
    | none => none
    | some i => if i.immediate then none else some i

/-- `Complete` (R70): the rule of the command in `PEND`, applied to the state as it is now. -/
def completePending (s : State) : Host.Outcome State Fault Refusal :=
  match s.pending with
  | some i => exec i s
  | none => .fault .pendNotDeferred

/-- The state in which the running command would have ended. -/
def State.wouldEnd (s : State) : State :=
  match completePending s with
  | .next t => t
  | .fault _ => s
  | .refused _ => s

/-- What a reset while `BUSY` leaves in the memories: unspecified cells where the command could have written (R191). -/
def State.abandonCommand (s : State) : State :=
  { s with
    img := Mem.abandon (Config.landedImg s.inst.chip s.draws) s.img s.wouldEnd.img
    msgout := Mem.abandon (Config.landedMsgout s.inst.chip s.draws) s.msgout s.wouldEnd.msgout
    draws := s.draws + 1 }

/-- `rst_n` is asserted (R190, R191). -/
def State.resetPin (s : State) : State :=
  if s.mode = .busy then s.abandonCommand.resetRegisters else s.resetRegisters

/-- One event. The engine's turn does nothing when `Complete` is not enabled (R70). -/
def perform (e : Event) (s : State) : Host.Outcome State Fault Refusal :=
  match e with
  | .read sp i => .next (s.hostRead sp i)
  | .writeReg i w => if i = 0x00 then commandWrite w s else .next (s.hostWrite .reg i fun t => t.storeReg i w)
  | .writeSreg i v => .next (s.hostWrite .sreg i fun t => t.storeSreg i v)
  | .writeImg i v => .next (s.hostWrite .img i fun t => t.setImg i v)
  | .writeMsgin i b => .next (s.hostWrite .msgin i fun t => t.setMsgin i b)
  | .writeMsgout i b => .next (s.hostWrite .msgout i fun t => t.setMsgout i b)
  | .engine => if s.mode = .busy then completePending s else .next s
  | .resetPin => .next s.resetPin

/-- One step: the next event of the agenda. Where the agenda is empty, a running command completes, since a `Complete`
step that stays enabled is eventually taken (70_reset_and_hazards.md R207), and an engine at rest stays as it is. -/
def stepAgenda (s : State) : Host.Outcome State Fault Refusal :=
  match s.agenda with
  | e :: rest => perform e { s with agenda := rest }
  | [] => if s.mode = .busy then completePending s else .next s

/-- The state in which the very next step runs the command of word `w`: for a deferred command the state just after its
acceptance, with the engine's turn next (R88, R70); for any other word the `CMD` write next, with no command running. -/
def State.present (s : State) (w : Word) : State :=
  match decodeWord w with
  | .ok i =>
    if i.immediate then
      { s with mode := if s.mode = .busy then .idle else s.mode, pend := none, agenda := .writeReg 0x00 w :: s.agenda }
    else { s.leaveError.accept (opField w) with agenda := .engine :: s.agenda }
  | .error _ =>
    { s with mode := if s.mode = .busy then .idle else s.mode, pend := none, agenda := .writeReg 0x00 w :: s.agenda }

end Sys2Proof.Machine
end

