-- ==== Sys2Proof/Machine/Step.lean ====
section
/-! DEFINITION. The step of the machine and the placing of a command (Machine/HostPort.lean does the work). -/

namespace Sys2Proof.Machine

/-- One step: one host access, one turn of the engine, or one assertion of the reset pin (20_memory.md R70). -/
def step (s : State) : Host.Outcome State Fault Refusal := stepAgenda s

/-- `s` with the command of word `w` placed so that the next step runs it (log 11). -/
def State.withFetchWord (s : State) (nbits w : Nat) : State := s.present (BitVec.ofNat 32 (w % 2 ^ nbits))

end Sys2Proof.Machine
end

