-- ==== Sys2Proof/Machine/Script.lean ====
section
/-! DEFINITION. The host script notation and the pseudo-commands (30_encoding.md R91, R92) as lists of events. -/

namespace Sys2Proof.Machine.Script

/-- `CMDW w`. -/
def cmdw (w : Word) : List Event := [.writeReg 0x00 w]

/-- `CMD mnemonic`. -/
def cmd (i : Instr) : List Event := cmdw (encode i)

/-- `WR name, value` for the register at an offset. -/
def wr (offset : Nat) (w : Word) : List Event := [.writeReg offset w]

/-- `RD name` for the register at an offset. -/
def rd (offset : Nat) : List Event := [.read .reg offset]

/-- `WAIT`: `STATUS` is read until it does not show `BUSY`. The engine completes after `polls` reads that show it. -/
def wait (polls : Nat) : List Event := List.replicate polls (.read .reg 0x01) ++ [.engine, .read .reg 0x01]

/-- `RUN m`. -/
def run (polls : Nat) (i : Instr) : List Event := cmd i ++ wait polls

/-- `LOADMSG`: the bytes to `MSGIN` in order, then their number to `MSGLEN`. -/
def loadMsg (bytes : List Byte) : List Event :=
  (bytes.mapIdx fun j b => .writeMsgin j b) ++ wr 0x08 (BitVec.ofNat 32 bytes.length)

/-- `LOADIMG W, H, f`. -/
def loadImg (w h : Nat) (f : Nat → Nat → Sample) : List Event :=
  wr 0x06 (BitVec.ofNat 32 w) ++ wr 0x07 (BitVec.ofNat 32 h) ++
    ((List.range h).flatMap fun y => (List.range w).map fun x => .writeImg (y * w + x) (f x y))

/-- `EMBEDBLK`. -/
def embedBlk (polls : Nat) : List Event := [Instr.ldblk, .fdct, .embed, .idct, .stblk].flatMap (run polls)

/-- `EXTRACTBLK`. -/
def extractBlk (polls : Nat) : List Event := [Instr.ldblk, .fdct, .extract].flatMap (run polls)

end Sys2Proof.Machine.Script
end

