-- ==== Sys2Proof/Safety.lean ====
section
/-! DEFINITION. What counts as a safe run, in the terms claims use: the invariant of reachable states (10_state.md R51), the
ownership rule (70_reset_and_hazards.md R198). -/

namespace Sys2Proof

namespace Machine

/-! ### The invariant -/

/-- What holds in every reachable state: R51, and what the spec says beside it of `ERR` (R166, R169, R176), `FPOS`
(R38), `PEND` (R48) and the unframer (R39, R40). -/
structure State.Inv (s : State) : Prop where
  inst_wf : s.inst.wf = true
  err_iff : s.err ≠ 0 ↔ s.mode = .error
  info_clear : s.err = 0 → s.errinfo0 = 0 ∧ s.errinfo1 = 0
  err_code : s.err.toNat ≤ 8 ∧ s.err ≠ 3
  busy_iff : s.mode = .busy ↔ s.pend ≠ none
  pend_deferred : s.mode = .busy → s.pending ≠ none
  done_idle : s.done = true → s.mode = .idle
  uacc_lt : s.uacc.toNat < 2 ^ s.ucnt.toNat
  uterm_clear : s.uterm = true → s.uacc = 0 ∧ s.ucnt = 0
  /-- Bits consumed: eight for each byte stored, the bits of the current byte, and the terminator's eight. -/
  ubits_eq : s.ubits = 8 * s.uout + s.ucnt.setWidth 32 + (if s.uterm then 8 else 0)
  uout_le : s.uout.toNat ≤ s.inst.msgoutMax
  outlen_le : s.outlen.toNat ≤ s.inst.msgoutMax
  fpos_le : s.fpos.toNat ≤ 2 ^ 31
  img_wf : Memory.wf s.inst.imgMax s.img = true
  msgin_wf : Memory.wf s.inst.msginMax s.msgin = true
  msgout_wf : Memory.wf s.inst.msgoutMax s.msgout = true

/-! ### The ownership rule -/

/-- The event is one that R198 allows in this state: while `BUSY` the host reads `STATUS` and nothing else. An access
that the engine does not decode (R64) is none. -/
def Event.respects (e : Event) (s : State) : Bool :=
  match e with
  | .read sp i => s.mode != .busy || (sp == .reg && i == 0x01) || decide (sp.size s.inst ≤ i)
  | .writeReg i _ => s.mode != .busy || decide (Space.reg.size s.inst ≤ i)
  | .writeSreg i _ => s.mode != .busy || decide (Space.sreg.size s.inst ≤ i)
  | .writeImg i _ => s.mode != .busy || decide (Space.img.size s.inst ≤ i)
  | .writeMsgin i _ => s.mode != .busy || decide (Space.msgin.size s.inst ≤ i)
  | .writeMsgout i _ => s.mode != .busy || decide (Space.msgout.size s.inst ≤ i)
  | .engine => true
  | .resetPin => true

end Machine
end Sys2Proof
end

