-- ==== Sys2Proof/Certificates/Slice0/Obligations.lean ====
section
/-! DEFINITION. The statements for the provers, and the few words in which they are said. Each docstring names the rule
of spec/ it comes from; what rests on a choice of the model names the log entry. -/

namespace Sys2Proof.Claims

open Sys2Proof Sys2Proof.Machine

/-- What an outcome of the machine is. -/
abbrev Out := Host.Outcome State Fault Refusal

/-- The state in which a deferred command ends with `done` after changing the state to `s` (R176). -/
def completed (s : State) : State := { s with mode := .idle, done := true, pend := none }

/-- The state in which a command ends with error code `code` after changing the state to `s` (R175). -/
def failed (s : State) (code : BitVec 8) (i0 i1 : Nat) : State :=
  { s with err := code, errinfo0 := BitVec.ofNat 32 i0, errinfo1 := BitVec.ofNat 32 i1
           mode := .error, done := false, pend := none }

/-- The cell of sample `(r, c)` of block `k` (R112), written out. -/
def cellOf (s : State) (k : Nat) (r c : Fin 8) : Nat :=
  (8 * (k / (s.width.toNat / 8)) + r.val) * s.width.toNat + 8 * (k % (s.width.toNat / 8)) + c.val

/-- Block `k` of the image in `IMG` (R45, R112). -/
def blockOf (s : State) (k : Nat) : Mat8 Sample := Mat8.of fun r c => s.imgAt (cellOf s k r c)

/-- The number of full blocks (R43), written out. -/
def capacity (s : State) : Nat := (s.width.toNat / 8) * (s.height.toNat / 8)

/-- The framed bit length (R43), written out. -/
def framedLength (s : State) : Nat := 8 * (s.msglen.toNat + 1)

/-- Bit `i` of the framed bitstream (R131), written out. -/
def framedBit (s : State) (i : Nat) : Bool :=
  if i < 8 * s.msglen.toNat then (s.msginAt (i / 8) >>> (7 - i % 8)) &&& 1#8 == 1#8 else false

/-- The image fits its memory. -/
def imageFits (s : State) : Prop := s.width.toNat * s.height.toNat ≤ s.inst.imgMax

/-- The message fits its memory. -/
def messageFits (s : State) : Prop := s.msglen.toNat ≤ s.inst.msginMax

/-- `ALPHA` is positive. -/
def alphaPositive (s : State) : Prop := s.inst.numerics.isPos s.alpha = true

/-- The coefficients of block `k` after bit `b` was embedded in its carrier (R121, R147). -/
def embeddedCoef (s : State) (k : Nat) (b : Bool) : Mat8 Sample :=
  let n := s.inst.numerics
  let c := n.fdct (blockOf s k)
  let v := n.add (n.abs (c.at s.inst.cu s.inst.cv)) s.alpha
  c.put s.inst.cu s.inst.cv (if b then v else n.neg v)

/-- The bit that block `k` carries (R121, R151). -/
def carriedBit (s : State) (k : Nat) : Bool :=
  s.inst.numerics.isNonneg ((s.inst.numerics.fdct (blockOf s k)).at s.inst.cu s.inst.cv)

/-- The byte of eight bits, the first the most significant (R61). -/
def byteOfBits (bits : List Bool) : Byte := bits.foldl (fun acc b => acc <<< 1 ||| (if b then 1#8 else 0#8)) 0

/-- The byte that blocks `8*j` to `8*j + 7` spell (R151). -/
def carriedByte (s : State) (j : Nat) : Byte := byteOfBits ((List.range 8).map fun b => carriedBit s (8 * j + b))

/-- `limit` of R150. -/
def bitLimit (s : State) : Nat := if s.expen then min s.explen.toNat (capacity s) else capacity s

/-- The complete groups of 8 of a bit list (R139). -/
def groupsOf8 : List Bool → List (List Bool)
  | a :: b :: c :: d :: e :: f :: g :: h :: rest => [a, b, c, d, e, f, g, h] :: groupsOf8 rest
  | _ => []

/-- The bytes that a bit list spells. -/
def spelled (bits : List Bool) : List Byte := (groupsOf8 bits).map byteOfBits

/-- The bytes before the first zero byte (R139). -/
def unframed (bits : List Bool) : List Byte := (spelled bits).takeWhile fun b => b != 0

/-- Whether a terminator byte occurs (R139). -/
def terminated (bits : List Bool) : Bool := (spelled bits).contains 0

/-- One command after another, as long as each answers a next state. -/
def execAll : List Instr → State → Out
  | [], s => .next s
  | i :: rest, s =>
    match exec i s with
    | .next t => execAll rest t
    | .fault f => .fault f
    | .refused r => .refused r

/-- `BIT <- s[i]; UNFPUT` for each bit of a list (R139). -/
def feed : List Bool → State → Out
  | [], s => .next s
  | b :: rest, s =>
    match exec .unfput { s with bit := b } with
    | .next t => feed rest t
    | .fault f => .fault f
    | .refused r => .refused r

/-- The host's loop of R152, with the loop condition evaluated at most `n` times. -/
def hostDecode (limit : Nat) : Nat → State → Out
  | 0, s => .next s
  | n + 1, s =>
    if s.uterm = false ∧ s.bidx.toNat < limit then
      match execAll [.ldblk, .fdct, .extract, .unfput, .blknext] s with
      | .next t => hostDecode limit n t
      | .fault f => .fault f
      | .refused r => .refused r
    else .next s

/-- The type of the data on the bus is that of the space's cells (R44). -/
def isCellOf : Space → ReadData → Prop
  | .reg, .word _ | .sreg, .sample _ | .img, .sample _ | .msgin, .byte _ | .msgout, .byte _ => True
  | _, _ => False

/-- The space and the index that a host write addresses. -/
def writeTarget : Event → Option (Space × Nat)
  | .writeReg i _ => some (.reg, i)
  | .writeSreg i _ => some (.sreg, i)
  | .writeImg i _ => some (.img, i)
  | .writeMsgin i _ => some (.msgin, i)
  | .writeMsgout i _ => some (.msgout, i)
  | .read _ _ | .engine | .resetPin => none

/-- Entry `T[k][n]` of R101, a real number. -/
noncomputable abbrev T : Fin 8 → Fin 8 → ℝ := Numerics.T

/-- Every sample of a block lies in the nominal range (R106). -/
def nominalBlock (p : Inst) (b : Mat8 Sample) : Prop := ∀ r c, p.nominal (b.at r c)

/-- The events that clear an error: the `CMD` write of `CLRERR` or of `SRESET`, and the reset pin (R177). -/
def clearsError : Event → Bool
  | .writeReg 0 w => w == 0x00000001#32 || w == 0x00000002#32
  | .resetPin => true
  | _ => false

end Sys2Proof.Claims

open Sys2Proof Sys2Proof.Machine Sys2Proof.Claims

/-! ### Command words -/

/-- R86: the 17 words of the table are the 17 commands. -/
def Obligations.OpcodeTableWordsDecode : Prop :=
  decodeWord 0x00000000#32 = .ok .nop ∧ decodeWord 0x00000001#32 = .ok .clrerr ∧
  decodeWord 0x00000002#32 = .ok .sreset ∧ decodeWord 0x00000010#32 = .ok .fdct ∧
  decodeWord 0x00000011#32 = .ok .idct ∧ decodeWord 0x00000020#32 = .ok .embed ∧
  decodeWord 0x00000021#32 = .ok .extract ∧ decodeWord 0x00000030#32 = .ok .blkrst ∧
  decodeWord 0x00000031#32 = .ok .blknext ∧ decodeWord 0x00000032#32 = .ok .ldblk ∧
  decodeWord 0x00000033#32 = .ok .stblk ∧ decodeWord 0x00000040#32 = .ok .frmrst ∧
  decodeWord 0x00000041#32 = .ok .frmget ∧ decodeWord 0x00000048#32 = .ok .unfrst ∧
  decodeWord 0x00000049#32 = .ok .unfput ∧ decodeWord 0x00000080#32 = .ok .encode ∧
  decodeWord 0x00000081#32 = .ok .decode

/-- R85, R86: decoding and encoding are inverse to each other, on every word and every (well-formed) command. -/
def Obligations.DecodeAndEncodeAreInverse : Prop :=
  ∀ (w : Word) (i : Instr), decodeWord w = .ok i ↔ (i.wellFormed = true ∧ w = encode i)

/-- R89: a word is a command exactly when `w[31:8] = 0` and `w[7:0]` is one of the 17 opcodes, and any other word offered
in `IDLE` raises `IllegalCommand` at once and changes nothing else. (That the error entry assigns `PEND` too is R175; that
it is assigned at this error also, where no command was accepted, is log 20, DEDUCED.) -/
def Obligations.IllegalWordsRaiseIllegalCommand : Prop :=
  ∀ w : Word,
    ((∃ i, decodeWord w = .ok i) ↔
      w.toNat / 256 = 0 ∧ w.toNat % 256 ∈ [0x00, 0x01, 0x02, 0x10, 0x11, 0x20, 0x21, 0x30, 0x31, 0x32, 0x33, 0x40, 0x41,
        0x48, 0x49, 0x80, 0x81]) ∧
    ∀ (s : State) (rest : List Event), s.mode = .idle → (¬∃ i, decodeWord w = .ok i) →
      step { s with agenda := .writeReg 0x00 w :: rest } =
        .next { s with agenda := rest, done := false, err := 4, errinfo0 := w, errinfo1 := 0, mode := .error, pend := none }

/-! ### Steps -/

/-- R70: where a deferred command is accepted and not completed, and the engine has its turn (or nothing else is due), the
step runs exactly that command. (That an empty agenda gives the engine its turn is the model's choice, log 3.) -/
def Obligations.StepRunsThePendingCommand : Prop :=
  ∀ (s : State) (i : Instr) (rest : List Event), i.wellFormed = true → i.immediate = false →
    s.mode = .busy → s.pend = some (opField (encode i)) →
      step { s with agenda := .engine :: rest } = exec i { s with agenda := rest } ∧
      step { s with agenda := [] } = exec i { s with agenda := [] }

/-- R88: what a write of a word to `CMD` does, by `STATE`. (That an illegal word leaves `PEND` at none is the error entry of
R175, applied to this error also: log 20, DEDUCED.) -/
def Obligations.CommandWriteFollowsTheAcceptanceTable : Prop :=
  ∀ (s : State) (w : Word) (rest : List Event),
    let o := step { s with agenda := .writeReg 0x00 w :: rest }
    let t := { s with agenda := rest }
    (s.mode = .busy → o = .next { t with hzd := true }) ∧
    (s.mode = .error →
      (w = 0x00000001#32 → o = exec .clrerr t) ∧ (w = 0x00000002#32 → o = exec .sreset t) ∧
      (w ≠ 0x00000001#32 → w ≠ 0x00000002#32 → o = .next t)) ∧
    (s.mode = .idle →
      ((¬∃ i, w = encode i) → o = .next { t with done := false, err := 4, errinfo0 := w, errinfo1 := 0, mode := .error, pend := none }) ∧
      (∀ i, w = encode i → i.immediate = true → o = exec i t) ∧
      (∀ i, w = encode i → i.immediate = false →
        o = .next { t with done := false, pend := some (w.setWidth 8), mode := .busy }))

/-- R71: for a host that lets the command finish before its next access, presenting a deferred command to an idle engine
and waiting has the effect of the command's rule on the state before; the host then sees the `STATUS` it left. -/
def Obligations.RunningACommandHasTheEffectOfItsRule : Prop :=
  ∀ (s : State) (i : Instr) (rest : List Event) (t : State), i.immediate = false → s.mode = .idle →
    exec i { s with agenda := rest } = .next t →
      core.run 3 { s with agenda := Script.run 0 i ++ rest } = .next { t with rdata := some (.word t.statusWord) }

/-- R14: in every state that meets the invariant, every step answers a next state. (The fault that the model has for other
states is its own, log 10.) -/
def Obligations.EveryStepAnswersANextState : Prop :=
  ∀ s : State, s.Inv → ∃ t, step s = .next t

/-- R50, R51: the state after reset meets the invariant, for every admitted instance. -/
def Obligations.ResetMeetsTheInvariant : Prop :=
  State.reset.Inv ∧ ∀ p : Inst, p.wf = true → (State.ofInst p).Inv

/-- R51, with what the spec says beside it of `ERR`, `FPOS`, `PEND` and the unframer: every step keeps the invariant. (The
canonical form of the memories and the admitted parameters are the model's own part of it, logs 1 and 4.) -/
def Obligations.EveryStepKeepsTheInvariant : Prop :=
  ∀ s t : State, s.Inv → step s = .next t → t.Inv

/-- R9, R49: no step changes the parameters of the instance. -/
def Obligations.NoStepChangesTheInstance : Prop :=
  ∀ s t : State, step s = .next t → t.inst = s.inst

/-- R207: a running command ends, whatever the host does meanwhile, once the events that are due have passed. (The
agenda, and that the engine has its turn where it is empty, are the model's form of fairness, log 3.) -/
def Obligations.RunningCommandEnds : Prop :=
  ∀ s : State, s.Inv → s.mode = .busy →
    ∃ k t, k ≤ s.agenda.length + 1 ∧ core.run k s = .next t ∧ t.mode ≠ .busy

/-! ### System commands -/

/-- R160: `NOP` changes nothing; while `BUSY` its write is dropped and sets `HZD`. -/
def Obligations.NopChangesNothing : Prop :=
  ∀ (s : State) (rest : List Event),
    exec .nop s = .next s ∧
    (s.mode ≠ .busy → step { s with agenda := .writeReg 0x00 0x00000000#32 :: rest } = .next { s with agenda := rest }) ∧
    (s.mode = .busy →
      step { s with agenda := .writeReg 0x00 0x00000000#32 :: rest } = .next { s with agenda := rest, hzd := true })

/-- R161: `CLRERR` leaves the error state and restores nothing. -/
def Obligations.ClrerrLeavesTheErrorState : Prop :=
  ∀ (s : State) (rest : List Event),
    exec .clrerr s = .next { s with err := 0, errinfo0 := 0, errinfo1 := 0, mode := .idle, done := false } ∧
    (s.mode ≠ .busy → step { s with agenda := .writeReg 0x00 0x00000001#32 :: rest } =
      .next { s with agenda := rest, err := 0, errinfo0 := 0, errinfo1 := 0, mode := .idle, done := false })

/-- R162: `SRESET` gives every register its reset value and keeps the memories; while `BUSY` it is dropped. -/
def Obligations.SresetResetsTheRegisters : Prop :=
  ∀ (s : State) (rest : List Event),
    let r : State :=
      { s with
        mode := .idle, done := false, hzd := false, uterm := false, stopc := .none, err := 0, errinfo0 := 0, errinfo1 := 0
        expen := false, width := 0, height := 0, msglen := 0, explen := 0, bidx := 0, bit := false, fpos := 0
        uacc := 0, ucnt := 0, ubits := 0, uout := 0, outlen := 0, pend := none
        alpha := s.inst.numerics.alphaReset
        blk := Mat8.of fun _ _ => s.inst.numerics.zero
        coef := Mat8.of fun _ _ => s.inst.numerics.zero }
    exec .sreset s = .next r ∧
    (s.mode ≠ .busy → step { s with agenda := .writeReg 0x00 0x00000002#32 :: rest } = .next { r with agenda := rest }) ∧
    (s.mode = .busy →
      step { s with agenda := .writeReg 0x00 0x00000002#32 :: rest } = .next { s with agenda := rest, hzd := true })

/-! ### U1, the transform -/

/-- R102: `FDCT` replaces `COEF` by the forward transform of `BLK`, in every instance and for any samples. -/
def Obligations.FdctReplacesTheCoefficients : Prop :=
  ∀ s : State, exec .fdct s = .next (completed { s with coef := s.inst.numerics.fdct s.blk })

/-- R104: `IDCT` replaces `BLK` by the inverse transform of `COEF`, in every instance and for any coefficients. R106 (NP1),
in every instance: after `FDCT` it gives a nominal block back within `EPS_S`, and exactly where `EPS_S` is 0. (The reading
of samples as numbers, and `EPS_S`: logs 2 and 17.) -/
def Obligations.IdctReplacesTheBlock : Prop :=
  ∀ s : State, exec .idct s = .next (completed { s with blk := s.inst.numerics.idct s.coef }) ∧
    (nominalBlock s.inst s.blk →
      ∃ t, execAll [.fdct, .idct] s = .next t ∧ ∀ r c, s.inst.near (t.blk.at r c) (s.blk.at r c))

/-- R102, R104, the corner cases in the reference instance: a constant block has the mean coefficient alone, a lone mean
coefficient gives a constant block, and each transform undoes the other. (What a sample is: log 2, the model's choice.) -/
def Obligations.ReferenceTransformCornerCases : Prop :=
  ∀ s t : State, s.inst.num = .reference →
    (exec .fdct s = .next t →
      (∀ m, (∀ r c, s.blk.at r c = m) →
        (t.coef.at 0 0).real = 8 * m.real ∧ ∀ u v, ¬(u = 0 ∧ v = 0) → t.coef.at u v = Reference.num.zero) ∧
      (exec .idct t = .next (completed t))) ∧
    (exec .idct s = .next t →
      ((∀ u v, ¬(u = 0 ∧ v = 0) → s.coef.at u v = Reference.num.zero) →
        ∀ r c, (t.blk.at r c).real = (s.coef.at 0 0).real / 8) ∧
      (exec .fdct t = .next (completed t)))

/-- R12, R101, R103: the transforms of the reference instance are the orthonormal two-dimensional DCT and its inverse, and
its other members are the operations of the real numbers, all without error. (That a sample is a linear form over real
numbers of which nothing is known is the model's choice, log 2.) -/
def Obligations.ReferenceTransformIsTheOrthonormalDct : Prop :=
  (∀ m : Mat8 Sample, ∀ i j : Fin 8,
    ((Reference.num.fdct m).at i j).real = ∑ r, ∑ c, T i r * (m.at r c).real * T j c ∧
    ((Reference.num.idct m).at i j).real = ∑ u, ∑ v, T u i * (m.at u v).real * T v j) ∧
  ∀ v w : Sample,
    (Reference.num.add v w).real = v.real + w.real ∧ (Reference.num.neg v).real = -v.real ∧
    (Reference.num.abs v).real = |v.real| ∧
    (Reference.num.isPos v = true ↔ 0 < v.real) ∧ (Reference.num.isNonneg v = true ↔ 0 ≤ v.real)

/-- R105: the matrix `T` is orthogonal, the transforms are inverse to each other and linear, they preserve energy, and
the order of rows and columns does not matter. (What a sample is: log 2, the model's choice.) -/
def Obligations.ReferenceTransformLaws : Prop :=
  (∀ k m : Fin 8, ∑ n, T k n * T m n = if k = m then 1 else 0) ∧
  (∀ b, Reference.num.idct (Reference.num.fdct b) = b ∧ Reference.num.fdct (Reference.num.idct b) = b) ∧
  (∀ (x y : ℝ) (b b1 b2 : Mat8 Sample), (∀ r c, (b.at r c).real = x * (b1.at r c).real + y * (b2.at r c).real) →
    ∀ u v,
      ((Reference.num.fdct b).at u v).real =
        x * ((Reference.num.fdct b1).at u v).real + y * ((Reference.num.fdct b2).at u v).real ∧
      ((Reference.num.idct b).at u v).real =
        x * ((Reference.num.idct b1).at u v).real + y * ((Reference.num.idct b2).at u v).real) ∧
  (∀ b, ∑ u, ∑ v, ((Reference.num.fdct b).at u v).real ^ 2 = ∑ r, ∑ c, (b.at r c).real ^ 2) ∧
  (∀ b u v,
    ((Reference.num.fdct b).at u v).real = ∑ r, T u r * ∑ c, (b.at r c).real * T v c ∧
    ((Reference.num.fdct b).at u v).real = ∑ c, (∑ r, T u r * (b.at r c).real) * T v c)

/-- R108: changing one coefficient by `d` changes every sample by `d·T[CU][r]·T[CV][c]`, which is at most `|d|/4` in
magnitude where neither index is 0. (What a sample is: log 2, the model's choice.) -/
def Obligations.OneCoefficientMovesEverySample : Prop :=
  ∀ (c c' : Mat8 Sample) (cu cv : Fin 8) (d : ℝ),
    (c'.at cu cv).real = (c.at cu cv).real + d → (∀ u v, ¬(u = cu ∧ v = cv) → c'.at u v = c.at u v) →
    ∀ r q,
      ((Reference.num.idct c').at r q).real = ((Reference.num.idct c).at r q).real + d * T cu r * T cv q ∧
      (cu ≠ 0 → cv ≠ 0 →
        |((Reference.num.idct c').at r q).real - ((Reference.num.idct c).at r q).real| ≤ |d| / 4)

/-! ### U2 and U3, the embedder and the extractor -/

/-- R122: `EMBED` forces the carrier coefficient to the polarity of `BIT` and writes nothing else; where `ALPHA` is not
positive it raises `BadConfig(3)` with no other effect. -/
def Obligations.EmbedForcesTheCarrier : Prop :=
  ∀ s : State,
    let n := s.inst.numerics
    let c := s.coef.at s.inst.cu s.inst.cv
    (n.isPos s.alpha = true →
      ∃ m : Mat8 Sample, exec .embed s = .next (completed { s with coef := m }) ∧
        m.at s.inst.cu s.inst.cv = (if s.bit then n.add (n.abs c) s.alpha else n.neg (n.add (n.abs c) s.alpha)) ∧
        ∀ u v, ¬(u = s.inst.cu ∧ v = s.inst.cv) → m.at u v = s.coef.at u v) ∧
    (n.isPos s.alpha = false → exec .embed s = .next (failed s 5 3 0))

/-- R124: `EXTRACT` reads the sign of the carrier coefficient, for any content of `COEF`. -/
def Obligations.ExtractReadsTheSign : Prop :=
  ∀ s : State, exec .extract s =
    .next (completed { s with bit := s.inst.numerics.isNonneg (s.coef.at s.inst.cu s.inst.cv) })

/-- R121, R127: in the reference instance the embedded carrier is `|c| + alpha` with the sign of the bit, and the bit is
read back, directly and after the passage through the block (`IDCT` then `FDCT`), for every positive `ALPHA`; in every
instance (NP2) a bit embedded in a nominal block is read back after that passage, for a strength in the range of R8 with
which `EMBED` runs. (What a sample is, and its reading as a number: logs 2 and 17, the model's choice.) -/
def Obligations.EmbeddedBitIsExtracted : Prop :=
  (∀ s : State, s.inst.num = .reference → 0 < s.alpha.real →
    ∃ t u w, execAll [.embed] s = .next t ∧
      (t.coef.at s.inst.cu s.inst.cv).real =
        (if s.bit then 1 else -1) * (|(s.coef.at s.inst.cu s.inst.cv).real| + s.alpha.real) ∧
      execAll [.extract] t = .next u ∧ u.bit = s.bit ∧
      execAll [.idct, .fdct, .extract] t = .next w ∧ w.bit = s.bit) ∧
  ∀ s : State, nominalBlock s.inst s.blk → s.inst.safeAlpha s.alpha → alphaPositive s →
    ∃ w, execAll [.fdct, .embed, .idct, .fdct, .extract] s = .next w ∧ w.bit = s.bit

/-- R128: `n` embeddings of the same bit move the carrier outward `n` times. (What a sample is: log 2, the model's choice.) -/
def Obligations.RepeatedEmbeddingAddsAlphaEachTime : Prop :=
  ∀ (s : State) (n : Nat), s.inst.num = .reference → 0 < s.alpha.real →
    ∃ t, execAll (List.replicate (n + 1) .embed) s = .next t ∧
      (t.coef.at s.inst.cu s.inst.cv).real =
        (if s.bit then 1 else -1) * (|(s.coef.at s.inst.cu s.inst.cv).real| + (n + 1) * s.alpha.real)

/-- R125: `EXTRACT` and `DECODE` do the same for every content of `ALPHA`, and keep it. -/
def Obligations.ExtractAndDecodeIgnoreAlpha : Prop :=
  ∀ (s : State) (a : Sample) (i : Instr), i = .extract ∨ i = .decode →
    ∃ t, exec i s = .next t ∧ exec i { s with alpha := a } = .next { t with alpha := a }

/-! ### U4, the block iterator -/

/-- R112: every sample of every full block lies inside the image, and different triples have different addresses; the
addresses that the commands use are these. -/
def Obligations.BlockAddressesAreInsideAndDisjoint : Prop :=
  ∀ (s : State) (k k' : Nat) (r c r' c' : Fin 8), k < capacity s → k' < capacity s →
    s.bidx.toNat = k →
    s.sampleAddr r c = cellOf s k r c ∧
    cellOf s k r c < s.width.toNat * s.height.toNat ∧
    (cellOf s k r c = cellOf s k' r' c' → k = k' ∧ r = r' ∧ c = c')

/-- R114: `BLKRST` sets `BIDX` to 0. -/
def Obligations.BlkrstRestartsTheSequence : Prop :=
  ∀ s : State, exec .blkrst s = .next (completed { s with bidx := 0 })

/-- R113: `BLKNEXT` advances `BIDX` by one below `NBLK` and leaves it otherwise, without wrapping. -/
def Obligations.BlknextAdvancesAndSaturates : Prop :=
  ∀ s : State, ∃ k : Word, exec .blknext s = .next (completed { s with bidx := k }) ∧
    (s.bidx.toNat < capacity s → k.toNat = s.bidx.toNat + 1) ∧ (capacity s ≤ s.bidx.toNat → k = s.bidx)

/-- R115: `LDBLK` copies block `BIDX` of the image, or raises `BadConfig(1)`, or `BlockRange`, with no other effect. -/
def Obligations.LdblkLoadsTheBlock : Prop :=
  ∀ s : State,
    (¬imageFits s → exec .ldblk s = .next (failed s 5 1 0)) ∧
    (imageFits s → capacity s ≤ s.bidx.toNat →
      exec .ldblk s = .next (failed s 6 s.bidx.toNat (capacity s))) ∧
    (imageFits s → s.bidx.toNat < capacity s →
      ∃ b : Mat8 Sample, exec .ldblk s = .next (completed { s with blk := b }) ∧
        ∀ r c, b.at r c = s.imgAt (cellOf s s.bidx.toNat r c))

/-- R116, R117: `STBLK` stores the 64 values of `BLK` exactly as they are into block `BIDX`, and changes no other cell; or
it raises the errors of `LDBLK` with no other effect. After `LDBLK` it leaves the image as it was. -/
def Obligations.StblkStoresTheBlock : Prop :=
  ∀ s : State,
    (¬imageFits s → exec .stblk s = .next (failed s 5 1 0)) ∧
    (imageFits s → capacity s ≤ s.bidx.toNat →
      exec .stblk s = .next (failed s 6 s.bidx.toNat (capacity s))) ∧
    (imageFits s → s.bidx.toNat < capacity s →
      ∃ m, exec .stblk s = .next (completed { s with img := m }) ∧
        (∀ r c, { s with img := m }.imgAt (cellOf s s.bidx.toNat r c) = s.blk.at r c) ∧
        (∀ a, (∀ r c, a ≠ cellOf s s.bidx.toNat r c) → { s with img := m }.imgAt a = s.imgAt a)) ∧
    (imageFits s → s.bidx.toNat < capacity s →
      ∃ t, execAll [.ldblk, .stblk] s = .next t ∧ ∀ a, t.imgAt a = s.imgAt a)

/-! ### U5, the framer -/

/-- R133: `FRMRST` sets `FPOS` to 0. -/
def Obligations.FrmrstRestartsFraming : Prop :=
  ∀ s : State, exec .frmrst s = .next (completed { s with fpos := 0 })

/-- R131, R134: `FRMGET` delivers the framed bit at `FPOS` and moves on, or raises `BadConfig(2)`, or `FrameExhausted`, with
no other effect. -/
def Obligations.FrmgetDeliversTheFramedBit : Prop :=
  ∀ s : State,
    (¬messageFits s → exec .frmget s = .next (failed s 5 2 0)) ∧
    (messageFits s → framedLength s ≤ s.fpos.toNat →
      exec .frmget s = .next (failed s 7 s.fpos.toNat (framedLength s))) ∧
    (messageFits s → s.fpos.toNat < framedLength s →
      exec .frmget s = .next (completed { s with bit := framedBit s s.fpos.toNat, fpos := s.fpos + 1 }) ∧
      (s.fpos + 1).toNat = s.fpos.toNat + 1)

/-- R136: `UNFRST` clears the unframer and leaves `MSGOUT`, `OUTLEN` and `STOPC`. -/
def Obligations.UnfrstRestartsUnframing : Prop :=
  ∀ s : State, exec .unfrst s =
    .next (completed { s with uacc := 0, ucnt := 0, ubits := 0, uout := 0, uterm := false })

/-- R137, R138: `UNFPUT` consumes the bit in `BIT`. -/
def Obligations.UnfputConsumesTheBit : Prop :=
  ∀ s : State,
    let acc : Byte := s.uacc <<< 1 ||| (if s.bit then 1#8 else 0#8)
    (s.uterm = true → exec .unfput s = .next (completed s)) ∧
    (s.uterm = false → s.ucnt.toNat < 7 →
      exec .unfput s = .next (completed { s with uacc := acc, ucnt := s.ucnt + 1, ubits := s.ubits + 1 })) ∧
    (s.uterm = false → s.ucnt.toNat = 7 → acc = 0 →
      exec .unfput s = .next (completed { s with uterm := true, uacc := 0, ucnt := 0, ubits := s.ubits + 1 })) ∧
    (s.uterm = false → s.ucnt.toNat = 7 → acc ≠ 0 → s.inst.msgoutMax ≤ s.uout.toNat →
      exec .unfput s = .next (failed s 8 s.uout.toNat s.inst.msgoutMax)) ∧
    (s.uterm = false → s.ucnt.toNat = 7 → acc ≠ 0 → s.uout.toNat < s.inst.msgoutMax →
      ∃ m, exec .unfput s =
          .next (completed { s with msgout := m, uout := s.uout + 1, uacc := 0, ucnt := 0, ubits := s.ubits + 1 }) ∧
        { s with msgout := m }.msgoutAt s.uout.toNat = acc ∧
        ∀ a, a ≠ s.uout.toNat → { s with msgout := m }.msgoutAt a = s.msgoutAt a)

/-- R139: from the state after `UNFRST`, feeding a bit list ends with the bytes before its first zero byte in `MSGOUT`, and
the unframer's registers tell where it stands. -/
def Obligations.UnframerComputesUnframe : Prop :=
  ∀ (s : State) (bits : List Bool), (unframed bits).length ≤ s.inst.msgoutMax → s.inst.msgoutMax < 2 ^ 32 →
    ∃ t, feed bits { s with uacc := 0, ucnt := 0, ubits := 0, uout := 0, uterm := false } = .next t ∧
      t.uout.toNat = (unframed bits).length ∧
      (∀ (j : Nat) (h : j < (unframed bits).length), t.msgoutAt j = (unframed bits)[j]) ∧
      (∀ a, (unframed bits).length ≤ a → t.msgoutAt a = s.msgoutAt a) ∧
      t.uterm = terminated bits ∧
      (terminated bits = false → t.ucnt.toNat = bits.length % 8) ∧
      t.ubits = BitVec.ofNat 32 (if terminated bits then 8 * ((unframed bits).length + 1) else bits.length)

/-- R140: unframing the framed message gives the longest prefix of the message that has no zero byte, and stops at a
terminator, with the framer and the unframer run bit by bit. -/
def Obligations.FramerRoundTrip : Prop :=
  ∀ (s : State) (z : Nat), s.inst.wf = true → messageFits s → z ≤ s.msglen.toNat → z ≤ s.inst.msgoutMax →
    (∀ j, j < z → s.msginAt j ≠ 0) → (z < s.msglen.toNat → s.msginAt z = 0) →
    ∃ t, execAll ([.frmrst, .unfrst] ++ (List.replicate (framedLength s) [Instr.frmget, .unfput]).flatten) s = .next t ∧
      t.uterm = true ∧ t.uout.toNat = z ∧ (∀ j, j < z → t.msgoutAt j = s.msginAt j) ∧
      t.fpos.toNat = framedLength s ∧ t.mode = .idle

/-! ### The top-level sequences -/

/-- R146, R158, R167, R173: `ENCODE` makes its four tests in order before the first state change, and succeeds exactly when
the framed message is no longer than the number of blocks. -/
def Obligations.EncodeTestsBeforeItWrites : Prop :=
  ∀ s : State,
    (¬imageFits s → exec .encode s = .next (failed s 5 1 0)) ∧
    (imageFits s → ¬messageFits s → exec .encode s = .next (failed s 5 2 0)) ∧
    (imageFits s → messageFits s → ¬alphaPositive s → exec .encode s = .next (failed s 5 3 0)) ∧
    (imageFits s → messageFits s → alphaPositive s →
      (capacity s < framedLength s → exec .encode s = .next (failed s 1 (framedLength s) (capacity s))) ∧
      (framedLength s ≤ capacity s → ∃ t, exec .encode s = .next t ∧ t.mode = .idle ∧ t.done = true))

/-- R147: what `ENCODE` leaves behind. -/
def Obligations.EncodeRewritesTheFramedBlocks : Prop :=
  ∀ s : State, imageFits s → messageFits s → alphaPositive s → framedLength s ≤ capacity s →
    let last := framedLength s - 1
    ∃ m, exec .encode s = .next (completed { s with
        img := m, bidx := BitVec.ofNat 32 (framedLength s), fpos := BitVec.ofNat 32 (framedLength s), bit := false
        coef := embeddedCoef s last (framedBit s last)
        blk := s.inst.numerics.idct (embeddedCoef s last (framedBit s last)) }) ∧
      (∀ k, k < framedLength s → ∀ r c, { s with img := m }.imgAt (cellOf s k r c) =
        (s.inst.numerics.idct (embeddedCoef s k (framedBit s k))).at r c) ∧
      (∀ a, (∀ k, k < framedLength s → ∀ r c, a ≠ cellOf s k r c) → { s with img := m }.imgAt a = s.imgAt a)

/-- R148: `ENCODE` ends in the same state as the sequence of primitive commands. -/
def Obligations.EncodeEqualsItsPrimitives : Prop :=
  ∀ s : State, imageFits s → messageFits s → alphaPositive s → framedLength s ≤ capacity s →
    ∃ t, exec .encode s = .next t ∧
      execAll ([.blkrst, .frmrst] ++
        (List.replicate (framedLength s) [Instr.frmget, .ldblk, .fdct, .embed, .idct, .stblk, .blknext]).flatten) s = .next t

/-- R150, R151: where a zero byte is carried within the limit, `DECODE` stops at the first one. -/
def Obligations.DecodeStopsAtTheTerminator : Prop :=
  ∀ (s : State) (t : Nat), s.inst.wf = true → imageFits s → t < bitLimit s / 8 → carriedByte s t = 0 →
    (∀ j, j < t → carriedByte s j ≠ 0) →
    ∃ m, exec .decode s = .next (completed { s with
        msgout := m, outlen := BitVec.ofNat 32 t, stopc := .terminator, uterm := true, uacc := 0, ucnt := 0
        ubits := BitVec.ofNat 32 (8 * (t + 1)), uout := BitVec.ofNat 32 t, bidx := BitVec.ofNat 32 (8 * (t + 1))
        bit := carriedBit s (8 * t + 7), blk := blockOf s (8 * t + 7)
        coef := s.inst.numerics.fdct (blockOf s (8 * t + 7)) }) ∧
      (∀ j, j < t → { s with msgout := m }.msgoutAt j = carriedByte s j) ∧
      (∀ a, t ≤ a → { s with msgout := m }.msgoutAt a = s.msgoutAt a)

/-- R150, R151, R168: where no zero byte is carried within the limit, `DECODE` reads every block of the limit; without an
explicit length it raises `TerminatorNotFound`, with one it stops there, and the explicit length decides the cause. -/
def Obligations.DecodeWithoutATerminator : Prop :=
  ∀ s : State, s.inst.wf = true → imageFits s → (∀ j, j < bitLimit s / 8 → carriedByte s j ≠ 0) →
    ∃ t, exec .decode s = .next t ∧
      t.bidx = BitVec.ofNat 32 (bitLimit s) ∧ t.uterm = false ∧ t.uout = BitVec.ofNat 32 (bitLimit s / 8) ∧
      t.ubits = BitVec.ofNat 32 (bitLimit s) ∧ t.ucnt.toNat = bitLimit s % 8 ∧
      (∀ j, j < bitLimit s / 8 → t.msgoutAt j = carriedByte s j) ∧
      (∀ a, bitLimit s / 8 ≤ a → t.msgoutAt a = s.msgoutAt a) ∧ (∀ a, t.imgAt a = s.imgAt a) ∧
      (s.expen = false → t.mode = .error ∧ t.done = false ∧ t.err = 2 ∧ t.errinfo0 = BitVec.ofNat 32 (capacity s) ∧
        t.errinfo1 = BitVec.ofNat 32 (capacity s / 8) ∧ t.outlen = 0 ∧ t.stopc = .none) ∧
      (s.expen = true → t.mode = .idle ∧ t.done = true ∧ t.err = s.err ∧ t.outlen = BitVec.ofNat 32 (bitLimit s / 8) ∧
        t.stopc = if s.explen.toNat ≤ capacity s then .length else .blocks)

/-- R150, R174: on an image that does not fit, `DECODE` raises `BadConfig(1)` after it zeroed `OUTLEN` and `STOPC`. -/
def Obligations.DecodeRejectsALargeImage : Prop :=
  ∀ s : State, ¬imageFits s → exec .decode s = .next (failed { s with outlen := 0, stopc := .none } 5 1 0)

/-- R152: `DECODE` ends with the same registers and the same `MSGOUT` as the host's loop over primitive commands. -/
def Obligations.DecodeEqualsItsPrimitives : Prop :=
  ∀ s : State, s.inst.wf = true → imageFits s →
    ∃ t u v, exec .decode s = .next t ∧ execAll [.unfrst, .blkrst] s = .next u ∧
      hostDecode (bitLimit s) (bitLimit s + 1) u = .next v ∧
      (v.uterm = true ∨ v.bidx.toNat = bitLimit s) ∧
      t.msgout = v.msgout ∧ t.uout = v.uout ∧ t.uacc = v.uacc ∧ t.ucnt = v.ucnt ∧ t.ubits = v.ubits ∧
      t.uterm = v.uterm ∧ t.bidx = v.bidx ∧ t.bit = v.bit ∧ t.blk = v.blk ∧ t.coef = v.coef

/-- R157: the round trip. A message is recovered up to its first zero byte: in the reference instance for every positive
`ALPHA` and every image, in any other instance (by NP2) for nominal samples and a strength in the range of R8. (What a
sample is, and its reading as a number: logs 2 and 17, the model's choice.) -/
def Obligations.EncodeThenDecodeRecoversTheMessage : Prop :=
  ∀ (s : State) (z : Nat), s.inst.wf = true → imageFits s → messageFits s → alphaPositive s →
    framedLength s ≤ capacity s → z ≤ s.msglen.toNat →
    (∀ j, j < z → s.msginAt j ≠ 0) → (z < s.msglen.toNat → s.msginAt z = 0) →
    (s.inst.num = .reference ∨
      (s.inst.safeAlpha s.alpha ∧ ∀ k, k < framedLength s → nominalBlock s.inst (blockOf s k))) →
    ∃ t, exec .encode s = .next t ∧
      (∀ (e : Bool) (l : Word), e = false ∨ 8 * (z + 1) ≤ l.toNat →
        ∃ u, exec .decode { t with expen := e, explen := l } = .next u ∧
          u.mode = .idle ∧ u.err = s.err ∧ u.stopc = .terminator ∧ u.outlen.toNat = z ∧
          (∀ j, j < z → u.msgoutAt j = s.msginAt j) ∧ u.bidx.toNat = 8 * (z + 1)) ∧
      (z = s.msglen.toNat →
        ∃ u, exec .decode { t with expen := true, explen := BitVec.ofNat 32 (8 * z) } = .next u ∧
          u.mode = .idle ∧ u.stopc = .length ∧ u.outlen.toNat = z ∧ ∀ j, j < z → u.msgoutAt j = s.msginAt j)

/-- R156: the image that `ENCODE` leaves is determined by the instance, the image, the message and `ALPHA`: two engines
loaded alike, whatever else they hold, end with the same image and the same kind of ending. -/
def Obligations.EncodeIsDeterminedByImageMessageAlpha : Prop :=
  ∀ s s' : State, s'.inst = s.inst → s'.width = s.width → s'.height = s.height → s'.msglen = s.msglen →
    s'.alpha = s.alpha → (∀ a, s'.imgAt a = s.imgAt a) → (∀ j, j < s.msglen.toNat → s'.msginAt j = s.msginAt j) →
    ∃ t t', exec .encode s = .next t ∧ exec .encode s' = .next t' ∧ (∀ a, t'.imgAt a = t.imgAt a) ∧ t'.mode = t.mode

/-! ### Commands together -/

/-- R21: a command that the table does not list in a column leaves that state as it is. -/
def Obligations.CommandsWriteOnlyTheirColumns : Prop :=
  ∀ (i : Instr) (s t : State), exec i s = .next t →
    (i ∉ [.sreset, .idct, .ldblk, .encode, .decode] → t.blk = s.blk) ∧
    (i ∉ [.sreset, .fdct, .embed, .encode, .decode] → t.coef = s.coef) ∧
    (i ∉ [.sreset, .extract, .frmget, .encode, .decode] → t.bit = s.bit) ∧
    (i ∉ [.sreset] → t.alpha = s.alpha ∧ t.width = s.width ∧ t.height = s.height ∧ t.msglen = s.msglen ∧
      t.expen = s.expen ∧ t.explen = s.explen ∧ t.hzd = s.hzd) ∧
    (i ∉ [.sreset, .blkrst, .blknext, .encode, .decode] → t.bidx = s.bidx) ∧
    (i ∉ [.sreset, .frmrst, .frmget, .encode] → t.fpos = s.fpos) ∧
    (i ∉ [.sreset, .unfrst, .unfput, .decode] →
      t.uacc = s.uacc ∧ t.ucnt = s.ucnt ∧ t.ubits = s.ubits ∧ t.uout = s.uout ∧ t.uterm = s.uterm) ∧
    (i ∉ [.sreset, .decode] → t.outlen = s.outlen ∧ t.stopc = s.stopc) ∧
    (i ∉ [.stblk, .encode] → t.img = s.img) ∧ t.msgin = s.msgin ∧ (i ∉ [.unfput, .decode] → t.msgout = s.msgout)

/-- R175, R176: how a command rule ends. -/
def Obligations.CommandsEndByErrorEntryOrCompletion : Prop :=
  ∀ (s : State) (e : ErrorKind) (i0 i1 : Nat),
    (CmdResult.done s).finish = .next { s with mode := .idle, done := true, pend := none } ∧
    (CmdResult.raise e i0 i1 s).finish = .next { s with
      err := e.code, errinfo0 := BitVec.ofNat 32 (i0 % 2 ^ 32), errinfo1 := BitVec.ofNat 32 (i1 % 2 ^ 32)
      mode := .error, done := false, pend := none }

/-- R88, R177: in the `ERROR` state only `CLRERR`, `SRESET` and the reset pin change the recorded error or the state, and a
`CMD` write of any other word changes nothing at all. -/
def Obligations.RecordedErrorStays : Prop :=
  ∀ (s t : State) (e : Event) (rest : List Event), s.mode = .error → clearsError e = false →
    step { s with agenda := e :: rest } = .next t →
      t.mode = .error ∧ t.err = s.err ∧ t.errinfo0 = s.errinfo0 ∧ t.errinfo1 = s.errinfo1 ∧
      (∀ w, e = .writeReg 0x00 w → t = { s with agenda := rest })

/-! ### The host interface -/

/-- R26: the fields of `STATUS`. -/
def Obligations.StatusWordHoldsTheFlags : Prop :=
  ∀ s : State,
    let w := s.statusWord
    (w.toNat % 4 = match s.mode with | .idle => 0 | .busy => 1 | .error => 2) ∧
    w.getLsbD 2 = s.done ∧ w.getLsbD 3 = s.hzd ∧
    w.getLsbD 4 = decide (capacity s ≤ s.bidx.toNat) ∧ w.getLsbD 5 = decide (framedLength s ≤ s.fpos.toNat) ∧
    w.getLsbD 6 = s.uterm ∧ w.getLsbD 7 = false ∧
    (w.toNat / 256 = match s.stopc with | .none => 0 | .terminator => 1 | .length => 2 | .blocks => 3)

/-- R24 to R43: what a read of each register returns while the engine is not `BUSY`; it has no other effect (R65). -/
def Obligations.RegisterReadsReturnTheirValues : Prop :=
  ∀ (s : State) (i : Nat) (rest : List Event), s.mode ≠ .busy → i < 64 →
    ∃ w : Word, step { s with agenda := .read .reg i :: rest } = .next { s with agenda := rest, rdata := some (.word w) } ∧
      (i = 0x00 → w = 0) ∧ (i = 0x01 → w = s.statusWord) ∧ (i = 0x02 → w.toNat = s.err.toNat) ∧
      (i = 0x03 → w = s.errinfo0) ∧ (i = 0x04 → w = s.errinfo1) ∧ (i = 0x05 → w = if s.expen then 1 else 0) ∧
      (i = 0x06 → w.toNat = s.width.toNat) ∧ (i = 0x07 → w.toNat = s.height.toNat) ∧
      (i = 0x08 → w.toNat = s.msglen.toNat) ∧ (i = 0x09 → w = s.explen) ∧ (i = 0x0A → w = s.bidx) ∧
      (i = 0x0B → w.toNat = capacity s) ∧ (i = 0x0C → w = if s.bit then 1 else 0) ∧ (i = 0x0D → w = s.fpos) ∧
      (i = 0x0E → w.toNat = framedLength s) ∧ (i = 0x0F → w.toNat = s.uacc.toNat) ∧
      (i = 0x10 → w.toNat = s.ucnt.toNat) ∧ (i = 0x11 → w = s.ubits) ∧ (i = 0x12 → w = s.uout) ∧
      (i = 0x13 → w = s.outlen) ∧ (i = 0x14 → w = 8) ∧ (i = 0x15 → w.toNat = s.inst.cu.val * 16 + s.inst.cv.val) ∧
      (0x16 ≤ i → w = 0)

/-- R24, R29, R33 to R37, R65: what a write to each register other than `CMD` stores while the engine is not `BUSY`; a
write to a read-only or reserved offset has no effect. -/
def Obligations.RegisterWritesStoreTheirFields : Prop :=
  ∀ (s : State) (i : Nat) (w : Word) (rest : List Event), s.mode ≠ .busy → i ≠ 0x00 →
    ∃ t, step { s with agenda := .writeReg i w :: rest } = .next t ∧
      (i = 0x05 → t = { s with agenda := rest, expen := w.getLsbD 0 }) ∧
      (i = 0x06 → t = { s with agenda := rest, width := BitVec.ofNat 16 w.toNat }) ∧
      (i = 0x07 → t = { s with agenda := rest, height := BitVec.ofNat 16 w.toNat }) ∧
      (i = 0x08 → t = { s with agenda := rest, msglen := BitVec.ofNat 28 w.toNat }) ∧
      (i = 0x09 → t = { s with agenda := rest, explen := w }) ∧
      (i = 0x0A → t = { s with agenda := rest, bidx := w }) ∧
      (i = 0x0C → t = { s with agenda := rest, bit := w.getLsbD 0 }) ∧
      (i ∉ [0x05, 0x06, 0x07, 0x08, 0x09, 0x0A, 0x0C] → t = { s with agenda := rest })

/-- R30 to R32, R44: the `SREG` windows, read and written while the engine is not `BUSY`; the reserved cells read `S` zero
and ignore writes. -/
def Obligations.SregWindowsReachAlphaBlkCoef : Prop :=
  ∀ (s : State) (v : Sample) (rest : List Event) (r c : Fin 8) (i : Nat), s.mode ≠ .busy →
    let at' := fun e : Event => step { s with agenda := e :: rest }
    let got := fun x : Sample => (Host.Outcome.next { s with agenda := rest, rdata := some (.sample x) } : Out)
    at' (.read .sreg 0) = got s.alpha ∧
    at' (.read .sreg (64 + 8 * r.val + c.val)) = got (s.blk.at r c) ∧
    at' (.read .sreg (128 + 8 * r.val + c.val)) = got (s.coef.at r c) ∧
    at' (.writeSreg 0 v) = .next { s with agenda := rest, alpha := v } ∧
    at' (.writeSreg (64 + 8 * r.val + c.val) v) = .next { s with agenda := rest, blk := s.blk.put r c v } ∧
    at' (.writeSreg (128 + 8 * r.val + c.val) v) = .next { s with agenda := rest, coef := s.coef.put r c v } ∧
    (0 < i → i < 64 →
      at' (.read .sreg i) = got s.inst.numerics.zero ∧ at' (.writeSreg i v) = .next { s with agenda := rest })

/-- R45 to R47, R65: a memory cell inside its space reads as what was last written to it, and a write changes no other
cell, while the engine is not `BUSY`. (That the host may write `MSGOUT` is the model's reading, log 8.) -/
def Obligations.HostReachesTheMemoryCells : Prop :=
  ∀ (s : State) (i : Nat) (v : Sample) (b : Byte) (rest : List Event), s.mode ≠ .busy →
    (i < s.inst.imgMax →
      step { s with agenda := .read .img i :: rest } = .next { s with agenda := rest, rdata := some (.sample (s.imgAt i)) } ∧
      ∃ m, step { s with agenda := .writeImg i v :: rest } = .next { s with agenda := rest, img := m } ∧
        ∀ a, { s with img := m }.imgAt a = if a = i then v else s.imgAt a) ∧
    (i < s.inst.msginMax →
      step { s with agenda := .read .msgin i :: rest } = .next { s with agenda := rest, rdata := some (.byte (s.msginAt i)) } ∧
      ∃ m, step { s with agenda := .writeMsgin i b :: rest } = .next { s with agenda := rest, msgin := m } ∧
        ∀ a, { s with msgin := m }.msginAt a = if a = i then b else s.msginAt a) ∧
    (i < s.inst.msgoutMax →
      step { s with agenda := .read .msgout i :: rest } = .next { s with agenda := rest, rdata := some (.byte (s.msgoutAt i)) } ∧
      ∃ m, step { s with agenda := .writeMsgout i b :: rest } = .next { s with agenda := rest, msgout := m } ∧
        ∀ a, { s with msgout := m }.msgoutAt a = if a = i then b else s.msgoutAt a)

/-- R64: an access outside its space: a write has no effect, a read returns some value of the cell's type and changes
nothing of the engine. (That this holds while `BUSY` too, without `HZD`, is the model's reading, log 6.) -/
def Obligations.AccessOutsideASpaceHasNoEffect : Prop :=
  ∀ (s : State) (e : Event) (sp : Space) (i : Nat) (rest : List Event), sp.size s.inst ≤ i →
    (writeTarget e = some (sp, i) → step { s with agenda := e :: rest } = .next { s with agenda := rest }) ∧
    ∃ d, isCellOf sp d ∧
      step { s with agenda := .read sp i :: rest } =
        .next { s with agenda := rest, rdata := some d, draws := s.draws + 1 }

/-- R74: host accesses while `BUSY`: `STATUS` is read, every write to a cell is dropped and flagged, and every other read of
a cell returns some value of the cell's type and is flagged. (A write to a read-only register or a reserved cell is
flagged too, the model's reading, log 7.) -/
def Obligations.BusyAccessesAreDroppedAndFlagged : Prop :=
  ∀ (s : State) (e : Event) (sp : Space) (i : Nat) (rest : List Event), s.mode = .busy → i < sp.size s.inst →
    step { s with agenda := .read .reg 0x01 :: rest } =
      .next { s with agenda := rest, rdata := some (.word s.statusWord) } ∧
    (writeTarget e = some (sp, i) → step { s with agenda := e :: rest } = .next { s with agenda := rest, hzd := true }) ∧
    (¬(sp = .reg ∧ i = 0x01) → ∃ d, isCellOf sp d ∧
      step { s with agenda := .read sp i :: rest } =
        .next { s with agenda := rest, hzd := true, rdata := some d, draws := s.draws + 1 })

/-- R26, R198: `HZD` comes only from an access that breaks the ownership rule, and goes only by `SRESET` or the reset pin.
(That an access outside its space, R64, does not set it while `BUSY` is the model's reading: log 6, DEDUCED.) -/
def Obligations.HazardFlagRecordsViolations : Prop :=
  ∀ (s t : State) (e : Event) (rest : List Event), step { s with agenda := e :: rest } = .next t →
    (t.hzd = true → s.hzd = true ∨ e.respects s = false) ∧
    (s.hzd = true → t.hzd = true ∨ e = .resetPin ∨ e = .writeReg 0x00 0x00000002#32)

/-! ### Reset -/

/-- R50: the values after reset, in every instance: `ALPHA` holds `ALPHA_RESET`, than which no value of the instance's `S`
is nearer to one tenth, and the buffers hold the zero of `S`, which is not the negative zero of a floating-point instance;
in the reference instance these are one tenth and zero. (The reading of samples as numbers: logs 2 and 17.) -/
def Obligations.ResetLeavesTheStatedValues : Prop :=
  ∀ p : Inst,
    let s := State.ofInst p
    s.mode = .idle ∧ s.done = false ∧ s.hzd = false ∧ s.uterm = false ∧ s.stopc = .none ∧ s.statusWord = 0x00000010#32 ∧
    s.err = 0 ∧ s.errinfo0 = 0 ∧ s.errinfo1 = 0 ∧ s.expen = false ∧ s.width = 0 ∧ s.height = 0 ∧ s.msglen = 0 ∧
    s.explen = 0 ∧ s.bidx = 0 ∧ s.fpos = 0 ∧ s.bit = false ∧ s.uacc = 0 ∧ s.ucnt = 0 ∧ s.ubits = 0 ∧ s.uout = 0 ∧
    s.outlen = 0 ∧ s.nblk = 0 ∧ s.lbits = 8 ∧ s.pend = none ∧
    s.alpha = p.numerics.alphaReset ∧ (∀ r c, s.blk.at r c = p.numerics.zero ∧ s.coef.at r c = p.numerics.zero) ∧
    p.reading.NUM.real (p.reading.value p.numerics.zero) = some 0 ∧
    p.reading.NUM.negZero (p.reading.value p.numerics.zero) = false ∧
    (∃ x, p.reading.NUM.real (p.reading.value p.numerics.alphaReset) = some x ∧
      ∀ v y, p.reading.NUM.real v = some y → |x - 1 / 10| ≤ |y - 1 / 10|) ∧
    (p.num = .reference → s.alpha.real = 1 / 10 ∧ ∀ r c, (s.blk.at r c).real = 0 ∧ (s.coef.at r c).real = 0)

/-- R190: the reset pin puts every register into its reset state from any state, and `MSGIN` is unchanged; where no command
was running, so are `IMG` and `MSGOUT` (R50). -/
def Obligations.ResetPinResetsFromAnyState : Prop :=
  ∀ (s : State) (rest : List Event),
    ∃ t, step { s with agenda := .resetPin :: rest } = .next t ∧
      t = { State.ofInst s.inst with
            img := t.img, msgin := s.msgin, msgout := t.msgout, agenda := rest, rdata := s.rdata, draws := t.draws } ∧
      (s.mode ≠ .busy → t.img = s.img ∧ t.msgout = s.msgout)

/-- R191: after a reset that abandons a command, each cell of `IMG` and of `MSGOUT` holds its old value or the one that the
command would have left. -/
def Obligations.AbandonedCommandLeavesOldOrNewCells : Prop :=
  ∀ (s u t : State) (i : Instr) (rest : List Event), s.Inv → s.mode = .busy → s.pending = some i →
    exec i s = .next u → step { s with agenda := .resetPin :: rest } = .next t →
      ∀ a, (t.imgAt a = s.imgAt a ∨ t.imgAt a = u.imgAt a) ∧ (t.msgoutAt a = s.msgoutAt a ∨ t.msgoutAt a = u.msgoutAt a)

/-- R43: the derived quantities stay in their ranges. -/
def Obligations.DerivedQuantitiesFitTheirRegisters : Prop :=
  ∀ s : State, s.bw ≤ 8191 ∧ s.bh ≤ 8191 ∧ s.nblk = s.bw * s.bh ∧ s.nblk ≤ 67092481 ∧
    s.lbits = 8 * (s.msglen.toNat + 1) ∧ 8 ≤ s.lbits ∧ s.lbits ≤ 2 ^ 31
end

