-- ==== Sys2Proof/Laws/Matrix.lean ====
section
/-! SUPPORT. Matrices are determined by their elements, and writing one element changes that element only. -/

namespace Sys2Proof

theorem Mat8.lin_inj {i j i' j' : Fin 8} (h : Mat8.lin i j = Mat8.lin i' j') : i = i' ∧ j = j' := by
  simp only [Mat8.lin, Fin.mk.injEq] at h
  constructor <;> ext <;> omega

@[simp] theorem Mat8.at_of {α : Type} (f : Fin 8 → Fin 8 → α) (i j : Fin 8) : (Mat8.of f).at i j = f i j := by
  unfold Mat8.of
  simp only [Mat8.at, Mat8.lin, Fin.getElem_fin, Vector.getElem_ofFn]
  congr 1 <;> ext <;> (simp; try omega)

theorem Mat8.ext {α : Type} {m n : Mat8 α} (h : ∀ i j, m.at i j = n.at i j) : m = n := by
  apply Vector.ext
  intro k hk
  have := h ⟨k / 8, by omega⟩ ⟨k % 8, by omega⟩
  simp only [Mat8.at, Mat8.lin, Fin.getElem_fin] at this
  simpa [Nat.div_add_mod] using this

@[simp] theorem Mat8.at_put_self {α : Type} (m : Mat8 α) (i j : Fin 8) (v : α) : (m.put i j v).at i j = v := by
  simp [Mat8.put, Mat8.at]

theorem Mat8.at_put_other {α : Type} (m : Mat8 α) {i j i' j' : Fin 8} (v : α) (h : ¬(i' = i ∧ j' = j)) :
    (m.put i j v).at i' j' = m.at i' j' := by
  have hne : (Mat8.lin i j).val ≠ (Mat8.lin i' j').val := by
    intro e
    have := Mat8.lin_inj (Fin.ext e)
    exact h ⟨this.1.symm, this.2.symm⟩
  simp [Mat8.put, Mat8.at, Vector.getElem_set_ne, hne]

/-- Every position occurs in the list of positions. -/
theorem Mat8.mem_positions (r c : Fin 8) : (r, c) ∈ Mat8.positions := by
  simp [Mat8.positions]

end Sys2Proof
end

