-- ==== Sys2Proof/Laws/Memory.lean ====
section
/-! SUPPORT. The laws of the memories: a read after a write, and that every operation keeps the canonical form. -/

namespace Sys2Proof.Machine

variable {α : Type}

@[simp] theorem Mem.lookup_write_self (m : List (Nat × α)) (a : Nat) (v : α) :
    Mem.lookup (Mem.write m a v) a = some v := by
  induction m with
  | nil => simp [Mem.write, Mem.lookup]
  | cons c m ih =>
    obtain ⟨b, w⟩ := c
    simp only [Mem.write]
    split
    · simp [Mem.lookup]
    split
    · simp [Mem.lookup]
    · simp_all [Mem.lookup]

theorem Mem.lookup_write_other (m : List (Nat × α)) {a b : Nat} (v : α) (h : b ≠ a) :
    Mem.lookup (Mem.write m a v) b = Mem.lookup m b := by
  induction m with
  | nil => simp [Mem.write, Mem.lookup, h]
  | cons c m ih =>
    obtain ⟨b', w⟩ := c
    simp only [Mem.write]
    split
    · simp [Mem.lookup, h]
    split
    · subst_vars; simp [Mem.lookup, h]
    · simp [Mem.lookup, ih]

theorem Mem.lookup_write (m : List (Nat × α)) (a b : Nat) (v : α) :
    Mem.lookup (Mem.write m a v) b = if b = a then some v else Mem.lookup m b := by
  split
  · subst_vars; simp
  · exact Mem.lookup_write_other m v ‹_›

theorem Mem.rising_weaken {lo lo' : Option Nat} {m : List (Nat × α)} (h : Mem.rising lo m = true)
    (hlo : ∀ b, lo' = some b → ∃ a, lo = some a ∧ b ≤ a) : Mem.rising lo' m = true := by
  cases m with
  | nil => rfl
  | cons c m =>
    obtain ⟨a, v⟩ := c
    cases lo' with
    | none => simp_all [Mem.rising]
    | some b =>
      obtain ⟨a', rfl, hb⟩ := hlo b rfl
      simp only [Mem.rising, Bool.and_eq_true, decide_eq_true_eq] at h ⊢
      exact ⟨by omega, h.2⟩

theorem Mem.rising_write {lo : Option Nat} {m : List (Nat × α)} (h : Mem.rising lo m = true) (a : Nat) (v : α)
    (hlo : ∀ b, lo = some b → b < a) : Mem.rising lo (Mem.write m a v) = true := by
  induction m generalizing lo with
  | nil => cases lo <;> simp_all [Mem.write, Mem.rising]
  | cons c m ih =>
    obtain ⟨b, w⟩ := c
    simp only [Mem.rising, Bool.and_eq_true] at h
    simp only [Mem.write]
    split
    · simp only [Mem.rising, Bool.and_eq_true]
      refine ⟨?_, by simpa using ‹a < b›, h.2⟩
      cases lo with
      | none => rfl
      | some b' => simpa using hlo b' rfl
    split
    · subst_vars; simp only [Mem.rising, Bool.and_eq_true]; exact h
    · simp only [Mem.rising, Bool.and_eq_true]
      refine ⟨h.1, ih h.2 ?_⟩
      intro b' hb'; cases hb'; omega

theorem Mem.all_write {p : Nat × α → Bool} {m : List (Nat × α)} (h : m.all p = true) {a : Nat} {v : α}
    (ha : p (a, v) = true) : (Mem.write m a v).all p = true := by
  induction m with
  | nil => simpa [Mem.write] using ha
  | cons c m ih =>
    obtain ⟨b, w⟩ := c
    simp only [List.all_cons, Bool.and_eq_true] at h
    simp only [Mem.write]
    split
    · simp [ha, h.1, h.2]
    split
    · subst_vars; simp [ha, h.2]
    · simp [h.1, ih h.2]

/-- A write inside the memory keeps its canonical form. -/
theorem Memory.wf_write {size : Nat} {m : List (Nat × α)} (h : Memory.wf size m = true) {a : Nat} (ha : a < size) (v : α) :
    Memory.wf size (Mem.write m a v) = true := by
  simp only [Memory.wf, Bool.and_eq_true] at h ⊢
  exact ⟨Mem.rising_write h.1 a v (by simp), Mem.all_write h.2 (by simpa using ha)⟩

@[simp] theorem Memory.wf_nil (size : Nat) : Memory.wf size ([] : List (Nat × α)) = true := rfl

theorem Mem.rising_abandon [DecidableEq α] (landed : Nat → Bool) (old : List (Nat × α)) {lo : Option Nat} {m : List (Nat × α)}
    (h : Mem.rising lo m = true) : Mem.rising lo (Mem.abandon landed old m) = true := by
  induction m generalizing lo with
  | nil => rfl
  | cons c m ih =>
    obtain ⟨a, v⟩ := c
    simp only [Mem.rising, Bool.and_eq_true] at h
    have skip : Mem.rising lo (Mem.abandon landed old m) = true := by
      refine Mem.rising_weaken (ih h.2) ?_
      intro b hb
      subst hb
      exact ⟨a, rfl, by have := h.1; simp at this; omega⟩
    simp only [Mem.abandon]
    split
    · simp only [Mem.rising, Bool.and_eq_true]; exact ⟨h.1, ih h.2⟩
    · split
      · simp only [Mem.rising, Bool.and_eq_true]; exact ⟨h.1, ih h.2⟩
      · exact skip

theorem Mem.all_abandon [DecidableEq α] (landed : Nat → Bool) (old : List (Nat × α)) {p : Nat → Bool} {m : List (Nat × α)}
    (h : m.all (fun c => p c.1) = true) : (Mem.abandon landed old m).all (fun c => p c.1) = true := by
  induction m with
  | nil => rfl
  | cons c m ih =>
    obtain ⟨a, v⟩ := c
    simp only [List.all_cons, Bool.and_eq_true] at h
    simp only [Mem.abandon]
    split
    · simp [h.1, ih h.2]
    · split
      · simp [h.1, ih h.2]
      · exact ih h.2

/-- What a reset leaves of an abandoned command's writes keeps the canonical form. -/
theorem Memory.wf_abandon [DecidableEq α] {size : Nat} (landed : Nat → Bool) (old : List (Nat × α)) {m : List (Nat × α)}
    (h : Memory.wf size m = true) : Memory.wf size (Mem.abandon landed old m) = true := by
  simp only [Memory.wf, Bool.and_eq_true] at h ⊢
  exact ⟨Mem.rising_abandon landed old h.1, Mem.all_abandon landed old (p := fun a => decide (a < size)) h.2⟩

theorem Mem.lookup_none_of_rising {m : List (Nat × α)} {b a : Nat} (h : Mem.rising (some b) m = true) (ha : a ≤ b) :
    Mem.lookup m a = none := by
  induction m generalizing b with
  | nil => rfl
  | cons c m ih =>
    obtain ⟨a', v⟩ := c
    simp only [Mem.rising, Bool.and_eq_true, decide_eq_true_eq] at h
    simp only [Mem.lookup]
    rw [if_neg (by omega)]
    exact ih h.2 (by omega)

/-- What a cell holds after a reset that abandoned a command: its new value where it landed, else its old one. -/
theorem Mem.lookup_abandon [DecidableEq α] (landed : Nat → Bool) (old : List (Nat × α)) {lo : Option Nat} {m : List (Nat × α)}
    (h : Mem.rising lo m = true) (a : Nat) (hold : ∀ w, Mem.lookup old a = some w → Mem.lookup m a ≠ none) :
    Mem.lookup (Mem.abandon landed old m) a =
      if landed a then Mem.lookup m a else Mem.lookup old a := by
  induction m generalizing lo with
  | nil =>
    cases ho : Mem.lookup old a with
    | none => simp [Mem.abandon, Mem.lookup]
    | some w => exact absurd rfl (hold w ho)
  | cons c m ih =>
    obtain ⟨b, v⟩ := c
    simp only [Mem.rising, Bool.and_eq_true] at h
    by_cases hab : a = b
    · subst hab
      have hm : Mem.lookup m a = none := Mem.lookup_none_of_rising h.2 le_rfl
      simp only [Mem.abandon]
      cases ho : Mem.lookup old a with
      | none =>
        by_cases hl : landed a = true
        · simp [hl, Mem.lookup]
        · simp only [Bool.not_eq_true] at hl
          have hr := Mem.rising_abandon landed old h.2
          simp [hl, Mem.lookup_none_of_rising hr le_rfl]
      | some w =>
        by_cases hl : landed a = true
        · by_cases hv : v = w <;> simp [hl, hv, Mem.lookup]
        · simp only [Bool.not_eq_true] at hl
          by_cases hv : v = w <;> simp [hl, hv, Mem.lookup]
    · have ih' := ih h.2 (fun w hw => by have := hold w hw; simpa [Mem.lookup, hab] using this)
      simp only [Mem.abandon]
      split
      · simp only [Mem.lookup, hab, if_false]; exact ih'
      · split
        · simp only [Mem.lookup, hab, if_false]; exact ih'
        · simpa only [Mem.lookup, hab, if_false] using ih'

/-! ### A whole block -/

theorem Mem.foldl_write_wf {size : Nat} (addr : Fin 8 → Fin 8 → Nat) (b : Mat8 α) (ps : List (Fin 8 × Fin 8))
    (ha : ∀ r c, addr r c < size) {m : List (Nat × α)} (h : Memory.wf size m = true) :
    Memory.wf size (ps.foldl (fun m p => Mem.write m (addr p.1 p.2) (b.at p.1 p.2)) m) = true := by
  induction ps generalizing m with
  | nil => exact h
  | cons p ps ih => exact ih (Memory.wf_write h (ha _ _) _)

/-- Storing a block inside the memory keeps its canonical form. -/
theorem Memory.wf_writeBlock {size : Nat} {m : List (Nat × α)} (h : Memory.wf size m = true)
    (addr : Fin 8 → Fin 8 → Nat) (b : Mat8 α) (ha : ∀ r c, addr r c < size) :
    Memory.wf size (Mem.writeBlock m addr b) = true := by
  unfold Mem.writeBlock
  exact Mem.foldl_write_wf addr b _ ha h

theorem Mem.foldl_write_lookup (addr : Fin 8 → Fin 8 → Nat) (b : Mat8 α) (ps : List (Fin 8 × Fin 8))
    (m : List (Nat × α)) (a : Nat) :
    (∃ p ∈ ps, addr p.1 p.2 = a ∧
      Mem.lookup (ps.foldl (fun m p => Mem.write m (addr p.1 p.2) (b.at p.1 p.2)) m) a = some (b.at p.1 p.2)) ∨
    ((∀ p ∈ ps, addr p.1 p.2 ≠ a) ∧
      Mem.lookup (ps.foldl (fun m p => Mem.write m (addr p.1 p.2) (b.at p.1 p.2)) m) a = Mem.lookup m a) := by
  induction ps generalizing m with
  | nil => right; simp
  | cons p ps ih =>
    rcases ih (Mem.write m (addr p.1 p.2) (b.at p.1 p.2)) with ⟨q, hq, ha, hl⟩ | ⟨hn, hl⟩
    · left; exact ⟨q, List.mem_cons_of_mem _ hq, ha, hl⟩
    · by_cases hp : addr p.1 p.2 = a
      · left
        refine ⟨p, by simp, hp, ?_⟩
        rw [List.foldl_cons, hl, hp, Mem.lookup_write_self]
      · right
        constructor
        · intro q hq
          rcases List.mem_cons.mp hq with rfl | hq
          · exact hp
          · exact hn q hq
        · rw [List.foldl_cons, hl, Mem.lookup_write_other _ _ (Ne.symm hp)]

/-- A cell of a stored block holds its value, where different elements have different addresses. -/
theorem Mem.lookup_writeBlock_inside (m : List (Nat × α)) {addr : Fin 8 → Fin 8 → Nat} (b : Mat8 α)
    (inj : ∀ r c r' c', addr r c = addr r' c' → r = r' ∧ c = c') (r c : Fin 8) :
    Mem.lookup (Mem.writeBlock m addr b) (addr r c) = some (b.at r c) := by
  unfold Mem.writeBlock
  rcases Mem.foldl_write_lookup addr b Mat8.positions m (addr r c) with ⟨p, _, ha, hl⟩ | ⟨hn, _⟩
  · obtain ⟨h1, h2⟩ := inj _ _ _ _ ha
    rw [hl, h1, h2]
  · exact absurd rfl (hn (r, c) (Mat8.mem_positions r c))

/-- A cell outside a stored block keeps its value. -/
theorem Mem.lookup_writeBlock_outside (m : List (Nat × α)) {addr : Fin 8 → Fin 8 → Nat} (b : Mat8 α) {a : Nat}
    (h : ∀ r c, addr r c ≠ a) : Mem.lookup (Mem.writeBlock m addr b) a = Mem.lookup m a := by
  unfold Mem.writeBlock
  rcases Mem.foldl_write_lookup addr b Mat8.positions m a with ⟨p, _, ha, _⟩ | ⟨_, hl⟩
  · exact absurd ha (h _ _)
  · exact hl

/-! ### A written cell stays written -/

/-- Every cell that `m` lists is listed in `m'`. -/
def Mem.Grows (m m' : List (Nat × α)) : Prop := ∀ a, Mem.lookup m a ≠ none → Mem.lookup m' a ≠ none

theorem Mem.Grows.refl (m : List (Nat × α)) : Mem.Grows m m := fun _ h => h

theorem Mem.Grows.trans {m m' m'' : List (Nat × α)} (h : Mem.Grows m m') (k : Mem.Grows m' m'') : Mem.Grows m m'' :=
  fun a ha => k a (h a ha)

theorem Mem.grows_write (m : List (Nat × α)) (a : Nat) (v : α) : Mem.Grows m (Mem.write m a v) := by
  intro b h
  rw [Mem.lookup_write]
  split
  · simp
  · exact h

theorem Mem.grows_writeBlock (m : List (Nat × α)) (addr : Fin 8 → Fin 8 → Nat) (b : Mat8 α) :
    Mem.Grows m (Mem.writeBlock m addr b) := by
  intro a h
  unfold Mem.writeBlock
  rcases Mem.foldl_write_lookup addr b Mat8.positions m a with ⟨_, _, _, hl⟩ | ⟨_, hl⟩
  · rw [hl]; simp
  · rw [hl]; exact h

/-! ### The three memories, one cell at a time -/

@[simp] theorem State.imgAt_setImg (s : State) (a b : Nat) (v : Sample) :
    (s.setImg a v).imgAt b = if b = a then v else s.imgAt b := by
  simp only [State.imgAt, State.setImg, Mem.lookup_write]; split <;> rfl

@[simp] theorem State.msginAt_setMsgin (s : State) (a b : Nat) (v : Byte) :
    (s.setMsgin a v).msginAt b = if b = a then v else s.msginAt b := by
  simp only [State.msginAt, State.setMsgin, Mem.lookup_write]; split <;> rfl

@[simp] theorem State.msgoutAt_setMsgout (s : State) (a b : Nat) (v : Byte) :
    (s.setMsgout a v).msgoutAt b = if b = a then v else s.msgoutAt b := by
  simp only [State.msgoutAt, State.setMsgout, Mem.lookup_write]; split <;> rfl

end Sys2Proof.Machine
end

