-- ==== Sys2Proof/Laws/State.lean ====
section
/-! SUPPORT. What each named update of the state leaves in each field: one lemma per field and update. -/

namespace Sys2Proof.Machine

variable (s : State)

/-! ### `complete` -/

@[simp] theorem State.complete_inst : s.complete.inst = s.inst := rfl
@[simp] theorem State.complete_mode : s.complete.mode = .idle := rfl
@[simp] theorem State.complete_done : s.complete.done = true := rfl
@[simp] theorem State.complete_hzd : s.complete.hzd = s.hzd := rfl
@[simp] theorem State.complete_uterm : s.complete.uterm = s.uterm := rfl
@[simp] theorem State.complete_stopc : s.complete.stopc = s.stopc := rfl
@[simp] theorem State.complete_err : s.complete.err = s.err := rfl
@[simp] theorem State.complete_errinfo0 : s.complete.errinfo0 = s.errinfo0 := rfl
@[simp] theorem State.complete_errinfo1 : s.complete.errinfo1 = s.errinfo1 := rfl
@[simp] theorem State.complete_expen : s.complete.expen = s.expen := rfl
@[simp] theorem State.complete_width : s.complete.width = s.width := rfl
@[simp] theorem State.complete_height : s.complete.height = s.height := rfl
@[simp] theorem State.complete_msglen : s.complete.msglen = s.msglen := rfl
@[simp] theorem State.complete_explen : s.complete.explen = s.explen := rfl
@[simp] theorem State.complete_bidx : s.complete.bidx = s.bidx := rfl
@[simp] theorem State.complete_bit : s.complete.bit = s.bit := rfl
@[simp] theorem State.complete_fpos : s.complete.fpos = s.fpos := rfl
@[simp] theorem State.complete_uacc : s.complete.uacc = s.uacc := rfl
@[simp] theorem State.complete_ucnt : s.complete.ucnt = s.ucnt := rfl
@[simp] theorem State.complete_ubits : s.complete.ubits = s.ubits := rfl
@[simp] theorem State.complete_uout : s.complete.uout = s.uout := rfl
@[simp] theorem State.complete_outlen : s.complete.outlen = s.outlen := rfl
@[simp] theorem State.complete_alpha : s.complete.alpha = s.alpha := rfl
@[simp] theorem State.complete_blk : s.complete.blk = s.blk := rfl
@[simp] theorem State.complete_coef : s.complete.coef = s.coef := rfl
@[simp] theorem State.complete_img : s.complete.img = s.img := rfl
@[simp] theorem State.complete_msgin : s.complete.msgin = s.msgin := rfl
@[simp] theorem State.complete_msgout : s.complete.msgout = s.msgout := rfl
@[simp] theorem State.complete_pend : s.complete.pend = none := rfl
@[simp] theorem State.complete_agenda : s.complete.agenda = s.agenda := rfl
@[simp] theorem State.complete_rdata : s.complete.rdata = s.rdata := rfl
@[simp] theorem State.complete_draws : s.complete.draws = s.draws := rfl
@[simp] theorem State.complete_num : s.complete.num = s.num := rfl
@[simp] theorem State.complete_nblk : s.complete.nblk = s.nblk := rfl
@[simp] theorem State.complete_lbits : s.complete.lbits = s.lbits := rfl
@[simp] theorem State.complete_imageTooLarge : s.complete.imageTooLarge = s.imageTooLarge := rfl
@[simp] theorem State.complete_imgAt (b : Nat) : s.complete.imgAt b = s.imgAt b := rfl
@[simp] theorem State.complete_msginAt (b : Nat) : s.complete.msginAt b = s.msginAt b := rfl
@[simp] theorem State.complete_msgoutAt (b : Nat) : s.complete.msgoutAt b = s.msgoutAt b := rfl
@[simp] theorem State.complete_sampleAddr (i j : Fin 8) : s.complete.sampleAddr i j = s.sampleAddr i j := rfl
@[simp] theorem State.complete_frameBit (j : Nat) : s.complete.frameBit j = s.frameBit j := rfl

/-! ### `enterError` -/

@[simp] theorem State.enterError_inst (e : ErrorKind) (i0 i1 : Nat) : (s.enterError e i0 i1).inst = s.inst := rfl
@[simp] theorem State.enterError_mode (e : ErrorKind) (i0 i1 : Nat) : (s.enterError e i0 i1).mode = .error := rfl
@[simp] theorem State.enterError_done (e : ErrorKind) (i0 i1 : Nat) : (s.enterError e i0 i1).done = false := rfl
@[simp] theorem State.enterError_hzd (e : ErrorKind) (i0 i1 : Nat) : (s.enterError e i0 i1).hzd = s.hzd := rfl
@[simp] theorem State.enterError_uterm (e : ErrorKind) (i0 i1 : Nat) : (s.enterError e i0 i1).uterm = s.uterm := rfl
@[simp] theorem State.enterError_stopc (e : ErrorKind) (i0 i1 : Nat) : (s.enterError e i0 i1).stopc = s.stopc := rfl
@[simp] theorem State.enterError_err (e : ErrorKind) (i0 i1 : Nat) : (s.enterError e i0 i1).err = e.code := rfl
@[simp] theorem State.enterError_errinfo0 (e : ErrorKind) (i0 i1 : Nat) : (s.enterError e i0 i1).errinfo0 = BitVec.ofNat 32 i0 := rfl
@[simp] theorem State.enterError_errinfo1 (e : ErrorKind) (i0 i1 : Nat) : (s.enterError e i0 i1).errinfo1 = BitVec.ofNat 32 i1 := rfl
@[simp] theorem State.enterError_expen (e : ErrorKind) (i0 i1 : Nat) : (s.enterError e i0 i1).expen = s.expen := rfl
@[simp] theorem State.enterError_width (e : ErrorKind) (i0 i1 : Nat) : (s.enterError e i0 i1).width = s.width := rfl
@[simp] theorem State.enterError_height (e : ErrorKind) (i0 i1 : Nat) : (s.enterError e i0 i1).height = s.height := rfl
@[simp] theorem State.enterError_msglen (e : ErrorKind) (i0 i1 : Nat) : (s.enterError e i0 i1).msglen = s.msglen := rfl
@[simp] theorem State.enterError_explen (e : ErrorKind) (i0 i1 : Nat) : (s.enterError e i0 i1).explen = s.explen := rfl
@[simp] theorem State.enterError_bidx (e : ErrorKind) (i0 i1 : Nat) : (s.enterError e i0 i1).bidx = s.bidx := rfl
@[simp] theorem State.enterError_bit (e : ErrorKind) (i0 i1 : Nat) : (s.enterError e i0 i1).bit = s.bit := rfl
@[simp] theorem State.enterError_fpos (e : ErrorKind) (i0 i1 : Nat) : (s.enterError e i0 i1).fpos = s.fpos := rfl
@[simp] theorem State.enterError_uacc (e : ErrorKind) (i0 i1 : Nat) : (s.enterError e i0 i1).uacc = s.uacc := rfl
@[simp] theorem State.enterError_ucnt (e : ErrorKind) (i0 i1 : Nat) : (s.enterError e i0 i1).ucnt = s.ucnt := rfl
@[simp] theorem State.enterError_ubits (e : ErrorKind) (i0 i1 : Nat) : (s.enterError e i0 i1).ubits = s.ubits := rfl
@[simp] theorem State.enterError_uout (e : ErrorKind) (i0 i1 : Nat) : (s.enterError e i0 i1).uout = s.uout := rfl
@[simp] theorem State.enterError_outlen (e : ErrorKind) (i0 i1 : Nat) : (s.enterError e i0 i1).outlen = s.outlen := rfl
@[simp] theorem State.enterError_alpha (e : ErrorKind) (i0 i1 : Nat) : (s.enterError e i0 i1).alpha = s.alpha := rfl
@[simp] theorem State.enterError_blk (e : ErrorKind) (i0 i1 : Nat) : (s.enterError e i0 i1).blk = s.blk := rfl
@[simp] theorem State.enterError_coef (e : ErrorKind) (i0 i1 : Nat) : (s.enterError e i0 i1).coef = s.coef := rfl
@[simp] theorem State.enterError_img (e : ErrorKind) (i0 i1 : Nat) : (s.enterError e i0 i1).img = s.img := rfl
@[simp] theorem State.enterError_msgin (e : ErrorKind) (i0 i1 : Nat) : (s.enterError e i0 i1).msgin = s.msgin := rfl
@[simp] theorem State.enterError_msgout (e : ErrorKind) (i0 i1 : Nat) : (s.enterError e i0 i1).msgout = s.msgout := rfl
@[simp] theorem State.enterError_pend (e : ErrorKind) (i0 i1 : Nat) : (s.enterError e i0 i1).pend = none := rfl
@[simp] theorem State.enterError_agenda (e : ErrorKind) (i0 i1 : Nat) : (s.enterError e i0 i1).agenda = s.agenda := rfl
@[simp] theorem State.enterError_rdata (e : ErrorKind) (i0 i1 : Nat) : (s.enterError e i0 i1).rdata = s.rdata := rfl
@[simp] theorem State.enterError_draws (e : ErrorKind) (i0 i1 : Nat) : (s.enterError e i0 i1).draws = s.draws := rfl
@[simp] theorem State.enterError_num (e : ErrorKind) (i0 i1 : Nat) : (s.enterError e i0 i1).num = s.num := rfl
@[simp] theorem State.enterError_nblk (e : ErrorKind) (i0 i1 : Nat) : (s.enterError e i0 i1).nblk = s.nblk := rfl
@[simp] theorem State.enterError_lbits (e : ErrorKind) (i0 i1 : Nat) : (s.enterError e i0 i1).lbits = s.lbits := rfl
@[simp] theorem State.enterError_imageTooLarge (e : ErrorKind) (i0 i1 : Nat) : (s.enterError e i0 i1).imageTooLarge = s.imageTooLarge := rfl
@[simp] theorem State.enterError_imgAt (e : ErrorKind) (i0 i1 : Nat) (b : Nat) : (s.enterError e i0 i1).imgAt b = s.imgAt b := rfl
@[simp] theorem State.enterError_msginAt (e : ErrorKind) (i0 i1 : Nat) (b : Nat) : (s.enterError e i0 i1).msginAt b = s.msginAt b := rfl
@[simp] theorem State.enterError_msgoutAt (e : ErrorKind) (i0 i1 : Nat) (b : Nat) : (s.enterError e i0 i1).msgoutAt b = s.msgoutAt b := rfl
@[simp] theorem State.enterError_sampleAddr (e : ErrorKind) (i0 i1 : Nat) (i j : Fin 8) : (s.enterError e i0 i1).sampleAddr i j = s.sampleAddr i j := rfl
@[simp] theorem State.enterError_frameBit (e : ErrorKind) (i0 i1 : Nat) (j : Nat) : (s.enterError e i0 i1).frameBit j = s.frameBit j := rfl

/-! ### `leaveError` -/

@[simp] theorem State.leaveError_inst : s.leaveError.inst = s.inst := rfl
@[simp] theorem State.leaveError_mode : s.leaveError.mode = .idle := rfl
@[simp] theorem State.leaveError_done : s.leaveError.done = false := rfl
@[simp] theorem State.leaveError_hzd : s.leaveError.hzd = s.hzd := rfl
@[simp] theorem State.leaveError_uterm : s.leaveError.uterm = s.uterm := rfl
@[simp] theorem State.leaveError_stopc : s.leaveError.stopc = s.stopc := rfl
@[simp] theorem State.leaveError_err : s.leaveError.err = 0 := rfl
@[simp] theorem State.leaveError_errinfo0 : s.leaveError.errinfo0 = 0 := rfl
@[simp] theorem State.leaveError_errinfo1 : s.leaveError.errinfo1 = 0 := rfl
@[simp] theorem State.leaveError_expen : s.leaveError.expen = s.expen := rfl
@[simp] theorem State.leaveError_width : s.leaveError.width = s.width := rfl
@[simp] theorem State.leaveError_height : s.leaveError.height = s.height := rfl
@[simp] theorem State.leaveError_msglen : s.leaveError.msglen = s.msglen := rfl
@[simp] theorem State.leaveError_explen : s.leaveError.explen = s.explen := rfl
@[simp] theorem State.leaveError_bidx : s.leaveError.bidx = s.bidx := rfl
@[simp] theorem State.leaveError_bit : s.leaveError.bit = s.bit := rfl
@[simp] theorem State.leaveError_fpos : s.leaveError.fpos = s.fpos := rfl
@[simp] theorem State.leaveError_uacc : s.leaveError.uacc = s.uacc := rfl
@[simp] theorem State.leaveError_ucnt : s.leaveError.ucnt = s.ucnt := rfl
@[simp] theorem State.leaveError_ubits : s.leaveError.ubits = s.ubits := rfl
@[simp] theorem State.leaveError_uout : s.leaveError.uout = s.uout := rfl
@[simp] theorem State.leaveError_outlen : s.leaveError.outlen = s.outlen := rfl
@[simp] theorem State.leaveError_alpha : s.leaveError.alpha = s.alpha := rfl
@[simp] theorem State.leaveError_blk : s.leaveError.blk = s.blk := rfl
@[simp] theorem State.leaveError_coef : s.leaveError.coef = s.coef := rfl
@[simp] theorem State.leaveError_img : s.leaveError.img = s.img := rfl
@[simp] theorem State.leaveError_msgin : s.leaveError.msgin = s.msgin := rfl
@[simp] theorem State.leaveError_msgout : s.leaveError.msgout = s.msgout := rfl
@[simp] theorem State.leaveError_pend : s.leaveError.pend = s.pend := rfl
@[simp] theorem State.leaveError_agenda : s.leaveError.agenda = s.agenda := rfl
@[simp] theorem State.leaveError_rdata : s.leaveError.rdata = s.rdata := rfl
@[simp] theorem State.leaveError_draws : s.leaveError.draws = s.draws := rfl
@[simp] theorem State.leaveError_num : s.leaveError.num = s.num := rfl
@[simp] theorem State.leaveError_nblk : s.leaveError.nblk = s.nblk := rfl
@[simp] theorem State.leaveError_lbits : s.leaveError.lbits = s.lbits := rfl
@[simp] theorem State.leaveError_imageTooLarge : s.leaveError.imageTooLarge = s.imageTooLarge := rfl
@[simp] theorem State.leaveError_imgAt (b : Nat) : s.leaveError.imgAt b = s.imgAt b := rfl
@[simp] theorem State.leaveError_msginAt (b : Nat) : s.leaveError.msginAt b = s.msginAt b := rfl
@[simp] theorem State.leaveError_msgoutAt (b : Nat) : s.leaveError.msgoutAt b = s.msgoutAt b := rfl
@[simp] theorem State.leaveError_sampleAddr (i j : Fin 8) : s.leaveError.sampleAddr i j = s.sampleAddr i j := rfl
@[simp] theorem State.leaveError_frameBit (j : Nat) : s.leaveError.frameBit j = s.frameBit j := rfl

/-! ### `resetRegisters` -/

@[simp] theorem State.resetRegisters_inst : s.resetRegisters.inst = s.inst := rfl
@[simp] theorem State.resetRegisters_mode : s.resetRegisters.mode = .idle := rfl
@[simp] theorem State.resetRegisters_done : s.resetRegisters.done = false := rfl
@[simp] theorem State.resetRegisters_hzd : s.resetRegisters.hzd = false := rfl
@[simp] theorem State.resetRegisters_uterm : s.resetRegisters.uterm = false := rfl
@[simp] theorem State.resetRegisters_stopc : s.resetRegisters.stopc = .none := rfl
@[simp] theorem State.resetRegisters_err : s.resetRegisters.err = 0 := rfl
@[simp] theorem State.resetRegisters_errinfo0 : s.resetRegisters.errinfo0 = 0 := rfl
@[simp] theorem State.resetRegisters_errinfo1 : s.resetRegisters.errinfo1 = 0 := rfl
@[simp] theorem State.resetRegisters_expen : s.resetRegisters.expen = false := rfl
@[simp] theorem State.resetRegisters_width : s.resetRegisters.width = 0 := rfl
@[simp] theorem State.resetRegisters_height : s.resetRegisters.height = 0 := rfl
@[simp] theorem State.resetRegisters_msglen : s.resetRegisters.msglen = 0 := rfl
@[simp] theorem State.resetRegisters_explen : s.resetRegisters.explen = 0 := rfl
@[simp] theorem State.resetRegisters_bidx : s.resetRegisters.bidx = 0 := rfl
@[simp] theorem State.resetRegisters_bit : s.resetRegisters.bit = false := rfl
@[simp] theorem State.resetRegisters_fpos : s.resetRegisters.fpos = 0 := rfl
@[simp] theorem State.resetRegisters_uacc : s.resetRegisters.uacc = 0 := rfl
@[simp] theorem State.resetRegisters_ucnt : s.resetRegisters.ucnt = 0 := rfl
@[simp] theorem State.resetRegisters_ubits : s.resetRegisters.ubits = 0 := rfl
@[simp] theorem State.resetRegisters_uout : s.resetRegisters.uout = 0 := rfl
@[simp] theorem State.resetRegisters_outlen : s.resetRegisters.outlen = 0 := rfl
@[simp] theorem State.resetRegisters_alpha : s.resetRegisters.alpha = s.num.alphaReset := rfl
@[simp] theorem State.resetRegisters_blk : s.resetRegisters.blk = Vector.replicate 64 s.num.zero := rfl
@[simp] theorem State.resetRegisters_coef : s.resetRegisters.coef = Vector.replicate 64 s.num.zero := rfl
@[simp] theorem State.resetRegisters_img : s.resetRegisters.img = s.img := rfl
@[simp] theorem State.resetRegisters_msgin : s.resetRegisters.msgin = s.msgin := rfl
@[simp] theorem State.resetRegisters_msgout : s.resetRegisters.msgout = s.msgout := rfl
@[simp] theorem State.resetRegisters_pend : s.resetRegisters.pend = none := rfl
@[simp] theorem State.resetRegisters_agenda : s.resetRegisters.agenda = s.agenda := rfl
@[simp] theorem State.resetRegisters_rdata : s.resetRegisters.rdata = s.rdata := rfl
@[simp] theorem State.resetRegisters_draws : s.resetRegisters.draws = s.draws := rfl
@[simp] theorem State.resetRegisters_num : s.resetRegisters.num = s.num := rfl
@[simp] theorem State.resetRegisters_imgAt (b : Nat) : s.resetRegisters.imgAt b = s.imgAt b := rfl
@[simp] theorem State.resetRegisters_msginAt (b : Nat) : s.resetRegisters.msginAt b = s.msginAt b := rfl
@[simp] theorem State.resetRegisters_msgoutAt (b : Nat) : s.resetRegisters.msgoutAt b = s.msgoutAt b := rfl

/-! ### `accept` -/

@[simp] theorem State.accept_inst (op : BitVec 8) : (s.accept op).inst = s.inst := rfl
@[simp] theorem State.accept_mode (op : BitVec 8) : (s.accept op).mode = .busy := rfl
@[simp] theorem State.accept_done (op : BitVec 8) : (s.accept op).done = false := rfl
@[simp] theorem State.accept_hzd (op : BitVec 8) : (s.accept op).hzd = s.hzd := rfl
@[simp] theorem State.accept_uterm (op : BitVec 8) : (s.accept op).uterm = s.uterm := rfl
@[simp] theorem State.accept_stopc (op : BitVec 8) : (s.accept op).stopc = s.stopc := rfl
@[simp] theorem State.accept_err (op : BitVec 8) : (s.accept op).err = s.err := rfl
@[simp] theorem State.accept_errinfo0 (op : BitVec 8) : (s.accept op).errinfo0 = s.errinfo0 := rfl
@[simp] theorem State.accept_errinfo1 (op : BitVec 8) : (s.accept op).errinfo1 = s.errinfo1 := rfl
@[simp] theorem State.accept_expen (op : BitVec 8) : (s.accept op).expen = s.expen := rfl
@[simp] theorem State.accept_width (op : BitVec 8) : (s.accept op).width = s.width := rfl
@[simp] theorem State.accept_height (op : BitVec 8) : (s.accept op).height = s.height := rfl
@[simp] theorem State.accept_msglen (op : BitVec 8) : (s.accept op).msglen = s.msglen := rfl
@[simp] theorem State.accept_explen (op : BitVec 8) : (s.accept op).explen = s.explen := rfl
@[simp] theorem State.accept_bidx (op : BitVec 8) : (s.accept op).bidx = s.bidx := rfl
@[simp] theorem State.accept_bit (op : BitVec 8) : (s.accept op).bit = s.bit := rfl
@[simp] theorem State.accept_fpos (op : BitVec 8) : (s.accept op).fpos = s.fpos := rfl
@[simp] theorem State.accept_uacc (op : BitVec 8) : (s.accept op).uacc = s.uacc := rfl
@[simp] theorem State.accept_ucnt (op : BitVec 8) : (s.accept op).ucnt = s.ucnt := rfl
@[simp] theorem State.accept_ubits (op : BitVec 8) : (s.accept op).ubits = s.ubits := rfl
@[simp] theorem State.accept_uout (op : BitVec 8) : (s.accept op).uout = s.uout := rfl
@[simp] theorem State.accept_outlen (op : BitVec 8) : (s.accept op).outlen = s.outlen := rfl
@[simp] theorem State.accept_alpha (op : BitVec 8) : (s.accept op).alpha = s.alpha := rfl
@[simp] theorem State.accept_blk (op : BitVec 8) : (s.accept op).blk = s.blk := rfl
@[simp] theorem State.accept_coef (op : BitVec 8) : (s.accept op).coef = s.coef := rfl
@[simp] theorem State.accept_img (op : BitVec 8) : (s.accept op).img = s.img := rfl
@[simp] theorem State.accept_msgin (op : BitVec 8) : (s.accept op).msgin = s.msgin := rfl
@[simp] theorem State.accept_msgout (op : BitVec 8) : (s.accept op).msgout = s.msgout := rfl
@[simp] theorem State.accept_pend (op : BitVec 8) : (s.accept op).pend = some op := rfl
@[simp] theorem State.accept_agenda (op : BitVec 8) : (s.accept op).agenda = s.agenda := rfl
@[simp] theorem State.accept_rdata (op : BitVec 8) : (s.accept op).rdata = s.rdata := rfl
@[simp] theorem State.accept_draws (op : BitVec 8) : (s.accept op).draws = s.draws := rfl
@[simp] theorem State.accept_num (op : BitVec 8) : (s.accept op).num = s.num := rfl
@[simp] theorem State.accept_nblk (op : BitVec 8) : (s.accept op).nblk = s.nblk := rfl
@[simp] theorem State.accept_lbits (op : BitVec 8) : (s.accept op).lbits = s.lbits := rfl
@[simp] theorem State.accept_imageTooLarge (op : BitVec 8) : (s.accept op).imageTooLarge = s.imageTooLarge := rfl
@[simp] theorem State.accept_imgAt (op : BitVec 8) (b : Nat) : (s.accept op).imgAt b = s.imgAt b := rfl
@[simp] theorem State.accept_msginAt (op : BitVec 8) (b : Nat) : (s.accept op).msginAt b = s.msginAt b := rfl
@[simp] theorem State.accept_msgoutAt (op : BitVec 8) (b : Nat) : (s.accept op).msgoutAt b = s.msgoutAt b := rfl
@[simp] theorem State.accept_sampleAddr (op : BitVec 8) (i j : Fin 8) : (s.accept op).sampleAddr i j = s.sampleAddr i j := rfl
@[simp] theorem State.accept_frameBit (op : BitVec 8) (j : Nat) : (s.accept op).frameBit j = s.frameBit j := rfl

/-! ### `hazard` -/

@[simp] theorem State.hazard_inst : s.hazard.inst = s.inst := rfl
@[simp] theorem State.hazard_mode : s.hazard.mode = s.mode := rfl
@[simp] theorem State.hazard_done : s.hazard.done = s.done := rfl
@[simp] theorem State.hazard_hzd : s.hazard.hzd = true := rfl
@[simp] theorem State.hazard_uterm : s.hazard.uterm = s.uterm := rfl
@[simp] theorem State.hazard_stopc : s.hazard.stopc = s.stopc := rfl
@[simp] theorem State.hazard_err : s.hazard.err = s.err := rfl
@[simp] theorem State.hazard_errinfo0 : s.hazard.errinfo0 = s.errinfo0 := rfl
@[simp] theorem State.hazard_errinfo1 : s.hazard.errinfo1 = s.errinfo1 := rfl
@[simp] theorem State.hazard_expen : s.hazard.expen = s.expen := rfl
@[simp] theorem State.hazard_width : s.hazard.width = s.width := rfl
@[simp] theorem State.hazard_height : s.hazard.height = s.height := rfl
@[simp] theorem State.hazard_msglen : s.hazard.msglen = s.msglen := rfl
@[simp] theorem State.hazard_explen : s.hazard.explen = s.explen := rfl
@[simp] theorem State.hazard_bidx : s.hazard.bidx = s.bidx := rfl
@[simp] theorem State.hazard_bit : s.hazard.bit = s.bit := rfl
@[simp] theorem State.hazard_fpos : s.hazard.fpos = s.fpos := rfl
@[simp] theorem State.hazard_uacc : s.hazard.uacc = s.uacc := rfl
@[simp] theorem State.hazard_ucnt : s.hazard.ucnt = s.ucnt := rfl
@[simp] theorem State.hazard_ubits : s.hazard.ubits = s.ubits := rfl
@[simp] theorem State.hazard_uout : s.hazard.uout = s.uout := rfl
@[simp] theorem State.hazard_outlen : s.hazard.outlen = s.outlen := rfl
@[simp] theorem State.hazard_alpha : s.hazard.alpha = s.alpha := rfl
@[simp] theorem State.hazard_blk : s.hazard.blk = s.blk := rfl
@[simp] theorem State.hazard_coef : s.hazard.coef = s.coef := rfl
@[simp] theorem State.hazard_img : s.hazard.img = s.img := rfl
@[simp] theorem State.hazard_msgin : s.hazard.msgin = s.msgin := rfl
@[simp] theorem State.hazard_msgout : s.hazard.msgout = s.msgout := rfl
@[simp] theorem State.hazard_pend : s.hazard.pend = s.pend := rfl
@[simp] theorem State.hazard_agenda : s.hazard.agenda = s.agenda := rfl
@[simp] theorem State.hazard_rdata : s.hazard.rdata = s.rdata := rfl
@[simp] theorem State.hazard_draws : s.hazard.draws = s.draws := rfl
@[simp] theorem State.hazard_num : s.hazard.num = s.num := rfl
@[simp] theorem State.hazard_nblk : s.hazard.nblk = s.nblk := rfl
@[simp] theorem State.hazard_lbits : s.hazard.lbits = s.lbits := rfl
@[simp] theorem State.hazard_imageTooLarge : s.hazard.imageTooLarge = s.imageTooLarge := rfl
@[simp] theorem State.hazard_imgAt (b : Nat) : s.hazard.imgAt b = s.imgAt b := rfl
@[simp] theorem State.hazard_msginAt (b : Nat) : s.hazard.msginAt b = s.msginAt b := rfl
@[simp] theorem State.hazard_msgoutAt (b : Nat) : s.hazard.msgoutAt b = s.msgoutAt b := rfl
@[simp] theorem State.hazard_sampleAddr (i j : Fin 8) : s.hazard.sampleAddr i j = s.sampleAddr i j := rfl
@[simp] theorem State.hazard_frameBit (j : Nat) : s.hazard.frameBit j = s.frameBit j := rfl

/-! ### `returnCell` -/

@[simp] theorem State.returnCell_inst (sp : Space) (i : Nat) : (s.returnCell sp i).inst = s.inst := rfl
@[simp] theorem State.returnCell_mode (sp : Space) (i : Nat) : (s.returnCell sp i).mode = s.mode := rfl
@[simp] theorem State.returnCell_done (sp : Space) (i : Nat) : (s.returnCell sp i).done = s.done := rfl
@[simp] theorem State.returnCell_hzd (sp : Space) (i : Nat) : (s.returnCell sp i).hzd = s.hzd := rfl
@[simp] theorem State.returnCell_uterm (sp : Space) (i : Nat) : (s.returnCell sp i).uterm = s.uterm := rfl
@[simp] theorem State.returnCell_stopc (sp : Space) (i : Nat) : (s.returnCell sp i).stopc = s.stopc := rfl
@[simp] theorem State.returnCell_err (sp : Space) (i : Nat) : (s.returnCell sp i).err = s.err := rfl
@[simp] theorem State.returnCell_errinfo0 (sp : Space) (i : Nat) : (s.returnCell sp i).errinfo0 = s.errinfo0 := rfl
@[simp] theorem State.returnCell_errinfo1 (sp : Space) (i : Nat) : (s.returnCell sp i).errinfo1 = s.errinfo1 := rfl
@[simp] theorem State.returnCell_expen (sp : Space) (i : Nat) : (s.returnCell sp i).expen = s.expen := rfl
@[simp] theorem State.returnCell_width (sp : Space) (i : Nat) : (s.returnCell sp i).width = s.width := rfl
@[simp] theorem State.returnCell_height (sp : Space) (i : Nat) : (s.returnCell sp i).height = s.height := rfl
@[simp] theorem State.returnCell_msglen (sp : Space) (i : Nat) : (s.returnCell sp i).msglen = s.msglen := rfl
@[simp] theorem State.returnCell_explen (sp : Space) (i : Nat) : (s.returnCell sp i).explen = s.explen := rfl
@[simp] theorem State.returnCell_bidx (sp : Space) (i : Nat) : (s.returnCell sp i).bidx = s.bidx := rfl
@[simp] theorem State.returnCell_bit (sp : Space) (i : Nat) : (s.returnCell sp i).bit = s.bit := rfl
@[simp] theorem State.returnCell_fpos (sp : Space) (i : Nat) : (s.returnCell sp i).fpos = s.fpos := rfl
@[simp] theorem State.returnCell_uacc (sp : Space) (i : Nat) : (s.returnCell sp i).uacc = s.uacc := rfl
@[simp] theorem State.returnCell_ucnt (sp : Space) (i : Nat) : (s.returnCell sp i).ucnt = s.ucnt := rfl
@[simp] theorem State.returnCell_ubits (sp : Space) (i : Nat) : (s.returnCell sp i).ubits = s.ubits := rfl
@[simp] theorem State.returnCell_uout (sp : Space) (i : Nat) : (s.returnCell sp i).uout = s.uout := rfl
@[simp] theorem State.returnCell_outlen (sp : Space) (i : Nat) : (s.returnCell sp i).outlen = s.outlen := rfl
@[simp] theorem State.returnCell_alpha (sp : Space) (i : Nat) : (s.returnCell sp i).alpha = s.alpha := rfl
@[simp] theorem State.returnCell_blk (sp : Space) (i : Nat) : (s.returnCell sp i).blk = s.blk := rfl
@[simp] theorem State.returnCell_coef (sp : Space) (i : Nat) : (s.returnCell sp i).coef = s.coef := rfl
@[simp] theorem State.returnCell_img (sp : Space) (i : Nat) : (s.returnCell sp i).img = s.img := rfl
@[simp] theorem State.returnCell_msgin (sp : Space) (i : Nat) : (s.returnCell sp i).msgin = s.msgin := rfl
@[simp] theorem State.returnCell_msgout (sp : Space) (i : Nat) : (s.returnCell sp i).msgout = s.msgout := rfl
@[simp] theorem State.returnCell_pend (sp : Space) (i : Nat) : (s.returnCell sp i).pend = s.pend := rfl
@[simp] theorem State.returnCell_agenda (sp : Space) (i : Nat) : (s.returnCell sp i).agenda = s.agenda := rfl
@[simp] theorem State.returnCell_rdata (sp : Space) (i : Nat) : (s.returnCell sp i).rdata = some (s.cellAt sp i) := rfl
@[simp] theorem State.returnCell_draws (sp : Space) (i : Nat) : (s.returnCell sp i).draws = s.draws := rfl
@[simp] theorem State.returnCell_num (sp : Space) (i : Nat) : (s.returnCell sp i).num = s.num := rfl
@[simp] theorem State.returnCell_nblk (sp : Space) (i : Nat) : (s.returnCell sp i).nblk = s.nblk := rfl
@[simp] theorem State.returnCell_lbits (sp : Space) (i : Nat) : (s.returnCell sp i).lbits = s.lbits := rfl
@[simp] theorem State.returnCell_imageTooLarge (sp : Space) (i : Nat) : (s.returnCell sp i).imageTooLarge = s.imageTooLarge := rfl
@[simp] theorem State.returnCell_imgAt (sp : Space) (i : Nat) (b : Nat) : (s.returnCell sp i).imgAt b = s.imgAt b := rfl
@[simp] theorem State.returnCell_msginAt (sp : Space) (i : Nat) (b : Nat) : (s.returnCell sp i).msginAt b = s.msginAt b := rfl
@[simp] theorem State.returnCell_msgoutAt (sp : Space) (i : Nat) (b : Nat) : (s.returnCell sp i).msgoutAt b = s.msgoutAt b := rfl
@[simp] theorem State.returnCell_sampleAddr (sp : Space) (i : Nat) (j k : Fin 8) : (s.returnCell sp i).sampleAddr j k = s.sampleAddr j k := rfl
@[simp] theorem State.returnCell_frameBit (sp : Space) (i : Nat) (j : Nat) : (s.returnCell sp i).frameBit j = s.frameBit j := rfl

/-! ### `returnFree` -/

@[simp] theorem State.returnFree_inst (sp : Space) : (s.returnFree sp).inst = s.inst := rfl
@[simp] theorem State.returnFree_mode (sp : Space) : (s.returnFree sp).mode = s.mode := rfl
@[simp] theorem State.returnFree_done (sp : Space) : (s.returnFree sp).done = s.done := rfl
@[simp] theorem State.returnFree_hzd (sp : Space) : (s.returnFree sp).hzd = s.hzd := rfl
@[simp] theorem State.returnFree_uterm (sp : Space) : (s.returnFree sp).uterm = s.uterm := rfl
@[simp] theorem State.returnFree_stopc (sp : Space) : (s.returnFree sp).stopc = s.stopc := rfl
@[simp] theorem State.returnFree_err (sp : Space) : (s.returnFree sp).err = s.err := rfl
@[simp] theorem State.returnFree_errinfo0 (sp : Space) : (s.returnFree sp).errinfo0 = s.errinfo0 := rfl
@[simp] theorem State.returnFree_errinfo1 (sp : Space) : (s.returnFree sp).errinfo1 = s.errinfo1 := rfl
@[simp] theorem State.returnFree_expen (sp : Space) : (s.returnFree sp).expen = s.expen := rfl
@[simp] theorem State.returnFree_width (sp : Space) : (s.returnFree sp).width = s.width := rfl
@[simp] theorem State.returnFree_height (sp : Space) : (s.returnFree sp).height = s.height := rfl
@[simp] theorem State.returnFree_msglen (sp : Space) : (s.returnFree sp).msglen = s.msglen := rfl
@[simp] theorem State.returnFree_explen (sp : Space) : (s.returnFree sp).explen = s.explen := rfl
@[simp] theorem State.returnFree_bidx (sp : Space) : (s.returnFree sp).bidx = s.bidx := rfl
@[simp] theorem State.returnFree_bit (sp : Space) : (s.returnFree sp).bit = s.bit := rfl
@[simp] theorem State.returnFree_fpos (sp : Space) : (s.returnFree sp).fpos = s.fpos := rfl
@[simp] theorem State.returnFree_uacc (sp : Space) : (s.returnFree sp).uacc = s.uacc := rfl
@[simp] theorem State.returnFree_ucnt (sp : Space) : (s.returnFree sp).ucnt = s.ucnt := rfl
@[simp] theorem State.returnFree_ubits (sp : Space) : (s.returnFree sp).ubits = s.ubits := rfl
@[simp] theorem State.returnFree_uout (sp : Space) : (s.returnFree sp).uout = s.uout := rfl
@[simp] theorem State.returnFree_outlen (sp : Space) : (s.returnFree sp).outlen = s.outlen := rfl
@[simp] theorem State.returnFree_alpha (sp : Space) : (s.returnFree sp).alpha = s.alpha := rfl
@[simp] theorem State.returnFree_blk (sp : Space) : (s.returnFree sp).blk = s.blk := rfl
@[simp] theorem State.returnFree_coef (sp : Space) : (s.returnFree sp).coef = s.coef := rfl
@[simp] theorem State.returnFree_img (sp : Space) : (s.returnFree sp).img = s.img := rfl
@[simp] theorem State.returnFree_msgin (sp : Space) : (s.returnFree sp).msgin = s.msgin := rfl
@[simp] theorem State.returnFree_msgout (sp : Space) : (s.returnFree sp).msgout = s.msgout := rfl
@[simp] theorem State.returnFree_pend (sp : Space) : (s.returnFree sp).pend = s.pend := rfl
@[simp] theorem State.returnFree_agenda (sp : Space) : (s.returnFree sp).agenda = s.agenda := rfl
@[simp] theorem State.returnFree_rdata (sp : Space) : (s.returnFree sp).rdata = some (s.freeData sp) := rfl
@[simp] theorem State.returnFree_draws (sp : Space) : (s.returnFree sp).draws = s.draws + 1 := rfl
@[simp] theorem State.returnFree_num (sp : Space) : (s.returnFree sp).num = s.num := rfl
@[simp] theorem State.returnFree_nblk (sp : Space) : (s.returnFree sp).nblk = s.nblk := rfl
@[simp] theorem State.returnFree_lbits (sp : Space) : (s.returnFree sp).lbits = s.lbits := rfl
@[simp] theorem State.returnFree_imageTooLarge (sp : Space) : (s.returnFree sp).imageTooLarge = s.imageTooLarge := rfl
@[simp] theorem State.returnFree_imgAt (sp : Space) (b : Nat) : (s.returnFree sp).imgAt b = s.imgAt b := rfl
@[simp] theorem State.returnFree_msginAt (sp : Space) (b : Nat) : (s.returnFree sp).msginAt b = s.msginAt b := rfl
@[simp] theorem State.returnFree_msgoutAt (sp : Space) (b : Nat) : (s.returnFree sp).msgoutAt b = s.msgoutAt b := rfl
@[simp] theorem State.returnFree_sampleAddr (sp : Space) (i j : Fin 8) : (s.returnFree sp).sampleAddr i j = s.sampleAddr i j := rfl
@[simp] theorem State.returnFree_frameBit (sp : Space) (j : Nat) : (s.returnFree sp).frameBit j = s.frameBit j := rfl

/-! ### `setImg` -/

@[simp] theorem State.setImg_inst (a : Nat) (v : Sample) : (s.setImg a v).inst = s.inst := rfl
@[simp] theorem State.setImg_mode (a : Nat) (v : Sample) : (s.setImg a v).mode = s.mode := rfl
@[simp] theorem State.setImg_done (a : Nat) (v : Sample) : (s.setImg a v).done = s.done := rfl
@[simp] theorem State.setImg_hzd (a : Nat) (v : Sample) : (s.setImg a v).hzd = s.hzd := rfl
@[simp] theorem State.setImg_uterm (a : Nat) (v : Sample) : (s.setImg a v).uterm = s.uterm := rfl
@[simp] theorem State.setImg_stopc (a : Nat) (v : Sample) : (s.setImg a v).stopc = s.stopc := rfl
@[simp] theorem State.setImg_err (a : Nat) (v : Sample) : (s.setImg a v).err = s.err := rfl
@[simp] theorem State.setImg_errinfo0 (a : Nat) (v : Sample) : (s.setImg a v).errinfo0 = s.errinfo0 := rfl
@[simp] theorem State.setImg_errinfo1 (a : Nat) (v : Sample) : (s.setImg a v).errinfo1 = s.errinfo1 := rfl
@[simp] theorem State.setImg_expen (a : Nat) (v : Sample) : (s.setImg a v).expen = s.expen := rfl
@[simp] theorem State.setImg_width (a : Nat) (v : Sample) : (s.setImg a v).width = s.width := rfl
@[simp] theorem State.setImg_height (a : Nat) (v : Sample) : (s.setImg a v).height = s.height := rfl
@[simp] theorem State.setImg_msglen (a : Nat) (v : Sample) : (s.setImg a v).msglen = s.msglen := rfl
@[simp] theorem State.setImg_explen (a : Nat) (v : Sample) : (s.setImg a v).explen = s.explen := rfl
@[simp] theorem State.setImg_bidx (a : Nat) (v : Sample) : (s.setImg a v).bidx = s.bidx := rfl
@[simp] theorem State.setImg_bit (a : Nat) (v : Sample) : (s.setImg a v).bit = s.bit := rfl
@[simp] theorem State.setImg_fpos (a : Nat) (v : Sample) : (s.setImg a v).fpos = s.fpos := rfl
@[simp] theorem State.setImg_uacc (a : Nat) (v : Sample) : (s.setImg a v).uacc = s.uacc := rfl
@[simp] theorem State.setImg_ucnt (a : Nat) (v : Sample) : (s.setImg a v).ucnt = s.ucnt := rfl
@[simp] theorem State.setImg_ubits (a : Nat) (v : Sample) : (s.setImg a v).ubits = s.ubits := rfl
@[simp] theorem State.setImg_uout (a : Nat) (v : Sample) : (s.setImg a v).uout = s.uout := rfl
@[simp] theorem State.setImg_outlen (a : Nat) (v : Sample) : (s.setImg a v).outlen = s.outlen := rfl
@[simp] theorem State.setImg_alpha (a : Nat) (v : Sample) : (s.setImg a v).alpha = s.alpha := rfl
@[simp] theorem State.setImg_blk (a : Nat) (v : Sample) : (s.setImg a v).blk = s.blk := rfl
@[simp] theorem State.setImg_coef (a : Nat) (v : Sample) : (s.setImg a v).coef = s.coef := rfl
@[simp] theorem State.setImg_img (a : Nat) (v : Sample) : (s.setImg a v).img = Mem.write s.img a v := rfl
@[simp] theorem State.setImg_msgin (a : Nat) (v : Sample) : (s.setImg a v).msgin = s.msgin := rfl
@[simp] theorem State.setImg_msgout (a : Nat) (v : Sample) : (s.setImg a v).msgout = s.msgout := rfl
@[simp] theorem State.setImg_pend (a : Nat) (v : Sample) : (s.setImg a v).pend = s.pend := rfl
@[simp] theorem State.setImg_agenda (a : Nat) (v : Sample) : (s.setImg a v).agenda = s.agenda := rfl
@[simp] theorem State.setImg_rdata (a : Nat) (v : Sample) : (s.setImg a v).rdata = s.rdata := rfl
@[simp] theorem State.setImg_draws (a : Nat) (v : Sample) : (s.setImg a v).draws = s.draws := rfl
@[simp] theorem State.setImg_num (a : Nat) (v : Sample) : (s.setImg a v).num = s.num := rfl
@[simp] theorem State.setImg_nblk (a : Nat) (v : Sample) : (s.setImg a v).nblk = s.nblk := rfl
@[simp] theorem State.setImg_lbits (a : Nat) (v : Sample) : (s.setImg a v).lbits = s.lbits := rfl
@[simp] theorem State.setImg_imageTooLarge (a : Nat) (v : Sample) : (s.setImg a v).imageTooLarge = s.imageTooLarge := rfl
@[simp] theorem State.setImg_msginAt (a : Nat) (v : Sample) (b : Nat) : (s.setImg a v).msginAt b = s.msginAt b := rfl
@[simp] theorem State.setImg_msgoutAt (a : Nat) (v : Sample) (b : Nat) : (s.setImg a v).msgoutAt b = s.msgoutAt b := rfl
@[simp] theorem State.setImg_sampleAddr (a : Nat) (v : Sample) (i j : Fin 8) : (s.setImg a v).sampleAddr i j = s.sampleAddr i j := rfl
@[simp] theorem State.setImg_frameBit (a : Nat) (v : Sample) (j : Nat) : (s.setImg a v).frameBit j = s.frameBit j := rfl

/-! ### `setMsgin` -/

@[simp] theorem State.setMsgin_inst (a : Nat) (v : Byte) : (s.setMsgin a v).inst = s.inst := rfl
@[simp] theorem State.setMsgin_mode (a : Nat) (v : Byte) : (s.setMsgin a v).mode = s.mode := rfl
@[simp] theorem State.setMsgin_done (a : Nat) (v : Byte) : (s.setMsgin a v).done = s.done := rfl
@[simp] theorem State.setMsgin_hzd (a : Nat) (v : Byte) : (s.setMsgin a v).hzd = s.hzd := rfl
@[simp] theorem State.setMsgin_uterm (a : Nat) (v : Byte) : (s.setMsgin a v).uterm = s.uterm := rfl
@[simp] theorem State.setMsgin_stopc (a : Nat) (v : Byte) : (s.setMsgin a v).stopc = s.stopc := rfl
@[simp] theorem State.setMsgin_err (a : Nat) (v : Byte) : (s.setMsgin a v).err = s.err := rfl
@[simp] theorem State.setMsgin_errinfo0 (a : Nat) (v : Byte) : (s.setMsgin a v).errinfo0 = s.errinfo0 := rfl
@[simp] theorem State.setMsgin_errinfo1 (a : Nat) (v : Byte) : (s.setMsgin a v).errinfo1 = s.errinfo1 := rfl
@[simp] theorem State.setMsgin_expen (a : Nat) (v : Byte) : (s.setMsgin a v).expen = s.expen := rfl
@[simp] theorem State.setMsgin_width (a : Nat) (v : Byte) : (s.setMsgin a v).width = s.width := rfl
@[simp] theorem State.setMsgin_height (a : Nat) (v : Byte) : (s.setMsgin a v).height = s.height := rfl
@[simp] theorem State.setMsgin_msglen (a : Nat) (v : Byte) : (s.setMsgin a v).msglen = s.msglen := rfl
@[simp] theorem State.setMsgin_explen (a : Nat) (v : Byte) : (s.setMsgin a v).explen = s.explen := rfl
@[simp] theorem State.setMsgin_bidx (a : Nat) (v : Byte) : (s.setMsgin a v).bidx = s.bidx := rfl
@[simp] theorem State.setMsgin_bit (a : Nat) (v : Byte) : (s.setMsgin a v).bit = s.bit := rfl
@[simp] theorem State.setMsgin_fpos (a : Nat) (v : Byte) : (s.setMsgin a v).fpos = s.fpos := rfl
@[simp] theorem State.setMsgin_uacc (a : Nat) (v : Byte) : (s.setMsgin a v).uacc = s.uacc := rfl
@[simp] theorem State.setMsgin_ucnt (a : Nat) (v : Byte) : (s.setMsgin a v).ucnt = s.ucnt := rfl
@[simp] theorem State.setMsgin_ubits (a : Nat) (v : Byte) : (s.setMsgin a v).ubits = s.ubits := rfl
@[simp] theorem State.setMsgin_uout (a : Nat) (v : Byte) : (s.setMsgin a v).uout = s.uout := rfl
@[simp] theorem State.setMsgin_outlen (a : Nat) (v : Byte) : (s.setMsgin a v).outlen = s.outlen := rfl
@[simp] theorem State.setMsgin_alpha (a : Nat) (v : Byte) : (s.setMsgin a v).alpha = s.alpha := rfl
@[simp] theorem State.setMsgin_blk (a : Nat) (v : Byte) : (s.setMsgin a v).blk = s.blk := rfl
@[simp] theorem State.setMsgin_coef (a : Nat) (v : Byte) : (s.setMsgin a v).coef = s.coef := rfl
@[simp] theorem State.setMsgin_img (a : Nat) (v : Byte) : (s.setMsgin a v).img = s.img := rfl
@[simp] theorem State.setMsgin_msgin (a : Nat) (v : Byte) : (s.setMsgin a v).msgin = Mem.write s.msgin a v := rfl
@[simp] theorem State.setMsgin_msgout (a : Nat) (v : Byte) : (s.setMsgin a v).msgout = s.msgout := rfl
@[simp] theorem State.setMsgin_pend (a : Nat) (v : Byte) : (s.setMsgin a v).pend = s.pend := rfl
@[simp] theorem State.setMsgin_agenda (a : Nat) (v : Byte) : (s.setMsgin a v).agenda = s.agenda := rfl
@[simp] theorem State.setMsgin_rdata (a : Nat) (v : Byte) : (s.setMsgin a v).rdata = s.rdata := rfl
@[simp] theorem State.setMsgin_draws (a : Nat) (v : Byte) : (s.setMsgin a v).draws = s.draws := rfl
@[simp] theorem State.setMsgin_num (a : Nat) (v : Byte) : (s.setMsgin a v).num = s.num := rfl
@[simp] theorem State.setMsgin_nblk (a : Nat) (v : Byte) : (s.setMsgin a v).nblk = s.nblk := rfl
@[simp] theorem State.setMsgin_lbits (a : Nat) (v : Byte) : (s.setMsgin a v).lbits = s.lbits := rfl
@[simp] theorem State.setMsgin_imageTooLarge (a : Nat) (v : Byte) : (s.setMsgin a v).imageTooLarge = s.imageTooLarge := rfl
@[simp] theorem State.setMsgin_imgAt (a : Nat) (v : Byte) (b : Nat) : (s.setMsgin a v).imgAt b = s.imgAt b := rfl
@[simp] theorem State.setMsgin_msgoutAt (a : Nat) (v : Byte) (b : Nat) : (s.setMsgin a v).msgoutAt b = s.msgoutAt b := rfl
@[simp] theorem State.setMsgin_sampleAddr (a : Nat) (v : Byte) (i j : Fin 8) : (s.setMsgin a v).sampleAddr i j = s.sampleAddr i j := rfl

/-! ### `setMsgout` -/

@[simp] theorem State.setMsgout_inst (a : Nat) (v : Byte) : (s.setMsgout a v).inst = s.inst := rfl
@[simp] theorem State.setMsgout_mode (a : Nat) (v : Byte) : (s.setMsgout a v).mode = s.mode := rfl
@[simp] theorem State.setMsgout_done (a : Nat) (v : Byte) : (s.setMsgout a v).done = s.done := rfl
@[simp] theorem State.setMsgout_hzd (a : Nat) (v : Byte) : (s.setMsgout a v).hzd = s.hzd := rfl
@[simp] theorem State.setMsgout_uterm (a : Nat) (v : Byte) : (s.setMsgout a v).uterm = s.uterm := rfl
@[simp] theorem State.setMsgout_stopc (a : Nat) (v : Byte) : (s.setMsgout a v).stopc = s.stopc := rfl
@[simp] theorem State.setMsgout_err (a : Nat) (v : Byte) : (s.setMsgout a v).err = s.err := rfl
@[simp] theorem State.setMsgout_errinfo0 (a : Nat) (v : Byte) : (s.setMsgout a v).errinfo0 = s.errinfo0 := rfl
@[simp] theorem State.setMsgout_errinfo1 (a : Nat) (v : Byte) : (s.setMsgout a v).errinfo1 = s.errinfo1 := rfl
@[simp] theorem State.setMsgout_expen (a : Nat) (v : Byte) : (s.setMsgout a v).expen = s.expen := rfl
@[simp] theorem State.setMsgout_width (a : Nat) (v : Byte) : (s.setMsgout a v).width = s.width := rfl
@[simp] theorem State.setMsgout_height (a : Nat) (v : Byte) : (s.setMsgout a v).height = s.height := rfl
@[simp] theorem State.setMsgout_msglen (a : Nat) (v : Byte) : (s.setMsgout a v).msglen = s.msglen := rfl
@[simp] theorem State.setMsgout_explen (a : Nat) (v : Byte) : (s.setMsgout a v).explen = s.explen := rfl
@[simp] theorem State.setMsgout_bidx (a : Nat) (v : Byte) : (s.setMsgout a v).bidx = s.bidx := rfl
@[simp] theorem State.setMsgout_bit (a : Nat) (v : Byte) : (s.setMsgout a v).bit = s.bit := rfl
@[simp] theorem State.setMsgout_fpos (a : Nat) (v : Byte) : (s.setMsgout a v).fpos = s.fpos := rfl
@[simp] theorem State.setMsgout_uacc (a : Nat) (v : Byte) : (s.setMsgout a v).uacc = s.uacc := rfl
@[simp] theorem State.setMsgout_ucnt (a : Nat) (v : Byte) : (s.setMsgout a v).ucnt = s.ucnt := rfl
@[simp] theorem State.setMsgout_ubits (a : Nat) (v : Byte) : (s.setMsgout a v).ubits = s.ubits := rfl
@[simp] theorem State.setMsgout_uout (a : Nat) (v : Byte) : (s.setMsgout a v).uout = s.uout := rfl
@[simp] theorem State.setMsgout_outlen (a : Nat) (v : Byte) : (s.setMsgout a v).outlen = s.outlen := rfl
@[simp] theorem State.setMsgout_alpha (a : Nat) (v : Byte) : (s.setMsgout a v).alpha = s.alpha := rfl
@[simp] theorem State.setMsgout_blk (a : Nat) (v : Byte) : (s.setMsgout a v).blk = s.blk := rfl
@[simp] theorem State.setMsgout_coef (a : Nat) (v : Byte) : (s.setMsgout a v).coef = s.coef := rfl
@[simp] theorem State.setMsgout_img (a : Nat) (v : Byte) : (s.setMsgout a v).img = s.img := rfl
@[simp] theorem State.setMsgout_msgin (a : Nat) (v : Byte) : (s.setMsgout a v).msgin = s.msgin := rfl
@[simp] theorem State.setMsgout_msgout (a : Nat) (v : Byte) : (s.setMsgout a v).msgout = Mem.write s.msgout a v := rfl
@[simp] theorem State.setMsgout_pend (a : Nat) (v : Byte) : (s.setMsgout a v).pend = s.pend := rfl
@[simp] theorem State.setMsgout_agenda (a : Nat) (v : Byte) : (s.setMsgout a v).agenda = s.agenda := rfl
@[simp] theorem State.setMsgout_rdata (a : Nat) (v : Byte) : (s.setMsgout a v).rdata = s.rdata := rfl
@[simp] theorem State.setMsgout_draws (a : Nat) (v : Byte) : (s.setMsgout a v).draws = s.draws := rfl
@[simp] theorem State.setMsgout_num (a : Nat) (v : Byte) : (s.setMsgout a v).num = s.num := rfl
@[simp] theorem State.setMsgout_nblk (a : Nat) (v : Byte) : (s.setMsgout a v).nblk = s.nblk := rfl
@[simp] theorem State.setMsgout_lbits (a : Nat) (v : Byte) : (s.setMsgout a v).lbits = s.lbits := rfl
@[simp] theorem State.setMsgout_imageTooLarge (a : Nat) (v : Byte) : (s.setMsgout a v).imageTooLarge = s.imageTooLarge := rfl
@[simp] theorem State.setMsgout_imgAt (a : Nat) (v : Byte) (b : Nat) : (s.setMsgout a v).imgAt b = s.imgAt b := rfl
@[simp] theorem State.setMsgout_msginAt (a : Nat) (v : Byte) (b : Nat) : (s.setMsgout a v).msginAt b = s.msginAt b := rfl
@[simp] theorem State.setMsgout_sampleAddr (a : Nat) (v : Byte) (i j : Fin 8) : (s.setMsgout a v).sampleAddr i j = s.sampleAddr i j := rfl
@[simp] theorem State.setMsgout_frameBit (a : Nat) (v : Byte) (j : Nat) : (s.setMsgout a v).frameBit j = s.frameBit j := rfl

/-! ### `loadBlock` -/

@[simp] theorem State.loadBlock_inst : s.loadBlock.inst = s.inst := rfl
@[simp] theorem State.loadBlock_mode : s.loadBlock.mode = s.mode := rfl
@[simp] theorem State.loadBlock_done : s.loadBlock.done = s.done := rfl
@[simp] theorem State.loadBlock_hzd : s.loadBlock.hzd = s.hzd := rfl
@[simp] theorem State.loadBlock_uterm : s.loadBlock.uterm = s.uterm := rfl
@[simp] theorem State.loadBlock_stopc : s.loadBlock.stopc = s.stopc := rfl
@[simp] theorem State.loadBlock_err : s.loadBlock.err = s.err := rfl
@[simp] theorem State.loadBlock_errinfo0 : s.loadBlock.errinfo0 = s.errinfo0 := rfl
@[simp] theorem State.loadBlock_errinfo1 : s.loadBlock.errinfo1 = s.errinfo1 := rfl
@[simp] theorem State.loadBlock_expen : s.loadBlock.expen = s.expen := rfl
@[simp] theorem State.loadBlock_width : s.loadBlock.width = s.width := rfl
@[simp] theorem State.loadBlock_height : s.loadBlock.height = s.height := rfl
@[simp] theorem State.loadBlock_msglen : s.loadBlock.msglen = s.msglen := rfl
@[simp] theorem State.loadBlock_explen : s.loadBlock.explen = s.explen := rfl
@[simp] theorem State.loadBlock_bidx : s.loadBlock.bidx = s.bidx := rfl
@[simp] theorem State.loadBlock_bit : s.loadBlock.bit = s.bit := rfl
@[simp] theorem State.loadBlock_fpos : s.loadBlock.fpos = s.fpos := rfl
@[simp] theorem State.loadBlock_uacc : s.loadBlock.uacc = s.uacc := rfl
@[simp] theorem State.loadBlock_ucnt : s.loadBlock.ucnt = s.ucnt := rfl
@[simp] theorem State.loadBlock_ubits : s.loadBlock.ubits = s.ubits := rfl
@[simp] theorem State.loadBlock_uout : s.loadBlock.uout = s.uout := rfl
@[simp] theorem State.loadBlock_outlen : s.loadBlock.outlen = s.outlen := rfl
@[simp] theorem State.loadBlock_alpha : s.loadBlock.alpha = s.alpha := rfl
@[simp] theorem State.loadBlock_blk : s.loadBlock.blk = Mat8.of fun r c => s.imgAt (s.sampleAddr r c) := rfl
@[simp] theorem State.loadBlock_coef : s.loadBlock.coef = s.coef := rfl
@[simp] theorem State.loadBlock_img : s.loadBlock.img = s.img := rfl
@[simp] theorem State.loadBlock_msgin : s.loadBlock.msgin = s.msgin := rfl
@[simp] theorem State.loadBlock_msgout : s.loadBlock.msgout = s.msgout := rfl
@[simp] theorem State.loadBlock_pend : s.loadBlock.pend = s.pend := rfl
@[simp] theorem State.loadBlock_agenda : s.loadBlock.agenda = s.agenda := rfl
@[simp] theorem State.loadBlock_rdata : s.loadBlock.rdata = s.rdata := rfl
@[simp] theorem State.loadBlock_draws : s.loadBlock.draws = s.draws := rfl
@[simp] theorem State.loadBlock_num : s.loadBlock.num = s.num := rfl
@[simp] theorem State.loadBlock_nblk : s.loadBlock.nblk = s.nblk := rfl
@[simp] theorem State.loadBlock_lbits : s.loadBlock.lbits = s.lbits := rfl
@[simp] theorem State.loadBlock_imageTooLarge : s.loadBlock.imageTooLarge = s.imageTooLarge := rfl
@[simp] theorem State.loadBlock_imgAt (b : Nat) : s.loadBlock.imgAt b = s.imgAt b := rfl
@[simp] theorem State.loadBlock_msginAt (b : Nat) : s.loadBlock.msginAt b = s.msginAt b := rfl
@[simp] theorem State.loadBlock_msgoutAt (b : Nat) : s.loadBlock.msgoutAt b = s.msgoutAt b := rfl
@[simp] theorem State.loadBlock_sampleAddr (i j : Fin 8) : s.loadBlock.sampleAddr i j = s.sampleAddr i j := rfl
@[simp] theorem State.loadBlock_frameBit (j : Nat) : s.loadBlock.frameBit j = s.frameBit j := rfl

/-! ### `storeBlock` -/

@[simp] theorem State.storeBlock_inst : s.storeBlock.inst = s.inst := rfl
@[simp] theorem State.storeBlock_mode : s.storeBlock.mode = s.mode := rfl
@[simp] theorem State.storeBlock_done : s.storeBlock.done = s.done := rfl
@[simp] theorem State.storeBlock_hzd : s.storeBlock.hzd = s.hzd := rfl
@[simp] theorem State.storeBlock_uterm : s.storeBlock.uterm = s.uterm := rfl
@[simp] theorem State.storeBlock_stopc : s.storeBlock.stopc = s.stopc := rfl
@[simp] theorem State.storeBlock_err : s.storeBlock.err = s.err := rfl
@[simp] theorem State.storeBlock_errinfo0 : s.storeBlock.errinfo0 = s.errinfo0 := rfl
@[simp] theorem State.storeBlock_errinfo1 : s.storeBlock.errinfo1 = s.errinfo1 := rfl
@[simp] theorem State.storeBlock_expen : s.storeBlock.expen = s.expen := rfl
@[simp] theorem State.storeBlock_width : s.storeBlock.width = s.width := rfl
@[simp] theorem State.storeBlock_height : s.storeBlock.height = s.height := rfl
@[simp] theorem State.storeBlock_msglen : s.storeBlock.msglen = s.msglen := rfl
@[simp] theorem State.storeBlock_explen : s.storeBlock.explen = s.explen := rfl
@[simp] theorem State.storeBlock_bidx : s.storeBlock.bidx = s.bidx := rfl
@[simp] theorem State.storeBlock_bit : s.storeBlock.bit = s.bit := rfl
@[simp] theorem State.storeBlock_fpos : s.storeBlock.fpos = s.fpos := rfl
@[simp] theorem State.storeBlock_uacc : s.storeBlock.uacc = s.uacc := rfl
@[simp] theorem State.storeBlock_ucnt : s.storeBlock.ucnt = s.ucnt := rfl
@[simp] theorem State.storeBlock_ubits : s.storeBlock.ubits = s.ubits := rfl
@[simp] theorem State.storeBlock_uout : s.storeBlock.uout = s.uout := rfl
@[simp] theorem State.storeBlock_outlen : s.storeBlock.outlen = s.outlen := rfl
@[simp] theorem State.storeBlock_alpha : s.storeBlock.alpha = s.alpha := rfl
@[simp] theorem State.storeBlock_blk : s.storeBlock.blk = s.blk := rfl
@[simp] theorem State.storeBlock_coef : s.storeBlock.coef = s.coef := rfl
@[simp] theorem State.storeBlock_img : s.storeBlock.img = Mem.writeBlock s.img s.sampleAddr s.blk := rfl
@[simp] theorem State.storeBlock_msgin : s.storeBlock.msgin = s.msgin := rfl
@[simp] theorem State.storeBlock_msgout : s.storeBlock.msgout = s.msgout := rfl
@[simp] theorem State.storeBlock_pend : s.storeBlock.pend = s.pend := rfl
@[simp] theorem State.storeBlock_agenda : s.storeBlock.agenda = s.agenda := rfl
@[simp] theorem State.storeBlock_rdata : s.storeBlock.rdata = s.rdata := rfl
@[simp] theorem State.storeBlock_draws : s.storeBlock.draws = s.draws := rfl
@[simp] theorem State.storeBlock_num : s.storeBlock.num = s.num := rfl
@[simp] theorem State.storeBlock_nblk : s.storeBlock.nblk = s.nblk := rfl
@[simp] theorem State.storeBlock_lbits : s.storeBlock.lbits = s.lbits := rfl
@[simp] theorem State.storeBlock_imageTooLarge : s.storeBlock.imageTooLarge = s.imageTooLarge := rfl
@[simp] theorem State.storeBlock_msginAt (b : Nat) : s.storeBlock.msginAt b = s.msginAt b := rfl
@[simp] theorem State.storeBlock_msgoutAt (b : Nat) : s.storeBlock.msgoutAt b = s.msgoutAt b := rfl
@[simp] theorem State.storeBlock_sampleAddr (i j : Fin 8) : s.storeBlock.sampleAddr i j = s.sampleAddr i j := rfl
@[simp] theorem State.storeBlock_frameBit (j : Nat) : s.storeBlock.frameBit j = s.frameBit j := rfl

/-! ### `forward` -/

@[simp] theorem State.forward_inst : s.forward.inst = s.inst := rfl
@[simp] theorem State.forward_mode : s.forward.mode = s.mode := rfl
@[simp] theorem State.forward_done : s.forward.done = s.done := rfl
@[simp] theorem State.forward_hzd : s.forward.hzd = s.hzd := rfl
@[simp] theorem State.forward_uterm : s.forward.uterm = s.uterm := rfl
@[simp] theorem State.forward_stopc : s.forward.stopc = s.stopc := rfl
@[simp] theorem State.forward_err : s.forward.err = s.err := rfl
@[simp] theorem State.forward_errinfo0 : s.forward.errinfo0 = s.errinfo0 := rfl
@[simp] theorem State.forward_errinfo1 : s.forward.errinfo1 = s.errinfo1 := rfl
@[simp] theorem State.forward_expen : s.forward.expen = s.expen := rfl
@[simp] theorem State.forward_width : s.forward.width = s.width := rfl
@[simp] theorem State.forward_height : s.forward.height = s.height := rfl
@[simp] theorem State.forward_msglen : s.forward.msglen = s.msglen := rfl
@[simp] theorem State.forward_explen : s.forward.explen = s.explen := rfl
@[simp] theorem State.forward_bidx : s.forward.bidx = s.bidx := rfl
@[simp] theorem State.forward_bit : s.forward.bit = s.bit := rfl
@[simp] theorem State.forward_fpos : s.forward.fpos = s.fpos := rfl
@[simp] theorem State.forward_uacc : s.forward.uacc = s.uacc := rfl
@[simp] theorem State.forward_ucnt : s.forward.ucnt = s.ucnt := rfl
@[simp] theorem State.forward_ubits : s.forward.ubits = s.ubits := rfl
@[simp] theorem State.forward_uout : s.forward.uout = s.uout := rfl
@[simp] theorem State.forward_outlen : s.forward.outlen = s.outlen := rfl
@[simp] theorem State.forward_alpha : s.forward.alpha = s.alpha := rfl
@[simp] theorem State.forward_blk : s.forward.blk = s.blk := rfl
@[simp] theorem State.forward_coef : s.forward.coef = s.num.fdct s.blk := rfl
@[simp] theorem State.forward_img : s.forward.img = s.img := rfl
@[simp] theorem State.forward_msgin : s.forward.msgin = s.msgin := rfl
@[simp] theorem State.forward_msgout : s.forward.msgout = s.msgout := rfl
@[simp] theorem State.forward_pend : s.forward.pend = s.pend := rfl
@[simp] theorem State.forward_agenda : s.forward.agenda = s.agenda := rfl
@[simp] theorem State.forward_rdata : s.forward.rdata = s.rdata := rfl
@[simp] theorem State.forward_draws : s.forward.draws = s.draws := rfl
@[simp] theorem State.forward_num : s.forward.num = s.num := rfl
@[simp] theorem State.forward_nblk : s.forward.nblk = s.nblk := rfl
@[simp] theorem State.forward_lbits : s.forward.lbits = s.lbits := rfl
@[simp] theorem State.forward_imageTooLarge : s.forward.imageTooLarge = s.imageTooLarge := rfl
@[simp] theorem State.forward_imgAt (b : Nat) : s.forward.imgAt b = s.imgAt b := rfl
@[simp] theorem State.forward_msginAt (b : Nat) : s.forward.msginAt b = s.msginAt b := rfl
@[simp] theorem State.forward_msgoutAt (b : Nat) : s.forward.msgoutAt b = s.msgoutAt b := rfl
@[simp] theorem State.forward_sampleAddr (i j : Fin 8) : s.forward.sampleAddr i j = s.sampleAddr i j := rfl
@[simp] theorem State.forward_frameBit (j : Nat) : s.forward.frameBit j = s.frameBit j := rfl

/-! ### `inverse` -/

@[simp] theorem State.inverse_inst : s.inverse.inst = s.inst := rfl
@[simp] theorem State.inverse_mode : s.inverse.mode = s.mode := rfl
@[simp] theorem State.inverse_done : s.inverse.done = s.done := rfl
@[simp] theorem State.inverse_hzd : s.inverse.hzd = s.hzd := rfl
@[simp] theorem State.inverse_uterm : s.inverse.uterm = s.uterm := rfl
@[simp] theorem State.inverse_stopc : s.inverse.stopc = s.stopc := rfl
@[simp] theorem State.inverse_err : s.inverse.err = s.err := rfl
@[simp] theorem State.inverse_errinfo0 : s.inverse.errinfo0 = s.errinfo0 := rfl
@[simp] theorem State.inverse_errinfo1 : s.inverse.errinfo1 = s.errinfo1 := rfl
@[simp] theorem State.inverse_expen : s.inverse.expen = s.expen := rfl
@[simp] theorem State.inverse_width : s.inverse.width = s.width := rfl
@[simp] theorem State.inverse_height : s.inverse.height = s.height := rfl
@[simp] theorem State.inverse_msglen : s.inverse.msglen = s.msglen := rfl
@[simp] theorem State.inverse_explen : s.inverse.explen = s.explen := rfl
@[simp] theorem State.inverse_bidx : s.inverse.bidx = s.bidx := rfl
@[simp] theorem State.inverse_bit : s.inverse.bit = s.bit := rfl
@[simp] theorem State.inverse_fpos : s.inverse.fpos = s.fpos := rfl
@[simp] theorem State.inverse_uacc : s.inverse.uacc = s.uacc := rfl
@[simp] theorem State.inverse_ucnt : s.inverse.ucnt = s.ucnt := rfl
@[simp] theorem State.inverse_ubits : s.inverse.ubits = s.ubits := rfl
@[simp] theorem State.inverse_uout : s.inverse.uout = s.uout := rfl
@[simp] theorem State.inverse_outlen : s.inverse.outlen = s.outlen := rfl
@[simp] theorem State.inverse_alpha : s.inverse.alpha = s.alpha := rfl
@[simp] theorem State.inverse_blk : s.inverse.blk = s.num.idct s.coef := rfl
@[simp] theorem State.inverse_coef : s.inverse.coef = s.coef := rfl
@[simp] theorem State.inverse_img : s.inverse.img = s.img := rfl
@[simp] theorem State.inverse_msgin : s.inverse.msgin = s.msgin := rfl
@[simp] theorem State.inverse_msgout : s.inverse.msgout = s.msgout := rfl
@[simp] theorem State.inverse_pend : s.inverse.pend = s.pend := rfl
@[simp] theorem State.inverse_agenda : s.inverse.agenda = s.agenda := rfl
@[simp] theorem State.inverse_rdata : s.inverse.rdata = s.rdata := rfl
@[simp] theorem State.inverse_draws : s.inverse.draws = s.draws := rfl
@[simp] theorem State.inverse_num : s.inverse.num = s.num := rfl
@[simp] theorem State.inverse_nblk : s.inverse.nblk = s.nblk := rfl
@[simp] theorem State.inverse_lbits : s.inverse.lbits = s.lbits := rfl
@[simp] theorem State.inverse_imageTooLarge : s.inverse.imageTooLarge = s.imageTooLarge := rfl
@[simp] theorem State.inverse_imgAt (b : Nat) : s.inverse.imgAt b = s.imgAt b := rfl
@[simp] theorem State.inverse_msginAt (b : Nat) : s.inverse.msginAt b = s.msginAt b := rfl
@[simp] theorem State.inverse_msgoutAt (b : Nat) : s.inverse.msgoutAt b = s.msgoutAt b := rfl
@[simp] theorem State.inverse_sampleAddr (i j : Fin 8) : s.inverse.sampleAddr i j = s.sampleAddr i j := rfl
@[simp] theorem State.inverse_frameBit (j : Nat) : s.inverse.frameBit j = s.frameBit j := rfl

/-! ### `embedBit` -/

@[simp] theorem State.embedBit_inst : s.embedBit.inst = s.inst := rfl
@[simp] theorem State.embedBit_mode : s.embedBit.mode = s.mode := rfl
@[simp] theorem State.embedBit_done : s.embedBit.done = s.done := rfl
@[simp] theorem State.embedBit_hzd : s.embedBit.hzd = s.hzd := rfl
@[simp] theorem State.embedBit_uterm : s.embedBit.uterm = s.uterm := rfl
@[simp] theorem State.embedBit_stopc : s.embedBit.stopc = s.stopc := rfl
@[simp] theorem State.embedBit_err : s.embedBit.err = s.err := rfl
@[simp] theorem State.embedBit_errinfo0 : s.embedBit.errinfo0 = s.errinfo0 := rfl
@[simp] theorem State.embedBit_errinfo1 : s.embedBit.errinfo1 = s.errinfo1 := rfl
@[simp] theorem State.embedBit_expen : s.embedBit.expen = s.expen := rfl
@[simp] theorem State.embedBit_width : s.embedBit.width = s.width := rfl
@[simp] theorem State.embedBit_height : s.embedBit.height = s.height := rfl
@[simp] theorem State.embedBit_msglen : s.embedBit.msglen = s.msglen := rfl
@[simp] theorem State.embedBit_explen : s.embedBit.explen = s.explen := rfl
@[simp] theorem State.embedBit_bidx : s.embedBit.bidx = s.bidx := rfl
@[simp] theorem State.embedBit_bit : s.embedBit.bit = s.bit := rfl
@[simp] theorem State.embedBit_fpos : s.embedBit.fpos = s.fpos := rfl
@[simp] theorem State.embedBit_uacc : s.embedBit.uacc = s.uacc := rfl
@[simp] theorem State.embedBit_ucnt : s.embedBit.ucnt = s.ucnt := rfl
@[simp] theorem State.embedBit_ubits : s.embedBit.ubits = s.ubits := rfl
@[simp] theorem State.embedBit_uout : s.embedBit.uout = s.uout := rfl
@[simp] theorem State.embedBit_outlen : s.embedBit.outlen = s.outlen := rfl
@[simp] theorem State.embedBit_alpha : s.embedBit.alpha = s.alpha := rfl
@[simp] theorem State.embedBit_blk : s.embedBit.blk = s.blk := rfl
@[simp] theorem State.embedBit_coef : s.embedBit.coef = s.coef.put s.inst.cu s.inst.cv (pol s.num s.bit s.carrier s.alpha) := rfl
@[simp] theorem State.embedBit_img : s.embedBit.img = s.img := rfl
@[simp] theorem State.embedBit_msgin : s.embedBit.msgin = s.msgin := rfl
@[simp] theorem State.embedBit_msgout : s.embedBit.msgout = s.msgout := rfl
@[simp] theorem State.embedBit_pend : s.embedBit.pend = s.pend := rfl
@[simp] theorem State.embedBit_agenda : s.embedBit.agenda = s.agenda := rfl
@[simp] theorem State.embedBit_rdata : s.embedBit.rdata = s.rdata := rfl
@[simp] theorem State.embedBit_draws : s.embedBit.draws = s.draws := rfl
@[simp] theorem State.embedBit_num : s.embedBit.num = s.num := rfl
@[simp] theorem State.embedBit_nblk : s.embedBit.nblk = s.nblk := rfl
@[simp] theorem State.embedBit_lbits : s.embedBit.lbits = s.lbits := rfl
@[simp] theorem State.embedBit_imageTooLarge : s.embedBit.imageTooLarge = s.imageTooLarge := rfl
@[simp] theorem State.embedBit_imgAt (b : Nat) : s.embedBit.imgAt b = s.imgAt b := rfl
@[simp] theorem State.embedBit_msginAt (b : Nat) : s.embedBit.msginAt b = s.msginAt b := rfl
@[simp] theorem State.embedBit_msgoutAt (b : Nat) : s.embedBit.msgoutAt b = s.msgoutAt b := rfl
@[simp] theorem State.embedBit_sampleAddr (i j : Fin 8) : s.embedBit.sampleAddr i j = s.sampleAddr i j := rfl
@[simp] theorem State.embedBit_frameBit (j : Nat) : s.embedBit.frameBit j = s.frameBit j := rfl

/-! ### `extractBit` -/

@[simp] theorem State.extractBit_inst : s.extractBit.inst = s.inst := rfl
@[simp] theorem State.extractBit_mode : s.extractBit.mode = s.mode := rfl
@[simp] theorem State.extractBit_done : s.extractBit.done = s.done := rfl
@[simp] theorem State.extractBit_hzd : s.extractBit.hzd = s.hzd := rfl
@[simp] theorem State.extractBit_uterm : s.extractBit.uterm = s.uterm := rfl
@[simp] theorem State.extractBit_stopc : s.extractBit.stopc = s.stopc := rfl
@[simp] theorem State.extractBit_err : s.extractBit.err = s.err := rfl
@[simp] theorem State.extractBit_errinfo0 : s.extractBit.errinfo0 = s.errinfo0 := rfl
@[simp] theorem State.extractBit_errinfo1 : s.extractBit.errinfo1 = s.errinfo1 := rfl
@[simp] theorem State.extractBit_expen : s.extractBit.expen = s.expen := rfl
@[simp] theorem State.extractBit_width : s.extractBit.width = s.width := rfl
@[simp] theorem State.extractBit_height : s.extractBit.height = s.height := rfl
@[simp] theorem State.extractBit_msglen : s.extractBit.msglen = s.msglen := rfl
@[simp] theorem State.extractBit_explen : s.extractBit.explen = s.explen := rfl
@[simp] theorem State.extractBit_bidx : s.extractBit.bidx = s.bidx := rfl
@[simp] theorem State.extractBit_bit : s.extractBit.bit = dec s.num s.carrier := rfl
@[simp] theorem State.extractBit_fpos : s.extractBit.fpos = s.fpos := rfl
@[simp] theorem State.extractBit_uacc : s.extractBit.uacc = s.uacc := rfl
@[simp] theorem State.extractBit_ucnt : s.extractBit.ucnt = s.ucnt := rfl
@[simp] theorem State.extractBit_ubits : s.extractBit.ubits = s.ubits := rfl
@[simp] theorem State.extractBit_uout : s.extractBit.uout = s.uout := rfl
@[simp] theorem State.extractBit_outlen : s.extractBit.outlen = s.outlen := rfl
@[simp] theorem State.extractBit_alpha : s.extractBit.alpha = s.alpha := rfl
@[simp] theorem State.extractBit_blk : s.extractBit.blk = s.blk := rfl
@[simp] theorem State.extractBit_coef : s.extractBit.coef = s.coef := rfl
@[simp] theorem State.extractBit_img : s.extractBit.img = s.img := rfl
@[simp] theorem State.extractBit_msgin : s.extractBit.msgin = s.msgin := rfl
@[simp] theorem State.extractBit_msgout : s.extractBit.msgout = s.msgout := rfl
@[simp] theorem State.extractBit_pend : s.extractBit.pend = s.pend := rfl
@[simp] theorem State.extractBit_agenda : s.extractBit.agenda = s.agenda := rfl
@[simp] theorem State.extractBit_rdata : s.extractBit.rdata = s.rdata := rfl
@[simp] theorem State.extractBit_draws : s.extractBit.draws = s.draws := rfl
@[simp] theorem State.extractBit_num : s.extractBit.num = s.num := rfl
@[simp] theorem State.extractBit_nblk : s.extractBit.nblk = s.nblk := rfl
@[simp] theorem State.extractBit_lbits : s.extractBit.lbits = s.lbits := rfl
@[simp] theorem State.extractBit_imageTooLarge : s.extractBit.imageTooLarge = s.imageTooLarge := rfl
@[simp] theorem State.extractBit_imgAt (b : Nat) : s.extractBit.imgAt b = s.imgAt b := rfl
@[simp] theorem State.extractBit_msginAt (b : Nat) : s.extractBit.msginAt b = s.msginAt b := rfl
@[simp] theorem State.extractBit_msgoutAt (b : Nat) : s.extractBit.msgoutAt b = s.msgoutAt b := rfl
@[simp] theorem State.extractBit_sampleAddr (i j : Fin 8) : s.extractBit.sampleAddr i j = s.sampleAddr i j := rfl
@[simp] theorem State.extractBit_frameBit (j : Nat) : s.extractBit.frameBit j = s.frameBit j := rfl

/-! ### `takeFrameBit` -/

@[simp] theorem State.takeFrameBit_inst : s.takeFrameBit.inst = s.inst := rfl
@[simp] theorem State.takeFrameBit_mode : s.takeFrameBit.mode = s.mode := rfl
@[simp] theorem State.takeFrameBit_done : s.takeFrameBit.done = s.done := rfl
@[simp] theorem State.takeFrameBit_hzd : s.takeFrameBit.hzd = s.hzd := rfl
@[simp] theorem State.takeFrameBit_uterm : s.takeFrameBit.uterm = s.uterm := rfl
@[simp] theorem State.takeFrameBit_stopc : s.takeFrameBit.stopc = s.stopc := rfl
@[simp] theorem State.takeFrameBit_err : s.takeFrameBit.err = s.err := rfl
@[simp] theorem State.takeFrameBit_errinfo0 : s.takeFrameBit.errinfo0 = s.errinfo0 := rfl
@[simp] theorem State.takeFrameBit_errinfo1 : s.takeFrameBit.errinfo1 = s.errinfo1 := rfl
@[simp] theorem State.takeFrameBit_expen : s.takeFrameBit.expen = s.expen := rfl
@[simp] theorem State.takeFrameBit_width : s.takeFrameBit.width = s.width := rfl
@[simp] theorem State.takeFrameBit_height : s.takeFrameBit.height = s.height := rfl
@[simp] theorem State.takeFrameBit_msglen : s.takeFrameBit.msglen = s.msglen := rfl
@[simp] theorem State.takeFrameBit_explen : s.takeFrameBit.explen = s.explen := rfl
@[simp] theorem State.takeFrameBit_bidx : s.takeFrameBit.bidx = s.bidx := rfl
@[simp] theorem State.takeFrameBit_bit : s.takeFrameBit.bit = s.frameBit s.fpos.toNat := rfl
@[simp] theorem State.takeFrameBit_fpos : s.takeFrameBit.fpos = s.fpos + 1 := rfl
@[simp] theorem State.takeFrameBit_uacc : s.takeFrameBit.uacc = s.uacc := rfl
@[simp] theorem State.takeFrameBit_ucnt : s.takeFrameBit.ucnt = s.ucnt := rfl
@[simp] theorem State.takeFrameBit_ubits : s.takeFrameBit.ubits = s.ubits := rfl
@[simp] theorem State.takeFrameBit_uout : s.takeFrameBit.uout = s.uout := rfl
@[simp] theorem State.takeFrameBit_outlen : s.takeFrameBit.outlen = s.outlen := rfl
@[simp] theorem State.takeFrameBit_alpha : s.takeFrameBit.alpha = s.alpha := rfl
@[simp] theorem State.takeFrameBit_blk : s.takeFrameBit.blk = s.blk := rfl
@[simp] theorem State.takeFrameBit_coef : s.takeFrameBit.coef = s.coef := rfl
@[simp] theorem State.takeFrameBit_img : s.takeFrameBit.img = s.img := rfl
@[simp] theorem State.takeFrameBit_msgin : s.takeFrameBit.msgin = s.msgin := rfl
@[simp] theorem State.takeFrameBit_msgout : s.takeFrameBit.msgout = s.msgout := rfl
@[simp] theorem State.takeFrameBit_pend : s.takeFrameBit.pend = s.pend := rfl
@[simp] theorem State.takeFrameBit_agenda : s.takeFrameBit.agenda = s.agenda := rfl
@[simp] theorem State.takeFrameBit_rdata : s.takeFrameBit.rdata = s.rdata := rfl
@[simp] theorem State.takeFrameBit_draws : s.takeFrameBit.draws = s.draws := rfl
@[simp] theorem State.takeFrameBit_num : s.takeFrameBit.num = s.num := rfl
@[simp] theorem State.takeFrameBit_nblk : s.takeFrameBit.nblk = s.nblk := rfl
@[simp] theorem State.takeFrameBit_lbits : s.takeFrameBit.lbits = s.lbits := rfl
@[simp] theorem State.takeFrameBit_imageTooLarge : s.takeFrameBit.imageTooLarge = s.imageTooLarge := rfl
@[simp] theorem State.takeFrameBit_imgAt (b : Nat) : s.takeFrameBit.imgAt b = s.imgAt b := rfl
@[simp] theorem State.takeFrameBit_msginAt (b : Nat) : s.takeFrameBit.msginAt b = s.msginAt b := rfl
@[simp] theorem State.takeFrameBit_msgoutAt (b : Nat) : s.takeFrameBit.msgoutAt b = s.msgoutAt b := rfl
@[simp] theorem State.takeFrameBit_sampleAddr (i j : Fin 8) : s.takeFrameBit.sampleAddr i j = s.sampleAddr i j := rfl
@[simp] theorem State.takeFrameBit_frameBit (j : Nat) : s.takeFrameBit.frameBit j = s.frameBit j := rfl

/-! ### `setBidx` -/

@[simp] theorem State.setBidx_inst (k : Word) : (s.setBidx k).inst = s.inst := rfl
@[simp] theorem State.setBidx_mode (k : Word) : (s.setBidx k).mode = s.mode := rfl
@[simp] theorem State.setBidx_done (k : Word) : (s.setBidx k).done = s.done := rfl
@[simp] theorem State.setBidx_hzd (k : Word) : (s.setBidx k).hzd = s.hzd := rfl
@[simp] theorem State.setBidx_uterm (k : Word) : (s.setBidx k).uterm = s.uterm := rfl
@[simp] theorem State.setBidx_stopc (k : Word) : (s.setBidx k).stopc = s.stopc := rfl
@[simp] theorem State.setBidx_err (k : Word) : (s.setBidx k).err = s.err := rfl
@[simp] theorem State.setBidx_errinfo0 (k : Word) : (s.setBidx k).errinfo0 = s.errinfo0 := rfl
@[simp] theorem State.setBidx_errinfo1 (k : Word) : (s.setBidx k).errinfo1 = s.errinfo1 := rfl
@[simp] theorem State.setBidx_expen (k : Word) : (s.setBidx k).expen = s.expen := rfl
@[simp] theorem State.setBidx_width (k : Word) : (s.setBidx k).width = s.width := rfl
@[simp] theorem State.setBidx_height (k : Word) : (s.setBidx k).height = s.height := rfl
@[simp] theorem State.setBidx_msglen (k : Word) : (s.setBidx k).msglen = s.msglen := rfl
@[simp] theorem State.setBidx_explen (k : Word) : (s.setBidx k).explen = s.explen := rfl
@[simp] theorem State.setBidx_bidx (k : Word) : (s.setBidx k).bidx = k := rfl
@[simp] theorem State.setBidx_bit (k : Word) : (s.setBidx k).bit = s.bit := rfl
@[simp] theorem State.setBidx_fpos (k : Word) : (s.setBidx k).fpos = s.fpos := rfl
@[simp] theorem State.setBidx_uacc (k : Word) : (s.setBidx k).uacc = s.uacc := rfl
@[simp] theorem State.setBidx_ucnt (k : Word) : (s.setBidx k).ucnt = s.ucnt := rfl
@[simp] theorem State.setBidx_ubits (k : Word) : (s.setBidx k).ubits = s.ubits := rfl
@[simp] theorem State.setBidx_uout (k : Word) : (s.setBidx k).uout = s.uout := rfl
@[simp] theorem State.setBidx_outlen (k : Word) : (s.setBidx k).outlen = s.outlen := rfl
@[simp] theorem State.setBidx_alpha (k : Word) : (s.setBidx k).alpha = s.alpha := rfl
@[simp] theorem State.setBidx_blk (k : Word) : (s.setBidx k).blk = s.blk := rfl
@[simp] theorem State.setBidx_coef (k : Word) : (s.setBidx k).coef = s.coef := rfl
@[simp] theorem State.setBidx_img (k : Word) : (s.setBidx k).img = s.img := rfl
@[simp] theorem State.setBidx_msgin (k : Word) : (s.setBidx k).msgin = s.msgin := rfl
@[simp] theorem State.setBidx_msgout (k : Word) : (s.setBidx k).msgout = s.msgout := rfl
@[simp] theorem State.setBidx_pend (k : Word) : (s.setBidx k).pend = s.pend := rfl
@[simp] theorem State.setBidx_agenda (k : Word) : (s.setBidx k).agenda = s.agenda := rfl
@[simp] theorem State.setBidx_rdata (k : Word) : (s.setBidx k).rdata = s.rdata := rfl
@[simp] theorem State.setBidx_draws (k : Word) : (s.setBidx k).draws = s.draws := rfl
@[simp] theorem State.setBidx_num (k : Word) : (s.setBidx k).num = s.num := rfl
@[simp] theorem State.setBidx_nblk (k : Word) : (s.setBidx k).nblk = s.nblk := rfl
@[simp] theorem State.setBidx_lbits (k : Word) : (s.setBidx k).lbits = s.lbits := rfl
@[simp] theorem State.setBidx_imageTooLarge (k : Word) : (s.setBidx k).imageTooLarge = s.imageTooLarge := rfl
@[simp] theorem State.setBidx_imgAt (k : Word) (b : Nat) : (s.setBidx k).imgAt b = s.imgAt b := rfl
@[simp] theorem State.setBidx_msginAt (k : Word) (b : Nat) : (s.setBidx k).msginAt b = s.msginAt b := rfl
@[simp] theorem State.setBidx_msgoutAt (k : Word) (b : Nat) : (s.setBidx k).msgoutAt b = s.msgoutAt b := rfl
@[simp] theorem State.setBidx_frameBit (k : Word) (j : Nat) : (s.setBidx k).frameBit j = s.frameBit j := rfl

/-! ### `setFpos` -/

@[simp] theorem State.setFpos_inst (k : Word) : (s.setFpos k).inst = s.inst := rfl
@[simp] theorem State.setFpos_mode (k : Word) : (s.setFpos k).mode = s.mode := rfl
@[simp] theorem State.setFpos_done (k : Word) : (s.setFpos k).done = s.done := rfl
@[simp] theorem State.setFpos_hzd (k : Word) : (s.setFpos k).hzd = s.hzd := rfl
@[simp] theorem State.setFpos_uterm (k : Word) : (s.setFpos k).uterm = s.uterm := rfl
@[simp] theorem State.setFpos_stopc (k : Word) : (s.setFpos k).stopc = s.stopc := rfl
@[simp] theorem State.setFpos_err (k : Word) : (s.setFpos k).err = s.err := rfl
@[simp] theorem State.setFpos_errinfo0 (k : Word) : (s.setFpos k).errinfo0 = s.errinfo0 := rfl
@[simp] theorem State.setFpos_errinfo1 (k : Word) : (s.setFpos k).errinfo1 = s.errinfo1 := rfl
@[simp] theorem State.setFpos_expen (k : Word) : (s.setFpos k).expen = s.expen := rfl
@[simp] theorem State.setFpos_width (k : Word) : (s.setFpos k).width = s.width := rfl
@[simp] theorem State.setFpos_height (k : Word) : (s.setFpos k).height = s.height := rfl
@[simp] theorem State.setFpos_msglen (k : Word) : (s.setFpos k).msglen = s.msglen := rfl
@[simp] theorem State.setFpos_explen (k : Word) : (s.setFpos k).explen = s.explen := rfl
@[simp] theorem State.setFpos_bidx (k : Word) : (s.setFpos k).bidx = s.bidx := rfl
@[simp] theorem State.setFpos_bit (k : Word) : (s.setFpos k).bit = s.bit := rfl
@[simp] theorem State.setFpos_fpos (k : Word) : (s.setFpos k).fpos = k := rfl
@[simp] theorem State.setFpos_uacc (k : Word) : (s.setFpos k).uacc = s.uacc := rfl
@[simp] theorem State.setFpos_ucnt (k : Word) : (s.setFpos k).ucnt = s.ucnt := rfl
@[simp] theorem State.setFpos_ubits (k : Word) : (s.setFpos k).ubits = s.ubits := rfl
@[simp] theorem State.setFpos_uout (k : Word) : (s.setFpos k).uout = s.uout := rfl
@[simp] theorem State.setFpos_outlen (k : Word) : (s.setFpos k).outlen = s.outlen := rfl
@[simp] theorem State.setFpos_alpha (k : Word) : (s.setFpos k).alpha = s.alpha := rfl
@[simp] theorem State.setFpos_blk (k : Word) : (s.setFpos k).blk = s.blk := rfl
@[simp] theorem State.setFpos_coef (k : Word) : (s.setFpos k).coef = s.coef := rfl
@[simp] theorem State.setFpos_img (k : Word) : (s.setFpos k).img = s.img := rfl
@[simp] theorem State.setFpos_msgin (k : Word) : (s.setFpos k).msgin = s.msgin := rfl
@[simp] theorem State.setFpos_msgout (k : Word) : (s.setFpos k).msgout = s.msgout := rfl
@[simp] theorem State.setFpos_pend (k : Word) : (s.setFpos k).pend = s.pend := rfl
@[simp] theorem State.setFpos_agenda (k : Word) : (s.setFpos k).agenda = s.agenda := rfl
@[simp] theorem State.setFpos_rdata (k : Word) : (s.setFpos k).rdata = s.rdata := rfl
@[simp] theorem State.setFpos_draws (k : Word) : (s.setFpos k).draws = s.draws := rfl
@[simp] theorem State.setFpos_num (k : Word) : (s.setFpos k).num = s.num := rfl
@[simp] theorem State.setFpos_nblk (k : Word) : (s.setFpos k).nblk = s.nblk := rfl
@[simp] theorem State.setFpos_lbits (k : Word) : (s.setFpos k).lbits = s.lbits := rfl
@[simp] theorem State.setFpos_imageTooLarge (k : Word) : (s.setFpos k).imageTooLarge = s.imageTooLarge := rfl
@[simp] theorem State.setFpos_imgAt (k : Word) (b : Nat) : (s.setFpos k).imgAt b = s.imgAt b := rfl
@[simp] theorem State.setFpos_msginAt (k : Word) (b : Nat) : (s.setFpos k).msginAt b = s.msginAt b := rfl
@[simp] theorem State.setFpos_msgoutAt (k : Word) (b : Nat) : (s.setFpos k).msgoutAt b = s.msgoutAt b := rfl
@[simp] theorem State.setFpos_sampleAddr (k : Word) (i j : Fin 8) : (s.setFpos k).sampleAddr i j = s.sampleAddr i j := rfl
@[simp] theorem State.setFpos_frameBit (k : Word) (j : Nat) : (s.setFpos k).frameBit j = s.frameBit j := rfl

/-! ### `setOutcome` -/

@[simp] theorem State.setOutcome_inst (c : StopCause) (n : Word) : (s.setOutcome c n).inst = s.inst := rfl
@[simp] theorem State.setOutcome_mode (c : StopCause) (n : Word) : (s.setOutcome c n).mode = s.mode := rfl
@[simp] theorem State.setOutcome_done (c : StopCause) (n : Word) : (s.setOutcome c n).done = s.done := rfl
@[simp] theorem State.setOutcome_hzd (c : StopCause) (n : Word) : (s.setOutcome c n).hzd = s.hzd := rfl
@[simp] theorem State.setOutcome_uterm (c : StopCause) (n : Word) : (s.setOutcome c n).uterm = s.uterm := rfl
@[simp] theorem State.setOutcome_stopc (c : StopCause) (n : Word) : (s.setOutcome c n).stopc = c := rfl
@[simp] theorem State.setOutcome_err (c : StopCause) (n : Word) : (s.setOutcome c n).err = s.err := rfl
@[simp] theorem State.setOutcome_errinfo0 (c : StopCause) (n : Word) : (s.setOutcome c n).errinfo0 = s.errinfo0 := rfl
@[simp] theorem State.setOutcome_errinfo1 (c : StopCause) (n : Word) : (s.setOutcome c n).errinfo1 = s.errinfo1 := rfl
@[simp] theorem State.setOutcome_expen (c : StopCause) (n : Word) : (s.setOutcome c n).expen = s.expen := rfl
@[simp] theorem State.setOutcome_width (c : StopCause) (n : Word) : (s.setOutcome c n).width = s.width := rfl
@[simp] theorem State.setOutcome_height (c : StopCause) (n : Word) : (s.setOutcome c n).height = s.height := rfl
@[simp] theorem State.setOutcome_msglen (c : StopCause) (n : Word) : (s.setOutcome c n).msglen = s.msglen := rfl
@[simp] theorem State.setOutcome_explen (c : StopCause) (n : Word) : (s.setOutcome c n).explen = s.explen := rfl
@[simp] theorem State.setOutcome_bidx (c : StopCause) (n : Word) : (s.setOutcome c n).bidx = s.bidx := rfl
@[simp] theorem State.setOutcome_bit (c : StopCause) (n : Word) : (s.setOutcome c n).bit = s.bit := rfl
@[simp] theorem State.setOutcome_fpos (c : StopCause) (n : Word) : (s.setOutcome c n).fpos = s.fpos := rfl
@[simp] theorem State.setOutcome_uacc (c : StopCause) (n : Word) : (s.setOutcome c n).uacc = s.uacc := rfl
@[simp] theorem State.setOutcome_ucnt (c : StopCause) (n : Word) : (s.setOutcome c n).ucnt = s.ucnt := rfl
@[simp] theorem State.setOutcome_ubits (c : StopCause) (n : Word) : (s.setOutcome c n).ubits = s.ubits := rfl
@[simp] theorem State.setOutcome_uout (c : StopCause) (n : Word) : (s.setOutcome c n).uout = s.uout := rfl
@[simp] theorem State.setOutcome_outlen (c : StopCause) (n : Word) : (s.setOutcome c n).outlen = n := rfl
@[simp] theorem State.setOutcome_alpha (c : StopCause) (n : Word) : (s.setOutcome c n).alpha = s.alpha := rfl
@[simp] theorem State.setOutcome_blk (c : StopCause) (n : Word) : (s.setOutcome c n).blk = s.blk := rfl
@[simp] theorem State.setOutcome_coef (c : StopCause) (n : Word) : (s.setOutcome c n).coef = s.coef := rfl
@[simp] theorem State.setOutcome_img (c : StopCause) (n : Word) : (s.setOutcome c n).img = s.img := rfl
@[simp] theorem State.setOutcome_msgin (c : StopCause) (n : Word) : (s.setOutcome c n).msgin = s.msgin := rfl
@[simp] theorem State.setOutcome_msgout (c : StopCause) (n : Word) : (s.setOutcome c n).msgout = s.msgout := rfl
@[simp] theorem State.setOutcome_pend (c : StopCause) (n : Word) : (s.setOutcome c n).pend = s.pend := rfl
@[simp] theorem State.setOutcome_agenda (c : StopCause) (n : Word) : (s.setOutcome c n).agenda = s.agenda := rfl
@[simp] theorem State.setOutcome_rdata (c : StopCause) (n : Word) : (s.setOutcome c n).rdata = s.rdata := rfl
@[simp] theorem State.setOutcome_draws (c : StopCause) (n : Word) : (s.setOutcome c n).draws = s.draws := rfl
@[simp] theorem State.setOutcome_num (c : StopCause) (n : Word) : (s.setOutcome c n).num = s.num := rfl
@[simp] theorem State.setOutcome_nblk (c : StopCause) (n : Word) : (s.setOutcome c n).nblk = s.nblk := rfl
@[simp] theorem State.setOutcome_lbits (c : StopCause) (n : Word) : (s.setOutcome c n).lbits = s.lbits := rfl
@[simp] theorem State.setOutcome_imageTooLarge (c : StopCause) (n : Word) : (s.setOutcome c n).imageTooLarge = s.imageTooLarge := rfl
@[simp] theorem State.setOutcome_imgAt (c : StopCause) (n : Word) (b : Nat) : (s.setOutcome c n).imgAt b = s.imgAt b := rfl
@[simp] theorem State.setOutcome_msginAt (c : StopCause) (n : Word) (b : Nat) : (s.setOutcome c n).msginAt b = s.msginAt b := rfl
@[simp] theorem State.setOutcome_msgoutAt (c : StopCause) (n : Word) (b : Nat) : (s.setOutcome c n).msgoutAt b = s.msgoutAt b := rfl
@[simp] theorem State.setOutcome_sampleAddr (c : StopCause) (n : Word) (i j : Fin 8) : (s.setOutcome c n).sampleAddr i j = s.sampleAddr i j := rfl
@[simp] theorem State.setOutcome_frameBit (c : StopCause) (n : Word) (j : Nat) : (s.setOutcome c n).frameBit j = s.frameBit j := rfl

/-! ### `shiftIn` -/

@[simp] theorem State.shiftIn_inst : s.shiftIn.inst = s.inst := rfl
@[simp] theorem State.shiftIn_mode : s.shiftIn.mode = s.mode := rfl
@[simp] theorem State.shiftIn_done : s.shiftIn.done = s.done := rfl
@[simp] theorem State.shiftIn_hzd : s.shiftIn.hzd = s.hzd := rfl
@[simp] theorem State.shiftIn_uterm : s.shiftIn.uterm = s.uterm := rfl
@[simp] theorem State.shiftIn_stopc : s.shiftIn.stopc = s.stopc := rfl
@[simp] theorem State.shiftIn_err : s.shiftIn.err = s.err := rfl
@[simp] theorem State.shiftIn_errinfo0 : s.shiftIn.errinfo0 = s.errinfo0 := rfl
@[simp] theorem State.shiftIn_errinfo1 : s.shiftIn.errinfo1 = s.errinfo1 := rfl
@[simp] theorem State.shiftIn_expen : s.shiftIn.expen = s.expen := rfl
@[simp] theorem State.shiftIn_width : s.shiftIn.width = s.width := rfl
@[simp] theorem State.shiftIn_height : s.shiftIn.height = s.height := rfl
@[simp] theorem State.shiftIn_msglen : s.shiftIn.msglen = s.msglen := rfl
@[simp] theorem State.shiftIn_explen : s.shiftIn.explen = s.explen := rfl
@[simp] theorem State.shiftIn_bidx : s.shiftIn.bidx = s.bidx := rfl
@[simp] theorem State.shiftIn_bit : s.shiftIn.bit = s.bit := rfl
@[simp] theorem State.shiftIn_fpos : s.shiftIn.fpos = s.fpos := rfl
@[simp] theorem State.shiftIn_uacc : s.shiftIn.uacc = s.shiftedAcc := rfl
@[simp] theorem State.shiftIn_ucnt : s.shiftIn.ucnt = s.ucnt + 1 := rfl
@[simp] theorem State.shiftIn_ubits : s.shiftIn.ubits = s.ubits + 1 := rfl
@[simp] theorem State.shiftIn_uout : s.shiftIn.uout = s.uout := rfl
@[simp] theorem State.shiftIn_outlen : s.shiftIn.outlen = s.outlen := rfl
@[simp] theorem State.shiftIn_alpha : s.shiftIn.alpha = s.alpha := rfl
@[simp] theorem State.shiftIn_blk : s.shiftIn.blk = s.blk := rfl
@[simp] theorem State.shiftIn_coef : s.shiftIn.coef = s.coef := rfl
@[simp] theorem State.shiftIn_img : s.shiftIn.img = s.img := rfl
@[simp] theorem State.shiftIn_msgin : s.shiftIn.msgin = s.msgin := rfl
@[simp] theorem State.shiftIn_msgout : s.shiftIn.msgout = s.msgout := rfl
@[simp] theorem State.shiftIn_pend : s.shiftIn.pend = s.pend := rfl
@[simp] theorem State.shiftIn_agenda : s.shiftIn.agenda = s.agenda := rfl
@[simp] theorem State.shiftIn_rdata : s.shiftIn.rdata = s.rdata := rfl
@[simp] theorem State.shiftIn_draws : s.shiftIn.draws = s.draws := rfl
@[simp] theorem State.shiftIn_num : s.shiftIn.num = s.num := rfl
@[simp] theorem State.shiftIn_nblk : s.shiftIn.nblk = s.nblk := rfl
@[simp] theorem State.shiftIn_lbits : s.shiftIn.lbits = s.lbits := rfl
@[simp] theorem State.shiftIn_imageTooLarge : s.shiftIn.imageTooLarge = s.imageTooLarge := rfl
@[simp] theorem State.shiftIn_imgAt (b : Nat) : s.shiftIn.imgAt b = s.imgAt b := rfl
@[simp] theorem State.shiftIn_msginAt (b : Nat) : s.shiftIn.msginAt b = s.msginAt b := rfl
@[simp] theorem State.shiftIn_msgoutAt (b : Nat) : s.shiftIn.msgoutAt b = s.msgoutAt b := rfl
@[simp] theorem State.shiftIn_sampleAddr (i j : Fin 8) : s.shiftIn.sampleAddr i j = s.sampleAddr i j := rfl
@[simp] theorem State.shiftIn_frameBit (j : Nat) : s.shiftIn.frameBit j = s.frameBit j := rfl

/-! ### `endMessage` -/

@[simp] theorem State.endMessage_inst : s.endMessage.inst = s.inst := rfl
@[simp] theorem State.endMessage_mode : s.endMessage.mode = s.mode := rfl
@[simp] theorem State.endMessage_done : s.endMessage.done = s.done := rfl
@[simp] theorem State.endMessage_hzd : s.endMessage.hzd = s.hzd := rfl
@[simp] theorem State.endMessage_uterm : s.endMessage.uterm = true := rfl
@[simp] theorem State.endMessage_stopc : s.endMessage.stopc = s.stopc := rfl
@[simp] theorem State.endMessage_err : s.endMessage.err = s.err := rfl
@[simp] theorem State.endMessage_errinfo0 : s.endMessage.errinfo0 = s.errinfo0 := rfl
@[simp] theorem State.endMessage_errinfo1 : s.endMessage.errinfo1 = s.errinfo1 := rfl
@[simp] theorem State.endMessage_expen : s.endMessage.expen = s.expen := rfl
@[simp] theorem State.endMessage_width : s.endMessage.width = s.width := rfl
@[simp] theorem State.endMessage_height : s.endMessage.height = s.height := rfl
@[simp] theorem State.endMessage_msglen : s.endMessage.msglen = s.msglen := rfl
@[simp] theorem State.endMessage_explen : s.endMessage.explen = s.explen := rfl
@[simp] theorem State.endMessage_bidx : s.endMessage.bidx = s.bidx := rfl
@[simp] theorem State.endMessage_bit : s.endMessage.bit = s.bit := rfl
@[simp] theorem State.endMessage_fpos : s.endMessage.fpos = s.fpos := rfl
@[simp] theorem State.endMessage_uacc : s.endMessage.uacc = 0 := rfl
@[simp] theorem State.endMessage_ucnt : s.endMessage.ucnt = 0 := rfl
@[simp] theorem State.endMessage_ubits : s.endMessage.ubits = s.ubits + 1 := rfl
@[simp] theorem State.endMessage_uout : s.endMessage.uout = s.uout := rfl
@[simp] theorem State.endMessage_outlen : s.endMessage.outlen = s.outlen := rfl
@[simp] theorem State.endMessage_alpha : s.endMessage.alpha = s.alpha := rfl
@[simp] theorem State.endMessage_blk : s.endMessage.blk = s.blk := rfl
@[simp] theorem State.endMessage_coef : s.endMessage.coef = s.coef := rfl
@[simp] theorem State.endMessage_img : s.endMessage.img = s.img := rfl
@[simp] theorem State.endMessage_msgin : s.endMessage.msgin = s.msgin := rfl
@[simp] theorem State.endMessage_msgout : s.endMessage.msgout = s.msgout := rfl
@[simp] theorem State.endMessage_pend : s.endMessage.pend = s.pend := rfl
@[simp] theorem State.endMessage_agenda : s.endMessage.agenda = s.agenda := rfl
@[simp] theorem State.endMessage_rdata : s.endMessage.rdata = s.rdata := rfl
@[simp] theorem State.endMessage_draws : s.endMessage.draws = s.draws := rfl
@[simp] theorem State.endMessage_num : s.endMessage.num = s.num := rfl
@[simp] theorem State.endMessage_nblk : s.endMessage.nblk = s.nblk := rfl
@[simp] theorem State.endMessage_lbits : s.endMessage.lbits = s.lbits := rfl
@[simp] theorem State.endMessage_imageTooLarge : s.endMessage.imageTooLarge = s.imageTooLarge := rfl
@[simp] theorem State.endMessage_imgAt (b : Nat) : s.endMessage.imgAt b = s.imgAt b := rfl
@[simp] theorem State.endMessage_msginAt (b : Nat) : s.endMessage.msginAt b = s.msginAt b := rfl
@[simp] theorem State.endMessage_msgoutAt (b : Nat) : s.endMessage.msgoutAt b = s.msgoutAt b := rfl
@[simp] theorem State.endMessage_sampleAddr (i j : Fin 8) : s.endMessage.sampleAddr i j = s.sampleAddr i j := rfl
@[simp] theorem State.endMessage_frameBit (j : Nat) : s.endMessage.frameBit j = s.frameBit j := rfl

/-! ### `storeByte` -/

@[simp] theorem State.storeByte_inst : s.storeByte.inst = s.inst := rfl
@[simp] theorem State.storeByte_mode : s.storeByte.mode = s.mode := rfl
@[simp] theorem State.storeByte_done : s.storeByte.done = s.done := rfl
@[simp] theorem State.storeByte_hzd : s.storeByte.hzd = s.hzd := rfl
@[simp] theorem State.storeByte_uterm : s.storeByte.uterm = s.uterm := rfl
@[simp] theorem State.storeByte_stopc : s.storeByte.stopc = s.stopc := rfl
@[simp] theorem State.storeByte_err : s.storeByte.err = s.err := rfl
@[simp] theorem State.storeByte_errinfo0 : s.storeByte.errinfo0 = s.errinfo0 := rfl
@[simp] theorem State.storeByte_errinfo1 : s.storeByte.errinfo1 = s.errinfo1 := rfl
@[simp] theorem State.storeByte_expen : s.storeByte.expen = s.expen := rfl
@[simp] theorem State.storeByte_width : s.storeByte.width = s.width := rfl
@[simp] theorem State.storeByte_height : s.storeByte.height = s.height := rfl
@[simp] theorem State.storeByte_msglen : s.storeByte.msglen = s.msglen := rfl
@[simp] theorem State.storeByte_explen : s.storeByte.explen = s.explen := rfl
@[simp] theorem State.storeByte_bidx : s.storeByte.bidx = s.bidx := rfl
@[simp] theorem State.storeByte_bit : s.storeByte.bit = s.bit := rfl
@[simp] theorem State.storeByte_fpos : s.storeByte.fpos = s.fpos := rfl
@[simp] theorem State.storeByte_uacc : s.storeByte.uacc = 0 := rfl
@[simp] theorem State.storeByte_ucnt : s.storeByte.ucnt = 0 := rfl
@[simp] theorem State.storeByte_ubits : s.storeByte.ubits = s.ubits + 1 := rfl
@[simp] theorem State.storeByte_uout : s.storeByte.uout = s.uout + 1 := rfl
@[simp] theorem State.storeByte_outlen : s.storeByte.outlen = s.outlen := rfl
@[simp] theorem State.storeByte_alpha : s.storeByte.alpha = s.alpha := rfl
@[simp] theorem State.storeByte_blk : s.storeByte.blk = s.blk := rfl
@[simp] theorem State.storeByte_coef : s.storeByte.coef = s.coef := rfl
@[simp] theorem State.storeByte_img : s.storeByte.img = s.img := rfl
@[simp] theorem State.storeByte_msgin : s.storeByte.msgin = s.msgin := rfl
@[simp] theorem State.storeByte_msgout : s.storeByte.msgout = Mem.write s.msgout s.uout.toNat s.shiftedAcc := rfl
@[simp] theorem State.storeByte_pend : s.storeByte.pend = s.pend := rfl
@[simp] theorem State.storeByte_agenda : s.storeByte.agenda = s.agenda := rfl
@[simp] theorem State.storeByte_rdata : s.storeByte.rdata = s.rdata := rfl
@[simp] theorem State.storeByte_draws : s.storeByte.draws = s.draws := rfl
@[simp] theorem State.storeByte_num : s.storeByte.num = s.num := rfl
@[simp] theorem State.storeByte_nblk : s.storeByte.nblk = s.nblk := rfl
@[simp] theorem State.storeByte_lbits : s.storeByte.lbits = s.lbits := rfl
@[simp] theorem State.storeByte_imageTooLarge : s.storeByte.imageTooLarge = s.imageTooLarge := rfl
@[simp] theorem State.storeByte_imgAt (b : Nat) : s.storeByte.imgAt b = s.imgAt b := rfl
@[simp] theorem State.storeByte_msginAt (b : Nat) : s.storeByte.msginAt b = s.msginAt b := rfl
@[simp] theorem State.storeByte_sampleAddr (i j : Fin 8) : s.storeByte.sampleAddr i j = s.sampleAddr i j := rfl
@[simp] theorem State.storeByte_frameBit (j : Nat) : s.storeByte.frameBit j = s.frameBit j := rfl

/-! ### `restartUnframer` -/

@[simp] theorem State.restartUnframer_inst : s.restartUnframer.inst = s.inst := rfl
@[simp] theorem State.restartUnframer_mode : s.restartUnframer.mode = s.mode := rfl
@[simp] theorem State.restartUnframer_done : s.restartUnframer.done = s.done := rfl
@[simp] theorem State.restartUnframer_hzd : s.restartUnframer.hzd = s.hzd := rfl
@[simp] theorem State.restartUnframer_uterm : s.restartUnframer.uterm = false := rfl
@[simp] theorem State.restartUnframer_stopc : s.restartUnframer.stopc = s.stopc := rfl
@[simp] theorem State.restartUnframer_err : s.restartUnframer.err = s.err := rfl
@[simp] theorem State.restartUnframer_errinfo0 : s.restartUnframer.errinfo0 = s.errinfo0 := rfl
@[simp] theorem State.restartUnframer_errinfo1 : s.restartUnframer.errinfo1 = s.errinfo1 := rfl
@[simp] theorem State.restartUnframer_expen : s.restartUnframer.expen = s.expen := rfl
@[simp] theorem State.restartUnframer_width : s.restartUnframer.width = s.width := rfl
@[simp] theorem State.restartUnframer_height : s.restartUnframer.height = s.height := rfl
@[simp] theorem State.restartUnframer_msglen : s.restartUnframer.msglen = s.msglen := rfl
@[simp] theorem State.restartUnframer_explen : s.restartUnframer.explen = s.explen := rfl
@[simp] theorem State.restartUnframer_bidx : s.restartUnframer.bidx = s.bidx := rfl
@[simp] theorem State.restartUnframer_bit : s.restartUnframer.bit = s.bit := rfl
@[simp] theorem State.restartUnframer_fpos : s.restartUnframer.fpos = s.fpos := rfl
@[simp] theorem State.restartUnframer_uacc : s.restartUnframer.uacc = 0 := rfl
@[simp] theorem State.restartUnframer_ucnt : s.restartUnframer.ucnt = 0 := rfl
@[simp] theorem State.restartUnframer_ubits : s.restartUnframer.ubits = 0 := rfl
@[simp] theorem State.restartUnframer_uout : s.restartUnframer.uout = 0 := rfl
@[simp] theorem State.restartUnframer_outlen : s.restartUnframer.outlen = s.outlen := rfl
@[simp] theorem State.restartUnframer_alpha : s.restartUnframer.alpha = s.alpha := rfl
@[simp] theorem State.restartUnframer_blk : s.restartUnframer.blk = s.blk := rfl
@[simp] theorem State.restartUnframer_coef : s.restartUnframer.coef = s.coef := rfl
@[simp] theorem State.restartUnframer_img : s.restartUnframer.img = s.img := rfl
@[simp] theorem State.restartUnframer_msgin : s.restartUnframer.msgin = s.msgin := rfl
@[simp] theorem State.restartUnframer_msgout : s.restartUnframer.msgout = s.msgout := rfl
@[simp] theorem State.restartUnframer_pend : s.restartUnframer.pend = s.pend := rfl
@[simp] theorem State.restartUnframer_agenda : s.restartUnframer.agenda = s.agenda := rfl
@[simp] theorem State.restartUnframer_rdata : s.restartUnframer.rdata = s.rdata := rfl
@[simp] theorem State.restartUnframer_draws : s.restartUnframer.draws = s.draws := rfl
@[simp] theorem State.restartUnframer_num : s.restartUnframer.num = s.num := rfl
@[simp] theorem State.restartUnframer_nblk : s.restartUnframer.nblk = s.nblk := rfl
@[simp] theorem State.restartUnframer_lbits : s.restartUnframer.lbits = s.lbits := rfl
@[simp] theorem State.restartUnframer_imageTooLarge : s.restartUnframer.imageTooLarge = s.imageTooLarge := rfl
@[simp] theorem State.restartUnframer_imgAt (b : Nat) : s.restartUnframer.imgAt b = s.imgAt b := rfl
@[simp] theorem State.restartUnframer_msginAt (b : Nat) : s.restartUnframer.msginAt b = s.msginAt b := rfl
@[simp] theorem State.restartUnframer_msgoutAt (b : Nat) : s.restartUnframer.msgoutAt b = s.msgoutAt b := rfl
@[simp] theorem State.restartUnframer_sampleAddr (i j : Fin 8) : s.restartUnframer.sampleAddr i j = s.sampleAddr i j := rfl
@[simp] theorem State.restartUnframer_frameBit (j : Nat) : s.restartUnframer.frameBit j = s.frameBit j := rfl

end Sys2Proof.Machine
end

