-- ==== Sys2Proof/Laws/Commands.lean ====
section
/-! SUPPORT. What the body of a command can do, said once: which fields no deferred command touches before it ends
(`State.SameSettings`), and that each shared operation keeps the part of the invariant that is about data (`State.Data`). -/

namespace Sys2Proof.Machine

/-- `t` agrees with `s` in every field that the body of a deferred command leaves alone. -/
structure State.SameSettings (s t : State) : Prop where
  inst : t.inst = s.inst
  mode : t.mode = s.mode
  done : t.done = s.done
  hzd : t.hzd = s.hzd
  err : t.err = s.err
  errinfo0 : t.errinfo0 = s.errinfo0
  errinfo1 : t.errinfo1 = s.errinfo1
  expen : t.expen = s.expen
  width : t.width = s.width
  height : t.height = s.height
  msglen : t.msglen = s.msglen
  explen : t.explen = s.explen
  alpha : t.alpha = s.alpha
  msgin : t.msgin = s.msgin
  pend : t.pend = s.pend
  agenda : t.agenda = s.agenda
  rdata : t.rdata = s.rdata
  draws : t.draws = s.draws

theorem State.SameSettings.refl (s : State) : s.SameSettings s := by constructor <;> rfl

theorem State.SameSettings.trans {s t u : State} (h : s.SameSettings t) (k : t.SameSettings u) : s.SameSettings u := by
  obtain ⟨h1, h2, h3, h4, h5, h6, h7, h8, h9, h10, h11, h12, h13, h14, h15, h16, h17, h18⟩ := h
  obtain ⟨k1, k2, k3, k4, k5, k6, k7, k8, k9, k10, k11, k12, k13, k14, k15, k16, k17, k18⟩ := k
  constructor <;> simp_all only

theorem State.SameSettings.num {s t : State} (h : s.SameSettings t) : t.num = s.num := by
  simp only [State.num, h.inst]
theorem State.SameSettings.nblk {s t : State} (h : s.SameSettings t) : t.nblk = s.nblk := by
  simp only [State.nblk, State.bw, State.bh, h.width, h.height]
theorem State.SameSettings.lbits {s t : State} (h : s.SameSettings t) : t.lbits = s.lbits := by
  simp only [State.lbits, h.msglen]
theorem State.SameSettings.imageTooLarge {s t : State} (h : s.SameSettings t) : t.imageTooLarge = s.imageTooLarge := by
  simp only [State.imageTooLarge, h.inst, h.width, h.height]
theorem State.SameSettings.msginAt {s t : State} (h : s.SameSettings t) (a : Nat) : t.msginAt a = s.msginAt a := by
  simp only [State.msginAt, h.inst, h.msgin]
theorem State.SameSettings.frameBit {s t : State} (h : s.SameSettings t) (i : Nat) : t.frameBit i = s.frameBit i := by
  simp only [State.frameBit, h.msginAt, h.msglen]
theorem State.SameSettings.pending {s t : State} (h : s.SameSettings t) : t.pending = s.pending := by
  simp only [State.pending, h.pend]

/-- The part of the invariant that is about the data of the units, not about how commands run. -/
structure State.Data (s : State) : Prop where
  inst_wf : s.inst.wf = true
  uacc_lt : s.uacc.toNat < 2 ^ s.ucnt.toNat
  uterm_clear : s.uterm = true → s.uacc = 0 ∧ s.ucnt = 0
  ubits_eq : s.ubits = 8 * s.uout + s.ucnt.setWidth 32 + (if s.uterm then 8 else 0)
  uout_le : s.uout.toNat ≤ s.inst.msgoutMax
  outlen_le : s.outlen.toNat ≤ s.inst.msgoutMax
  fpos_le : s.fpos.toNat ≤ 2 ^ 31
  img_wf : Memory.wf s.inst.imgMax s.img = true
  msgin_wf : Memory.wf s.inst.msginMax s.msgin = true
  msgout_wf : Memory.wf s.inst.msgoutMax s.msgout = true

theorem State.Inv.data {s : State} (h : s.Inv) : s.Data :=
  ⟨h.inst_wf, h.uacc_lt, h.uterm_clear, h.ubits_eq, h.uout_le, h.outlen_le, h.fpos_le, h.img_wf, h.msgin_wf, h.msgout_wf⟩

/-- The state with which a command rule ends, before R175 or R176. -/
def CmdResult.state : CmdResult → State
  | .done s => s
  | .raise _ _ _ s => s

/-- A command rule started in `s` ends in a state that agrees with `s` in the settings and keeps the data part of the
invariant, and the error it raises, if any, is one that the spec's commands raise (R169). -/
structure CmdResult.Good (s : State) (r : CmdResult) : Prop where
  settings : s.SameSettings r.state
  data : s.Data → r.state.Data
  raises : ∀ e i0 i1 t, r = .raise e i0 i1 t → e ≠ .sizeMismatch

theorem CmdResult.Good.done {s t : State} (h : s.SameSettings t) (k : s.Data → t.Data) : CmdResult.Good s (.done t) :=
  ⟨h, k, by intro _ _ _ _ e; cases e⟩

theorem CmdResult.Good.raise {s t : State} {e : ErrorKind} (i0 i1 : Nat) (he : e ≠ .sizeMismatch) (h : s.SameSettings t)
    (k : s.Data → t.Data) : CmdResult.Good s (.raise e i0 i1 t) :=
  ⟨h, k, by intro _ _ _ _ e; cases e; exact he⟩

/-- Every command rule ends in a next state. -/
theorem CmdResult.finish_next (r : CmdResult) : ∃ t, r.finish = .next t := by cases r <;> exact ⟨_, rfl⟩

/-! ### Derived quantities -/

theorem State.bw_le (s : State) : s.bw ≤ 8191 := by
  have := s.width.isLt; simp only [State.bw]; omega
theorem State.bh_le (s : State) : s.bh ≤ 8191 := by
  have := s.height.isLt; simp only [State.bh]; omega
theorem State.nblk_le (s : State) : s.nblk ≤ 67092481 := Nat.mul_le_mul s.bw_le s.bh_le
theorem State.lbits_le (s : State) : s.lbits ≤ 2 ^ 31 := by
  have := s.msglen.isLt; simp only [State.lbits]; omega

/-! ### Block addresses (R112) -/

/-- A sample of a full block lies inside the image. -/
theorem blockAddr_lt {width height k : Nat} (h : k < width / 8 * (height / 8)) (r c : Fin 8) :
    blockAddr width k r c < width * height := by
  have hb : 0 < width / 8 := by
    rcases Nat.eq_zero_or_pos (width / 8) with h0 | h0
    · simp [h0] at h
    · exact h0
  have h1 : k / (width / 8) < height / 8 := Nat.div_lt_of_lt_mul h
  have h2 : k % (width / 8) < width / 8 := Nat.mod_lt _ hb
  have hrow : 8 * (k / (width / 8)) + r.val + 1 ≤ height := by omega
  have hcol : 8 * (k % (width / 8)) + c.val < width := by omega
  have := Nat.mul_le_mul_right width hrow
  simp only [blockAddr]
  rw [Nat.mul_comm width height]
  rw [Nat.add_mul, Nat.one_mul] at this
  omega

/-- Different samples of full blocks have different addresses. -/
theorem blockAddr_inj {width k k' : Nat} (hb : 0 < width / 8) {r c r' c' : Fin 8}
    (e : blockAddr width k r c = blockAddr width k' r' c') : k = k' ∧ r = r' ∧ c = c' := by
  have h2 : k % (width / 8) < width / 8 := Nat.mod_lt _ hb
  have h2' : k' % (width / 8) < width / 8 := Nat.mod_lt _ hb
  have hcol : 8 * (k % (width / 8)) + c.val < width := by omega
  have hcol' : 8 * (k' % (width / 8)) + c'.val < width := by omega
  simp only [blockAddr, Nat.add_assoc] at e
  have hrow := congrArg (· / width) e
  have hrem := congrArg (· % width) e
  simp only [Nat.mul_comm _ width] at hrow hrem
  rw [Nat.mul_add_div (by omega), Nat.mul_add_div (by omega), Nat.div_eq_of_lt hcol, Nat.div_eq_of_lt hcol'] at hrow
  rw [Nat.mul_add_mod, Nat.mul_add_mod, Nat.mod_eq_of_lt hcol, Nat.mod_eq_of_lt hcol'] at hrem
  have hk : k / (width / 8) = k' / (width / 8) := by omega
  have hm : k % (width / 8) = k' % (width / 8) := by omega
  refine ⟨?_, by ext; omega, by ext; omega⟩
  rw [← Nat.div_add_mod k (width / 8), ← Nat.div_add_mod k' (width / 8), hk, hm]

theorem State.bw_pos_of_lt {s : State} {k : Nat} (h : k < s.nblk) : 0 < s.bw := by
  rcases Nat.eq_zero_or_pos s.bw with h0 | h0
  · simp [State.nblk, h0] at h
  · exact h0

theorem State.sampleAddr_lt {s : State} (hf : s.imageTooLarge = false) (h : s.bidx.toNat < s.nblk) (r c : Fin 8) :
    s.sampleAddr r c < s.inst.imgMax := by
  have := blockAddr_lt (width := s.width.toNat) (height := s.height.toNat) h r c
  simp only [State.imageTooLarge, decide_eq_false_iff_not] at hf
  simp only [State.sampleAddr]; omega

theorem State.sampleAddr_inj {s : State} {k : Nat} (h : k < s.nblk) (r c r' c' : Fin 8)
    (e : s.sampleAddr r c = s.sampleAddr r' c') : r = r' ∧ c = c' :=
  (blockAddr_inj (State.bw_pos_of_lt h) e).2

/-! ### The bodies -/

theorem State.good_loadBlock (s : State) : CmdResult.Good s (.done s.loadBlock) :=
  .done (by constructor <;> rfl) fun h => by obtain ⟨⟩ := h; constructor <;> assumption

theorem State.good_forward (s : State) : CmdResult.Good s (.done s.forward) :=
  .done (by constructor <;> rfl) fun h => by obtain ⟨⟩ := h; constructor <;> assumption

theorem State.good_inverse (s : State) : CmdResult.Good s (.done s.inverse) :=
  .done (by constructor <;> rfl) fun h => by obtain ⟨⟩ := h; constructor <;> assumption

theorem State.good_embedBit (s : State) : CmdResult.Good s (.done s.embedBit) :=
  .done (by constructor <;> rfl) fun h => by obtain ⟨⟩ := h; constructor <;> assumption

theorem State.good_extractBit (s : State) : CmdResult.Good s (.done s.extractBit) :=
  .done (by constructor <;> rfl) fun h => by obtain ⟨⟩ := h; constructor <;> assumption

theorem State.good_setBidx (s : State) (k : Word) : CmdResult.Good s (.done (s.setBidx k)) :=
  .done (by constructor <;> rfl) fun h => by obtain ⟨⟩ := h; constructor <;> assumption

theorem State.good_setFpos (s : State) {k : Word} (hk : k.toNat ≤ 2 ^ 31) : CmdResult.Good s (.done (s.setFpos k)) :=
  .done (by constructor <;> rfl) fun h => by
    obtain ⟨h1, h2, h3, h4, h5, h6, h7, h8, h9, h10⟩ := h
    exact ⟨h1, h2, h3, h4, h5, h6, hk, h8, h9, h10⟩

/-- Moving on in the framed bits stays in the register. -/
theorem State.fpos_next {s : State} (h : s.fpos.toNat < s.lbits) : (s.fpos + 1).toNat = s.fpos.toNat + 1 := by
  have := s.lbits_le
  rw [BitVec.toNat_add]; simp; omega

theorem State.good_takeFrameBit (s : State) (hl : s.fpos.toNat < s.lbits) : CmdResult.Good s (.done s.takeFrameBit) :=
  .done (by constructor <;> rfl) fun h => by
    obtain ⟨h1, h2, h3, h4, h5, h6, h7, h8, h9, h10⟩ := h
    refine ⟨h1, h2, h3, h4, h5, h6, ?_, h8, h9, h10⟩
    have h0 : s.takeFrameBit.fpos = s.fpos + 1 := rfl
    have := s.lbits_le
    rw [h0, State.fpos_next hl]; omega

theorem State.good_restartUnframer (s : State) : CmdResult.Good s (.done s.restartUnframer) :=
  .done (by constructor <;> rfl) fun h => by
    obtain ⟨h1, h2, h3, h4, h5, h6, h7, h8, h9, h10⟩ := h
    exact ⟨h1, by simp [State.restartUnframer], by simp [State.restartUnframer], by simp [State.restartUnframer],
      by simp [State.restartUnframer], h6, h7, h8, h9, h10⟩

/-- Storing a block, where the tests of `STBLK` pass. -/
theorem State.good_storeBlock (s : State) (hf : s.imageTooLarge = false) (hk : s.bidx.toNat < s.nblk) :
    CmdResult.Good s (.done s.storeBlock) :=
  .done (by constructor <;> rfl) fun h => by
    obtain ⟨h1, h2, h3, h4, h5, h6, h7, h8, h9, h10⟩ := h
    exact ⟨h1, h2, h3, h4, h5, h6, h7, Memory.wf_writeBlock h8 _ _ (State.sampleAddr_lt hf hk), h9, h10⟩

theorem shiftedAcc_lt {s : State} (h : s.uacc.toNat < 2 ^ s.ucnt.toNat) (hc : s.ucnt.toNat < 7) :
    s.shiftedAcc.toNat < 2 ^ (s.ucnt.toNat + 1) := by
  have hs : s.shiftedAcc.toNat ≤ 2 * s.uacc.toNat + s.bit.toNat := by
    have hlt : s.uacc.toNat < 2 ^ 7 := lt_of_lt_of_le h (Nat.pow_le_pow_right (by omega) (by omega))
    simp only [State.shiftedAcc, BitVec.toNat_or, BitVec.toNat_shiftLeft, BitVec.toNat_setWidth, BitVec.toNat_ofBool]
    rw [Nat.shiftLeft_eq, Nat.mod_eq_of_lt (by omega), Nat.mod_eq_of_lt (by cases s.bit <;> decide)]
    have := Nat.shiftLeft_add_eq_or_of_lt (i := 1) (b := s.bit.toNat) (by cases s.bit <;> decide) s.uacc.toNat
    rw [Nat.shiftLeft_eq] at this
    omega
  have hb : s.bit.toNat ≤ 1 := by cases s.bit <;> decide
  rw [Nat.pow_succ]; omega

/-- Consuming one bit (R137). -/
theorem State.good_unframe (s : State) : CmdResult.Good s s.unframe := by
  unfold State.unframe
  split
  · exact .done (.refl s) id
  rename_i hu
  have hu : s.uterm = false := by simpa using hu
  split
  · rename_i hc
    refine .done (by constructor <;> rfl) fun h => ?_
    obtain ⟨h1, h2, h3, h4, h5, h6, h7, h8, h9, h10⟩ := h
    have hn : (s.ucnt + 1).toNat = s.ucnt.toNat + 1 := by rw [BitVec.toNat_add]; simp; omega
    refine ⟨h1, ?_, by simp [hu], ?_, h5, h6, h7, h8, h9, h10⟩
    · show s.shiftedAcc.toNat < 2 ^ (s.ucnt + 1).toNat
      rw [hn]; exact shiftedAcc_lt h2 hc
    · show s.ubits + 1 = 8 * s.uout + (s.ucnt + 1).setWidth 32 + (if s.uterm then 8 else 0)
      rw [hu] at h4 ⊢
      have : (s.ucnt + 1).setWidth 32 = s.ucnt.setWidth 32 + 1 := by
        apply BitVec.eq_of_toNat_eq
        simp only [BitVec.toNat_setWidth, BitVec.toNat_add, hn]
        simp
      rw [this, h4]; simp [BitVec.add_assoc]
  rename_i hc
  have hc7 : s.ucnt = 7 := by
    apply BitVec.eq_of_toNat_eq; have := s.ucnt.isLt; simp; omega
  split
  · refine .done (by constructor <;> rfl) fun h => ?_
    obtain ⟨h1, h2, h3, h4, h5, h6, h7, h8, h9, h10⟩ := h
    refine ⟨h1, by simp, by simp, ?_, h5, h6, h7, h8, h9, h10⟩
    show s.ubits + 1 = 8 * s.uout + (0 : BitVec 3).setWidth 32 + (if true = true then 8 else 0)
    rw [h4, hu, hc7]; simp [BitVec.add_assoc]
  split
  · exact .raise _ _ (by decide) (.refl s) id
  rename_i ho
  refine .done (by constructor <;> rfl) fun h => ?_
  obtain ⟨h1, h2, h3, h4, h5, h6, h7, h8, h9, h10⟩ := h
  have hw : s.inst.msgoutMax < 2 ^ 32 := by
    simp only [Inst.wf, Bool.and_eq_true, decide_eq_true_eq] at h1; omega
  have hn : (s.uout + 1).toNat = s.uout.toNat + 1 := by rw [BitVec.toNat_add]; simp; omega
  refine ⟨h1, by simp, by simp [hu], ?_, ?_, h6, h7, h8, h9, Memory.wf_write h10 (by omega) _⟩
  · show s.ubits + 1 = 8 * (s.uout + 1) + (0 : BitVec 3).setWidth 32 + (if s.uterm then 8 else 0)
    rw [h4, hu, hc7, BitVec.mul_add]; simp [BitVec.add_assoc]
  · show (s.uout + 1).toNat ≤ s.inst.msgoutMax
    omega

theorem CmdResult.Good.bind {s t : State} {r : CmdResult} (h : CmdResult.Good s (.done t)) (k : CmdResult.Good t r) :
    CmdResult.Good s r :=
  ⟨h.settings.trans k.settings, fun d => k.data (h.data d), k.raises⟩

theorem State.good_withBlock (s : State) (body : State → State)
    (h : s.imageTooLarge = false → s.bidx.toNat < s.nblk → CmdResult.Good s (.done (body s))) :
    CmdResult.Good s (s.withBlock body) := by
  unfold State.withBlock
  split
  · exact .raise _ _ (by decide) (.refl s) id
  split
  · exact .raise _ _ (by decide) (.refl s) id
  · exact h (by simpa using ‹¬s.imageTooLarge = true›) (by omega)

/-! ### The loops -/

/-- One iteration of `ENCODE` moves both positions on by one. -/
@[simp] theorem State.encodeBlock_bidx (s : State) : s.encodeBlock.bidx = s.bidx + 1 := by simp [State.encodeBlock]
@[simp] theorem State.encodeBlock_fpos (s : State) : s.encodeBlock.fpos = s.fpos + 1 := by simp [State.encodeBlock]

theorem State.good_encodeBlock (s : State) (hf : s.imageTooLarge = false) (hk : s.bidx.toNat < s.nblk)
    (hl : s.fpos.toNat < s.lbits) : CmdResult.Good s (.done s.encodeBlock) := by
  have g := ((((s.good_takeFrameBit hl).bind (State.good_loadBlock _)).bind (State.good_forward _)).bind
    (State.good_embedBit _)).bind (State.good_inverse _)
  have gs := State.good_storeBlock s.takeFrameBit.loadBlock.forward.embedBit.inverse (by simpa using hf) (by simpa using hk)
  exact (g.bind gs).bind (State.good_setBidx _ _)

theorem State.bidx_next {s : State} (h : s.bidx.toNat < s.nblk) : (s.bidx + 1).toNat = s.bidx.toNat + 1 := by
  have := s.nblk_le
  rw [BitVec.toNat_add]; simp; omega

theorem State.good_encodeBlocks (n : Nat) (s : State) (hf : s.imageTooLarge = false) (hk : s.bidx.toNat + n ≤ s.nblk)
    (hl : s.fpos.toNat + n ≤ s.lbits) : CmdResult.Good s (.done (State.encodeBlocks n s)) := by
  induction n generalizing s with
  | zero => exact .done (.refl s) id
  | succ n ih =>
    have hb := State.bidx_next (s := s) (by omega)
    have hp := State.fpos_next (s := s) (by omega)
    have g := s.good_encodeBlock hf (by omega) (by omega)
    have hs := g.settings
    refine g.bind (ih s.encodeBlock ?_ ?_ ?_)
    · exact hs.imageTooLarge.trans hf
    · rw [show s.encodeBlock.nblk = s.nblk from hs.nblk, State.encodeBlock_bidx, hb]; omega
    · rw [show s.encodeBlock.lbits = s.lbits from hs.lbits, State.encodeBlock_fpos, hp]; omega

theorem State.good_encodeRule (s : State) : CmdResult.Good s s.encodeRule := by
  unfold State.encodeRule
  split
  · exact .raise _ _ (by decide) (.refl s) id
  split
  · exact .raise _ _ (by decide) (.refl s) id
  split
  · exact .raise _ _ (by decide) (.refl s) id
  split
  · exact .raise _ _ (by decide) (.refl s) id
  rename_i h1 _ _ h4
  have g : CmdResult.Good s (.done ((s.setBidx 0).setFpos 0)) :=
    (s.good_setBidx 0).bind (State.good_setFpos _ (k := 0) (by simp))
  refine g.bind (State.good_encodeBlocks _ _ (by simpa using h1) ?_ ?_)
  · show (0 : Word).toNat + s.lbits ≤ s.nblk
    simp; omega
  · show (0 : Word).toNat + s.lbits ≤ s.lbits
    simp

theorem State.good_stop (s : State) (c : StopCause) : CmdResult.Good s (.done (s.setOutcome c s.uout)) :=
  .done (by constructor <;> rfl) fun h => by
    obtain ⟨h1, h2, h3, h4, h5, h6, h7, h8, h9, h10⟩ := h
    exact ⟨h1, h2, h3, h4, h5, h5, h7, h8, h9, h10⟩

theorem State.good_stopAtLimit (s : State) : CmdResult.Good s s.stopAtLimit := by
  unfold State.stopAtLimit
  split
  · exact s.good_stop _
  · exact .raise _ _ (by decide) (.refl s) id

theorem State.good_decodeBlocks (n : Nat) (s : State) : CmdResult.Good s (State.decodeBlocks n s) := by
  induction n generalizing s with
  | zero =>
    unfold State.decodeBlocks
    split
    · exact s.good_stop _
    · exact s.good_stopAtLimit
  | succ n ih =>
    unfold State.decodeBlocks
    split
    · exact s.good_stop _
    · have g := (((s.good_loadBlock).bind (State.good_forward _)).bind (State.good_extractBit _)).bind (State.good_unframe _)
      split
      · rename_i h; rw [h] at g; exact g
      · rename_i h; rw [h] at g; exact g.bind ((State.good_setBidx _ _).bind (ih _))

theorem State.good_decodeRule (s : State) : CmdResult.Good s s.decodeRule := by
  have g : CmdResult.Good s (.done (s.setOutcome .none 0)) :=
    .done (by constructor <;> rfl) fun h => by
      obtain ⟨h1, h2, h3, h4, h5, h6, h7, h8, h9, h10⟩ := h
      exact ⟨h1, h2, h3, h4, h5, by simp, h7, h8, h9, h10⟩
  unfold State.decodeRule
  split
  · exact .raise _ _ (by decide) g.settings g.data
  · exact g.bind (((State.good_setBidx _ 0).bind (State.good_restartUnframer _)).bind (State.good_decodeBlocks _ _))

/-! ### Every deferred command -/

/-- What a deferred command can do: its rule is a good one, and it ends by R175 or R176. -/
theorem exec_deferred (i : Instr) (s : State) (hi : i.immediate = false) :
    ∃ r, exec i s = r.finish ∧ CmdResult.Good s r := by
  cases i with
  | nop => cases hi
  | clrerr => cases hi
  | sreset => cases hi
  | fdct => exact ⟨_, rfl, s.good_forward⟩
  | idct => exact ⟨_, rfl, s.good_inverse⟩
  | embed =>
    refine ⟨_, rfl, ?_⟩
    split
    · exact .raise _ _ (by decide) (.refl s) id
    · exact s.good_embedBit
  | extract => exact ⟨_, rfl, s.good_extractBit⟩
  | blkrst => exact ⟨_, rfl, s.good_setBidx _⟩
  | blknext =>
    refine ⟨.done (if s.bidx.toNat < s.nblk then s.setBidx (s.bidx + 1) else s), rfl, ?_⟩
    split
    · exact s.good_setBidx _
    · exact .done (.refl s) id
  | ldblk => exact ⟨_, rfl, s.good_withBlock _ fun _ _ => s.good_loadBlock⟩
  | stblk => exact ⟨_, rfl, s.good_withBlock _ s.good_storeBlock⟩
  | frmrst => exact ⟨_, rfl, s.good_setFpos (k := 0) (by simp)⟩
  | frmget =>
    refine ⟨_, rfl, ?_⟩
    split
    · exact .raise _ _ (by decide) (.refl s) id
    split
    · exact .raise _ _ (by decide) (.refl s) id
    · exact s.good_takeFrameBit (by omega)
  | unfrst => exact ⟨_, rfl, s.good_restartUnframer⟩
  | unfput => exact ⟨_, rfl, s.good_unframe⟩
  | encode => exact ⟨_, rfl, s.good_encodeRule⟩
  | decode => exact ⟨_, rfl, s.good_decodeRule⟩

/-- Every command answers a next state from every state. -/
theorem exec_next (i : Instr) (s : State) : ∃ t, exec i s = .next t := by
  cases hi : i.immediate with
  | true => cases i <;> first | exact ⟨_, rfl⟩ | cases hi
  | false =>
    obtain ⟨r, hr, -⟩ := exec_deferred i s hi
    rw [hr]; exact r.finish_next

end Sys2Proof.Machine
end

