-- ==== Sys2Proof/Laws/Control.lean ====
section
/-! SUPPORT. No rule of a deferred command reads `STATE`, `DONE` or `PEND`, so its effect is the same before and after it was
accepted (20_memory.md R71). -/

namespace Sys2Proof.Machine

/-- `s` with other values in the three fields that accepting a command writes, and in the agenda. -/
def State.withRun (s : State) (m : Mode) (d : Bool) (p : Option (BitVec 8)) (g : List Event) : State :=
  { s with mode := m, done := d, pend := p, agenda := g }

/-- An outcome whose next state, if any, has agenda `g`. -/
def withAgenda (g : List Event) : Host.Outcome State Fault Refusal → Host.Outcome State Fault Refusal
  | .next s => .next { s with agenda := g }
  | .fault f => .fault f
  | .refused f => .refused f

/-- A change applied to the state with which a rule ends. -/
def CmdResult.map (f : State → State) : CmdResult → CmdResult
  | .done s => .done (f s)
  | .raise e i0 i1 s => .raise e i0 i1 (f s)

variable (m : Mode) (d : Bool) (p : Option (BitVec 8)) (g : List Event)

@[simp] theorem State.withRun_inst (s : State) : (s.withRun m d p g).inst = s.inst := rfl
@[simp] theorem State.withRun_uterm (s : State) : (s.withRun m d p g).uterm = s.uterm := rfl
@[simp] theorem State.withRun_ucnt (s : State) : (s.withRun m d p g).ucnt = s.ucnt := rfl
@[simp] theorem State.withRun_uout (s : State) : (s.withRun m d p g).uout = s.uout := rfl
@[simp] theorem State.withRun_bidx (s : State) : (s.withRun m d p g).bidx = s.bidx := rfl
@[simp] theorem State.withRun_fpos (s : State) : (s.withRun m d p g).fpos = s.fpos := rfl
@[simp] theorem State.withRun_expen (s : State) : (s.withRun m d p g).expen = s.expen := rfl
@[simp] theorem State.withRun_explen (s : State) : (s.withRun m d p g).explen = s.explen := rfl
@[simp] theorem State.withRun_imageTooLarge (s : State) : (s.withRun m d p g).imageTooLarge = s.imageTooLarge := rfl
@[simp] theorem State.withRun_messageTooLong (s : State) : (s.withRun m d p g).messageTooLong = s.messageTooLong := rfl
@[simp] theorem State.withRun_alphaNotPositive (s : State) : (s.withRun m d p g).alphaNotPositive = s.alphaNotPositive := rfl
@[simp] theorem State.withRun_nblk (s : State) : (s.withRun m d p g).nblk = s.nblk := rfl
@[simp] theorem State.withRun_lbits (s : State) : (s.withRun m d p g).lbits = s.lbits := rfl
@[simp] theorem State.withRun_shiftedAcc (s : State) : (s.withRun m d p g).shiftedAcc = s.shiftedAcc := rfl
@[simp] theorem State.withRun_decodeLimit (s : State) : (s.withRun m d p g).decodeLimit = s.decodeLimit := rfl

@[simp] theorem CmdResult.finish_withRun (r : CmdResult) : (r.map fun s => s.withRun m d p g).finish = withAgenda g r.finish := by
  cases r <;> rfl

theorem State.unframe_withRun (s : State) : (s.withRun m d p g).unframe = s.unframe.map fun s => s.withRun m d p g := by
  unfold State.unframe
  simp only [State.withRun_uterm, State.withRun_ucnt, State.withRun_shiftedAcc, State.withRun_inst, State.withRun_uout]
  simp only [apply_ite (CmdResult.map fun s => s.withRun m d p g)]
  rfl

theorem State.withBlock_withRun (s : State) (body : State → State)
    (h : body (s.withRun m d p g) = (body s).withRun m d p g) :
    (s.withRun m d p g).withBlock body = (s.withBlock body).map fun s => s.withRun m d p g := by
  unfold State.withBlock
  rw [h]
  simp only [State.withRun_imageTooLarge, State.withRun_nblk, State.withRun_bidx]
  simp only [apply_ite (CmdResult.map fun s => s.withRun m d p g)]
  rfl

theorem State.loadBlock_withRun (s : State) : (s.withRun m d p g).loadBlock = s.loadBlock.withRun m d p g := rfl
theorem State.forward_withRun (s : State) : (s.withRun m d p g).forward = s.forward.withRun m d p g := rfl
theorem State.inverse_withRun (s : State) : (s.withRun m d p g).inverse = s.inverse.withRun m d p g := rfl
theorem State.storeBlock_withRun (s : State) : (s.withRun m d p g).storeBlock = s.storeBlock.withRun m d p g := rfl
theorem State.embedBit_withRun (s : State) : (s.withRun m d p g).embedBit = s.embedBit.withRun m d p g := rfl
theorem State.extractBit_withRun (s : State) : (s.withRun m d p g).extractBit = s.extractBit.withRun m d p g := rfl
theorem State.takeFrameBit_withRun (s : State) : (s.withRun m d p g).takeFrameBit = s.takeFrameBit.withRun m d p g := rfl
theorem State.setBidx_withRun (s : State) (k : Word) : (s.withRun m d p g).setBidx k = (s.setBidx k).withRun m d p g := rfl
theorem State.setFpos_withRun (s : State) (k : Word) : (s.withRun m d p g).setFpos k = (s.setFpos k).withRun m d p g := rfl
theorem State.setOutcome_withRun (s : State) (c : StopCause) (n : Word) :
    (s.withRun m d p g).setOutcome c n = (s.setOutcome c n).withRun m d p g := rfl
theorem State.restartUnframer_withRun (s : State) : (s.withRun m d p g).restartUnframer = s.restartUnframer.withRun m d p g := rfl

theorem State.encodeBlock_withRun (s : State) : (s.withRun m d p g).encodeBlock = s.encodeBlock.withRun m d p g := by
  simp only [State.encodeBlock, State.takeFrameBit_withRun, State.loadBlock_withRun, State.forward_withRun,
    State.embedBit_withRun, State.inverse_withRun, State.storeBlock_withRun, State.setBidx_withRun, State.withRun_bidx]

theorem State.encodeBlocks_withRun (n : Nat) (s : State) :
    State.encodeBlocks n (s.withRun m d p g) = (State.encodeBlocks n s).withRun m d p g := by
  induction n generalizing s with
  | zero => rfl
  | succ n ih => simp only [State.encodeBlocks, State.encodeBlock_withRun, ih]

theorem State.encodeRule_withRun (s : State) :
    (s.withRun m d p g).encodeRule = s.encodeRule.map fun s => s.withRun m d p g := by
  unfold State.encodeRule
  rw [State.setBidx_withRun, State.setFpos_withRun, State.encodeBlocks_withRun]
  simp only [State.withRun_imageTooLarge, State.withRun_messageTooLong, State.withRun_alphaNotPositive, State.withRun_nblk,
    State.withRun_lbits]
  simp only [apply_ite (CmdResult.map fun s => s.withRun m d p g)]
  rfl

theorem State.stopAtLimit_withRun (s : State) :
    (s.withRun m d p g).stopAtLimit = s.stopAtLimit.map fun s => s.withRun m d p g := by
  unfold State.stopAtLimit
  simp only [State.withRun_expen, State.withRun_explen, State.withRun_nblk, State.withRun_uout, State.setOutcome_withRun]
  simp only [apply_ite (CmdResult.map fun s => s.withRun m d p g)]
  rfl

theorem State.decodeBlocks_withRun (n : Nat) (s : State) :
    State.decodeBlocks n (s.withRun m d p g) = (State.decodeBlocks n s).map fun s => s.withRun m d p g := by
  induction n generalizing s with
  | zero =>
    unfold State.decodeBlocks
    rw [State.withRun_uterm, State.stopAtLimit_withRun]
    simp only [apply_ite (CmdResult.map fun s => s.withRun m d p g)]
    rfl
  | succ n ih =>
    unfold State.decodeBlocks
    rw [State.loadBlock_withRun, State.forward_withRun, State.extractBit_withRun, State.unframe_withRun,
      State.withRun_uterm]
    split
    · rfl
    cases s.loadBlock.forward.extractBit.unframe with
    | raise e i0 i1 t => rfl
    | done t => simp only [CmdResult.map, State.setBidx_withRun, ih, State.withRun_bidx]

theorem State.decodeRule_withRun (s : State) :
    (s.withRun m d p g).decodeRule = s.decodeRule.map fun s => s.withRun m d p g := by
  unfold State.decodeRule
  rw [State.setOutcome_withRun, State.setBidx_withRun, State.restartUnframer_withRun, State.decodeBlocks_withRun]
  simp only [State.withRun_imageTooLarge, State.withRun_decodeLimit]
  simp only [apply_ite (CmdResult.map fun s => s.withRun m d p g)]
  rfl

/-- The effect of a deferred command does not depend on `STATE`, `DONE`, `PEND` and what is due next. -/
theorem exec_withRun (i : Instr) (hi : i.immediate = false) (s : State) :
    exec i (s.withRun m d p g) = withAgenda g (exec i s) := by
  cases i with
  | nop => cases hi
  | clrerr => cases hi
  | sreset => cases hi
  | fdct => rfl
  | idct => rfl
  | embed =>
    cases h : s.alphaNotPositive <;> simp only [exec, execEmbed, State.withRun_alphaNotPositive, h] <;> rfl
  | extract => rfl
  | blkrst => rfl
  | blknext =>
    by_cases h : s.bidx.toNat < s.nblk <;>
      simp only [exec, execBlknext, State.withRun_bidx, State.withRun_nblk, h, if_true, if_false] <;> rfl
  | ldblk =>
    show (State.withBlock _ _).finish = withAgenda g (State.withBlock _ _).finish
    rw [State.withBlock_withRun _ _ _ _ _ _ (State.loadBlock_withRun _ _ _ _ _), CmdResult.finish_withRun]
  | stblk =>
    show (State.withBlock _ _).finish = withAgenda g (State.withBlock _ _).finish
    rw [State.withBlock_withRun _ _ _ _ _ _ (State.storeBlock_withRun _ _ _ _ _), CmdResult.finish_withRun]
  | frmrst => rfl
  | frmget =>
    cases h : s.messageTooLong <;> by_cases k : s.lbits ≤ s.fpos.toNat <;>
      simp only [exec, execFrmget, State.withRun_messageTooLong, State.withRun_lbits, State.withRun_fpos, h, k, if_true,
        if_false] <;> rfl
  | unfrst => rfl
  | unfput =>
    show (State.unframe _).finish = withAgenda g (State.unframe _).finish
    rw [State.unframe_withRun, CmdResult.finish_withRun]
  | encode =>
    show (State.encodeRule _).finish = withAgenda g (State.encodeRule _).finish
    rw [State.encodeRule_withRun, CmdResult.finish_withRun]
  | decode =>
    show (State.decodeRule _).finish = withAgenda g (State.decodeRule _).finish
    rw [State.decodeRule_withRun, CmdResult.finish_withRun]

end Sys2Proof.Machine
end

