-- ==== Sys2Proof/Laws/Frames.lean ====
section
/-! SUPPORT. The cases of the shared operations, one lemma each, and what the loops leave alone beside the settings. -/

namespace Sys2Proof.Machine

/-! ### The tests of `LDBLK` and `STBLK` -/

theorem State.withBlock_tooLarge {s : State} (body : State → State) (h : s.imageTooLarge = true) :
    s.withBlock body = .raise .badConfig 1 0 s := by
  simp only [State.withBlock, h, if_true]

theorem State.withBlock_outside {s : State} (body : State → State) (h : s.imageTooLarge = false)
    (k : s.nblk ≤ s.bidx.toNat) : s.withBlock body = .raise .blockRange s.bidx.toNat s.nblk s := by
  simp [State.withBlock, h, k]

theorem State.withBlock_inside {s : State} (body : State → State) (h : s.imageTooLarge = false)
    (k : s.bidx.toNat < s.nblk) : s.withBlock body = .done (body s) := by
  simp [State.withBlock, h, not_le.mpr k]

/-! ### The five cases of `UNFPUT` (R137) -/

theorem State.unframe_ignores {s : State} (h : s.uterm = true) : s.unframe = .done s := by
  simp only [State.unframe, h, if_true]

theorem State.unframe_shifts {s : State} (h : s.uterm = false) (k : s.ucnt.toNat < 7) : s.unframe = .done s.shiftIn := by
  simp [State.unframe, h, k]

theorem State.unframe_ends {s : State} (h : s.uterm = false) (k : s.ucnt.toNat = 7) (z : s.shiftedAcc = 0) :
    s.unframe = .done s.endMessage := by
  simp [State.unframe, h, k, z]

theorem State.unframe_overflows {s : State} (h : s.uterm = false) (k : s.ucnt.toNat = 7) (z : s.shiftedAcc ≠ 0)
    (o : s.inst.msgoutMax ≤ s.uout.toNat) : s.unframe = .raise .outputOverflow s.uout.toNat s.inst.msgoutMax s := by
  have z : ¬s.shiftedAcc = 0#8 := z
  simp [State.unframe, h, k, z, o]

theorem State.unframe_stores {s : State} (h : s.uterm = false) (k : s.ucnt.toNat = 7) (z : s.shiftedAcc ≠ 0)
    (o : s.uout.toNat < s.inst.msgoutMax) : s.unframe = .done s.storeByte := by
  have z : ¬s.shiftedAcc = 0#8 := z
  simp [State.unframe, h, k, z, not_le.mpr o]

/-- What consuming a bit leaves alone, beside the settings. -/
theorem State.unframe_frame (s : State) :
    s.unframe.state.stopc = s.stopc ∧ s.unframe.state.outlen = s.outlen ∧ s.unframe.state.bidx = s.bidx ∧
    s.unframe.state.bit = s.bit ∧ s.unframe.state.fpos = s.fpos ∧ s.unframe.state.blk = s.blk ∧
    s.unframe.state.coef = s.coef ∧ s.unframe.state.img = s.img := by
  unfold State.unframe
  split
  · exact ⟨rfl, rfl, rfl, rfl, rfl, rfl, rfl, rfl⟩
  split
  · exact ⟨rfl, rfl, rfl, rfl, rfl, rfl, rfl, rfl⟩
  split
  · exact ⟨rfl, rfl, rfl, rfl, rfl, rfl, rfl, rfl⟩
  split <;> exact ⟨rfl, rfl, rfl, rfl, rfl, rfl, rfl, rfl⟩

/-! ### The loops -/

/-- What the loop of `ENCODE` leaves alone, beside the settings. -/
theorem State.encodeBlocks_frame (n : Nat) (s : State) :
    (State.encodeBlocks n s).uterm = s.uterm ∧ (State.encodeBlocks n s).stopc = s.stopc ∧
    (State.encodeBlocks n s).outlen = s.outlen ∧ (State.encodeBlocks n s).uacc = s.uacc ∧
    (State.encodeBlocks n s).ucnt = s.ucnt ∧ (State.encodeBlocks n s).ubits = s.ubits ∧
    (State.encodeBlocks n s).uout = s.uout ∧ (State.encodeBlocks n s).msgout = s.msgout := by
  induction n generalizing s with
  | zero => exact ⟨rfl, rfl, rfl, rfl, rfl, rfl, rfl, rfl⟩
  | succ n ih =>
    have h := ih s.encodeBlock
    simpa [State.encodeBlocks, State.encodeBlock] using h

/-- What the loop of `DECODE` leaves alone, beside the settings. -/
theorem State.decodeBlocks_frame (n : Nat) (s : State) :
    (State.decodeBlocks n s).state.fpos = s.fpos ∧ (State.decodeBlocks n s).state.img = s.img := by
  have atLimit : ∀ s : State, s.stopAtLimit.state.fpos = s.fpos ∧ s.stopAtLimit.state.img = s.img := by
    intro s; unfold State.stopAtLimit; split <;> exact ⟨rfl, rfl⟩
  induction n generalizing s with
  | zero =>
    unfold State.decodeBlocks
    split
    · exact ⟨rfl, rfl⟩
    · exact atLimit s
  | succ n ih =>
    unfold State.decodeBlocks
    split
    · exact ⟨rfl, rfl⟩
    have f := s.loadBlock.forward.extractBit.unframe_frame
    cases h : s.loadBlock.forward.extractBit.unframe with
    | raise e i0 i1 t => rw [h] at f; exact ⟨f.2.2.2.2.1, f.2.2.2.2.2.2.2⟩
    | done t =>
      rw [h] at f
      have := ih (t.setBidx (t.bidx + 1))
      exact ⟨this.1.trans f.2.2.2.2.1, this.2.trans f.2.2.2.2.2.2.2⟩

/-! ### The memories only gain cells -/

theorem State.encodeBlocks_grows (n : Nat) (s : State) : Mem.Grows s.img (State.encodeBlocks n s).img := by
  induction n generalizing s with
  | zero => exact .refl _
  | succ n ih =>
    refine Mem.Grows.trans ?_ (ih s.encodeBlock)
    simp only [State.encodeBlock, State.setBidx_img, State.storeBlock_img, State.inverse_img, State.embedBit_img,
      State.forward_img, State.loadBlock_img, State.takeFrameBit_img]
    exact Mem.grows_writeBlock _ _ _

theorem State.unframe_grows (s : State) : Mem.Grows s.msgout s.unframe.state.msgout := by
  unfold State.unframe
  split
  · exact .refl _
  split
  · exact .refl _
  split
  · exact .refl _
  split
  · exact .refl _
  · exact Mem.grows_write _ _ _

theorem State.decodeBlocks_grows (n : Nat) (s : State) : Mem.Grows s.msgout (State.decodeBlocks n s).state.msgout := by
  have atLimit : ∀ s : State, s.stopAtLimit.state.msgout = s.msgout := by
    intro s; unfold State.stopAtLimit; split <;> rfl
  induction n generalizing s with
  | zero =>
    unfold State.decodeBlocks
    split
    · exact .refl _
    · rw [atLimit]; exact .refl _
  | succ n ih =>
    unfold State.decodeBlocks
    split
    · exact .refl _
    have f := s.loadBlock.forward.extractBit.unframe_grows
    cases h : s.loadBlock.forward.extractBit.unframe with
    | raise e i0 i1 t => rw [h] at f; exact f
    | done t => rw [h] at f; exact f.trans (ih (t.setBidx (t.bidx + 1)))

end Sys2Proof.Machine
end

