-- ==== Sys2Proof/Laws/Host.lean ====
section
/-! SUPPORT. The cases of a host access (20_memory.md R64, R65, R74), one lemma each. -/

namespace Sys2Proof.Machine

theorem State.hostRead_outside {s : State} {sp : Space} {i : Nat} (h : sp.size s.inst ≤ i) :
    s.hostRead sp i = s.returnFree sp := by
  simp only [State.hostRead, not_lt.mpr h, if_false]

theorem State.hostRead_busy {s : State} {sp : Space} {i : Nat} (h : i < sp.size s.inst) (m : s.mode = .busy)
    (n : ¬(sp = .reg ∧ i = 0x01)) : s.hostRead sp i = s.hazard.returnFree sp := by
  rw [State.hostRead, if_pos h, if_pos ⟨m, n⟩]

theorem State.hostRead_status (s : State) : s.hostRead .reg 0x01 = s.returnCell .reg 0x01 := by
  simp [State.hostRead, Space.size]

theorem State.hostRead_cell {s : State} {sp : Space} {i : Nat} (h : i < sp.size s.inst) (m : s.mode ≠ .busy) :
    s.hostRead sp i = s.returnCell sp i := by
  rw [State.hostRead, if_pos h, if_neg fun k => m k.1]

theorem State.hostWrite_outside {s : State} {sp : Space} {i : Nat} (f : State → State) (h : sp.size s.inst ≤ i) :
    s.hostWrite sp i f = s := by
  simp only [State.hostWrite, not_lt.mpr h, if_false]

theorem State.hostWrite_busy {s : State} {sp : Space} {i : Nat} (f : State → State) (h : i < sp.size s.inst)
    (m : s.mode = .busy) : s.hostWrite sp i f = s.hazard := by
  simp only [State.hostWrite, h, m, if_true]

theorem State.hostWrite_stores {s : State} {sp : Space} {i : Nat} (f : State → State) (h : i < sp.size s.inst)
    (m : s.mode ≠ .busy) : s.hostWrite sp i f = f s := by
  simp only [State.hostWrite, h, m, if_true, if_false]

/-! ### The matrix windows of `SREG` -/

theorem Mat8.getElem_window {α : Type} (b : Mat8 α) (r c : Fin 8) : b[8 * r.val + c.val]? = some (b.at r c) := by
  rw [Vector.getElem?_eq_getElem (by omega)]; rfl

theorem Mat8.set_window {α : Type} (b : Mat8 α) (r c : Fin 8) (v : α) :
    b.setIfInBounds (8 * r.val + c.val) v = b.put r c v := by
  apply Vector.ext; intro k hk
  rw [Vector.getElem_setIfInBounds]
  exact (Vector.getElem_set (by omega) hk).symm

/-- A read of cell `64 + 8*r + c` of `SREG` gives `BLK[r][c]` (R31). -/
theorem State.sregAt_blk (s : State) (r c : Fin 8) : s.sregAt (64 + 8 * r.val + c.val) = s.blk.at r c := by
  simp only [State.sregAt]
  rw [if_neg (by omega), if_pos (by omega), show 64 + 8 * r.val + c.val - 64 = 8 * r.val + c.val by omega,
    Mat8.getElem_window]; rfl

/-- A read of cell `128 + 8*r + c` of `SREG` gives `COEF[r][c]` (R32). -/
theorem State.sregAt_coef (s : State) (r c : Fin 8) : s.sregAt (128 + 8 * r.val + c.val) = s.coef.at r c := by
  simp only [State.sregAt]
  rw [if_neg (by omega), if_neg (by omega), if_pos (by omega),
    show 128 + 8 * r.val + c.val - 128 = 8 * r.val + c.val by omega, Mat8.getElem_window]; rfl

end Sys2Proof.Machine
end

