-- ==== Sys2Proof/Laws/PerInstr.lean ====
section
/-! SUPPORT. What is said of each command as syntax, one lemma per constructor. -/

namespace Sys2Proof.Laws.WordRoundTrip

/-- The word of a command decodes to that command, its upper three bytes are 0 (R85), and the host's view of the decoder
reads the same command from it. -/
def Statement (i : Instr) : Prop :=
  decodeWord (encode i) = .ok i ∧ rsvField (encode i) = 0 ∧ decodeTableWord 32 (encode i).toNat = some i

theorem nop : Statement .nop := by unfold Statement; decide
theorem clrerr : Statement .clrerr := by unfold Statement; decide
theorem sreset : Statement .sreset := by unfold Statement; decide
theorem fdct : Statement .fdct := by unfold Statement; decide
theorem idct : Statement .idct := by unfold Statement; decide
theorem embed : Statement .embed := by unfold Statement; decide
theorem extract : Statement .extract := by unfold Statement; decide
theorem blkrst : Statement .blkrst := by unfold Statement; decide
theorem blknext : Statement .blknext := by unfold Statement; decide
theorem ldblk : Statement .ldblk := by unfold Statement; decide
theorem stblk : Statement .stblk := by unfold Statement; decide
theorem frmrst : Statement .frmrst := by unfold Statement; decide
theorem frmget : Statement .frmget := by unfold Statement; decide
theorem unfrst : Statement .unfrst := by unfold Statement; decide
theorem unfput : Statement .unfput := by unfold Statement; decide
theorem encode : Statement .encode := by unfold Statement; decide
theorem decode : Statement .decode := by unfold Statement; decide

end Sys2Proof.Laws.WordRoundTrip
end

