-- ==== Sys2Proof/Laws/Reference.lean ====
section
/-! SUPPORT. The reference instance is exact real arithmetic with the matrix `T` of 40_transform.md R101: the operations on
samples are those of linear forms and of the real numbers that the forms are, `T[k][n]` is `a(k)·cos((2n+1)·k·π/16)`, the
transforms are inverse to each other; and the numerics of every instance are what the spec requires (`Inst.lawful`). -/

namespace Sys2Proof

open Reference

/-! ### Linear forms -/

section Forms
variable {R : Type} [CommRing R] {φ : Scalar → R} (h : level.Hom φ) (w : Nat → R)
include h

theorem Form.eval_cons (i : Nat) (x : Scalar) (m : List (Nat × Scalar)) :
    Form.eval φ w (Form.cons i x m) = φ x * w i + Form.eval φ w m := by
  unfold Form.cons
  split
  · rw [h.isZero x ‹_›]; ring
  · rfl

theorem Form.eval_insert (i : Nat) (x : Scalar) : ∀ m : List (Nat × Scalar),
    Form.eval φ w (Form.insert i x m) = φ x * w i + Form.eval φ w m
  | [] => Form.eval_cons h w i x []
  | (j, y) :: m => by
    unfold Form.insert
    split
    · exact Form.eval_cons h w i x _
    split
    · rename_i e; subst e
      rw [Form.eval_cons h, h.add, Form.eval]; ring
    · rw [Form.eval, Form.eval_insert i x m, Form.eval]; ring

theorem Form.eval_add : ∀ m n : List (Nat × Scalar), Form.eval φ w (Form.add m n) = Form.eval φ w m + Form.eval φ w n
  | [], n => (zero_add _).symm
  | (i, x) :: m, n => by rw [Form.add, Form.eval_insert h, Form.eval_add m n, Form.eval]; ring

theorem Form.eval_map {f : Scalar → Scalar} {c : R} (hf : ∀ x, φ (f x) = c * φ x) : ∀ m : List (Nat × Scalar),
    Form.eval φ w (Form.map f m) = c * Form.eval φ w m
  | [] => (mul_zero c).symm
  | (i, x) :: m => by rw [Form.map, Form.eval_cons h, hf, Form.eval_map hf m, Form.eval]; ring

theorem Sample.eval_add (v v' : Sample) : (v.add v').eval φ w = v.eval φ w + v'.eval φ w := Form.eval_add h w _ _
theorem Sample.eval_scale (x : Scalar) (v : Sample) : (Sample.scale x v).eval φ w = φ x * v.eval φ w :=
  Form.eval_map h w (fun y => h.mul x y) _
theorem Sample.eval_neg (v : Sample) : v.neg.eval φ w = -v.eval φ w := by
  have := Form.eval_map h w (f := level.neg) (c := -1) (fun y => by rw [h.neg]; ring) v.terms.1
  exact this.trans (neg_one_mul _)
theorem Sample.eval_term (i : Nat) (x : Scalar) : (Sample.term i x).eval φ w = φ x * w i := by
  exact (Form.eval_cons h w i x []).trans (add_zero _)

omit h in
/-- Indices below the first one of a form have factor 0. -/
theorem Form.eval_below (i : Nat) : ∀ (m : List (Nat × Scalar)) (lo : Nat), i < lo → Form.wfFrom lo m = true →
    Form.eval φ (fun j => if j = i then 1 else 0) m = 0
  | [], _, _, _ => rfl
  | (j, x) :: m, lo, hi, k => by
    simp only [Form.wfFrom, Bool.and_eq_true, decide_eq_true_eq] at k
    simp [Form.eval, show j ≠ i by omega, Form.eval_below i m (j + 1) (by omega) k.2]

/-- A form is determined by its factors. -/
theorem Form.ext (inj : Function.Injective φ) : ∀ (m n : List (Nat × Scalar)) (lo : Nat), Form.wfFrom lo m = true →
    Form.wfFrom lo n = true →
    (∀ i, Form.eval φ (fun j => if j = i then 1 else 0) m = Form.eval φ (fun j => if j = i then 1 else 0) n) → m = n := by
  have nz : ∀ x, (!level.isZero x) = true → φ x ≠ 0 := by
    intro x hx e
    rw [← h.zero] at e
    rw [(Scalar.isZero_iff x).mpr (inj e)] at hx
    exact absurd hx (by decide)
  intro m
  induction m with
  | nil =>
    intro n lo _ k e
    match n, k, e with
    | [], _, _ => rfl
    | (j, y) :: n, k, e =>
      simp only [Form.wfFrom, Bool.and_eq_true, decide_eq_true_eq] at k
      have := e j
      simp only [Form.eval, if_true, Form.eval_below j n (j + 1) (by omega) k.2] at this
      exact absurd (by simpa using this.symm) (nz y k.1.2)
  | cons t m ih =>
    obtain ⟨i, x⟩ := t
    intro n lo hm k e
    simp only [Form.wfFrom, Bool.and_eq_true, decide_eq_true_eq] at hm
    match n, k, e with
    | [], _, e =>
      have := e i
      simp only [Form.eval, if_true, Form.eval_below i m (i + 1) (by omega) hm.2] at this
      exact absurd (by simpa using this) (nz x hm.1.2)
    | (j, y) :: n, k, e =>
      simp only [Form.wfFrom, Bool.and_eq_true, decide_eq_true_eq] at k
      rcases lt_trichotomy i j with hij | hij | hij
      · have := e i
        simp only [Form.eval, if_true, Form.eval_below i m (i + 1) (by omega) hm.2, show j ≠ i by omega, if_false,
          Form.eval_below i n (j + 1) (by omega) k.2] at this
        exact absurd (by simpa using this) (nz x hm.1.2)
      · subst hij
        have hx := e i
        simp only [Form.eval, if_true, Form.eval_below i m (i + 1) (by omega) hm.2,
          Form.eval_below i n (i + 1) (by omega) k.2] at hx
        have hxy : x = y := inj (by simpa using hx)
        subst hxy
        refine congrArg _ (ih n (i + 1) hm.2 k.2 fun a => ?_)
        have := e a
        simp only [Form.eval] at this
        exact add_left_cancel this
      · have := e j
        simp only [Form.eval, if_true, Form.eval_below j n (j + 1) (by omega) k.2, show i ≠ j by omega, if_false,
          Form.eval_below j m (i + 1) (by omega) hm.2] at this
        exact absurd (by simpa using this.symm) (nz y k.1.2)

theorem Sample.ext_eval (inj : Function.Injective φ) {v v' : Sample}
    (e : ∀ i, v.eval φ (fun j => if j = i then 1 else 0) = v'.eval φ (fun j => if j = i then 1 else 0)) : v = v' := by
  obtain ⟨⟨m, hm⟩⟩ := v
  obtain ⟨⟨n, hn⟩⟩ := v'
  obtain rfl : m = n := Form.ext h inj m n 0 hm hn e
  rfl

end Forms

/-! ### The real numbers that samples are -/

namespace Sample

theorem real_zero : Sample.zero.real = 0 := rfl
theorem real_add (v w : Sample) : (v.add w).real = v.real + w.real := eval_add Scalar.real_hom _ v w
theorem real_scale (x : Scalar) (v : Sample) : (scale x v).real = Scalar.real x * v.real := eval_scale Scalar.real_hom _ x v
theorem real_neg (v : Sample) : v.neg.real = -v.real := eval_neg Scalar.real_hom _ v

theorem real_ofRat (q : Rat) : (ofRat q).real = q := by
  have := eval_term Scalar.real_hom (fun i => if i = 0 then 1 else Classical.choose Config.signs.law.2 i) 0
    ⟨⟨⟨q, 0⟩, ⟨0, 0⟩⟩, ⟨⟨0, 0⟩, ⟨0, 0⟩⟩⟩
  refine Eq.trans this ?_
  simp [Scalar.real, Quad.real]

theorem sgn_eq (v : Sample) : sgn v = (SignType.sign v.real : ℤ) := by
  have free := Classical.choose_spec Config.signs.law.2 v
  unfold sgn
  split
  · rename_i e
    have : v.real = 0 := by simp [Sample.real, realWith, eval, e, Form.eval]
    simp [this]
  · rename_i x e
    have : v.real = Scalar.real x := by simp [Sample.real, realWith, eval, e, Form.eval]
    rw [Scalar.sgn_eq, this]
  · exact free

end Sample

/-! ### The matrix `T` -/

/-- Twice the cosine of `k·π/16`. -/
noncomputable def twoCos (k : ℝ) : ℝ := 2 * Real.cos (k * Real.pi / 16)

theorem twoCos_mul (a b : ℝ) : twoCos a * twoCos b = twoCos (a + b) + twoCos (a - b) := by
  simp only [twoCos, add_mul, sub_mul, add_div, sub_div, Real.cos_add, Real.cos_sub]; ring

theorem twoCos_eight : twoCos 8 = 0 := by
  have : (8 : ℝ) * Real.pi / 16 = Real.pi / 2 := by ring
  simp [twoCos, this]

theorem sqrt_tower : Real.sqrt 2 = twoCos 4 ∧ Real.sqrt (2 + Real.sqrt 2) = twoCos 2 ∧
    Real.sqrt (2 + Real.sqrt (2 + Real.sqrt 2)) = twoCos 1 := by
  have h4 : (4 : ℝ) * Real.pi / 16 = Real.pi / 4 := by ring
  have h2 : (2 : ℝ) * Real.pi / 16 = Real.pi / 8 := by ring
  have h1 : (1 : ℝ) * Real.pi / 16 = Real.pi / 16 := by ring
  simp only [twoCos, h4, h2, h1, Real.cos_pi_div_four, Real.cos_pi_div_eight, Real.cos_pi_div_sixteen]
  refine ⟨by ring, by ring, by ring⟩

theorem Scalar.real_mk (a b c d e f g h : Rat) : Scalar.real ⟨⟨⟨a, b⟩, ⟨c, d⟩⟩, ⟨⟨e, f⟩, ⟨g, h⟩⟩⟩ =
    (a + b * twoCos 4 + (c + d * twoCos 4) * twoCos 2) +
      (e + f * twoCos 4 + (g + h * twoCos 4) * twoCos 2) * twoCos 1 := by
  obtain ⟨e4, e2, e1⟩ := sqrt_tower
  rw [← e1, ← e2, ← e4]
  rfl

theorem quarter_cast : ((quarter : Rat) : ℝ) = 1 / 4 := by norm_num [quarter, Rat.cast_def]

theorem g_real (k : Nat) (hk : k ≤ 8) : Scalar.real (g k) = twoCos k / 4 := by
  have m21 := twoCos_mul 2 1
  have m41 := twoCos_mul 4 1
  have m42 := twoCos_mul 4 2
  have m61 := twoCos_mul 6 1
  norm_num at m21 m41 m42 m61
  have z0 : twoCos 0 = 2 := by simp [twoCos]
  have half : (((⟨1, 2, by decide, by decide⟩ : Rat)) : ℝ) = 1 / 2 := by norm_num [Rat.cast_def]
  interval_cases k <;>
    simp only [g, level, level2, level1, quadLevel, ratLevel, Scalar.real_mk, quarter_cast, half,
      Nat.cast_zero, Nat.cast_one, Nat.cast_ofNat, z0, twoCos_eight, Rat.cast_zero, Rat.cast_neg]
  · ring
  · ring
  · ring
  · linear_combination m21 / 4
  · ring
  · linear_combination m41 / 4 - m21 / 4
  · linear_combination m42 / 4
  · linear_combination (twoCos 1 / 4) * m42 + m61 / 4 - m41 / 4 + m21 / 4
  · ring

theorem twoCos_sub (m : ℝ) : twoCos (16 - m) = -twoCos m := by
  have : (16 - m) * Real.pi / 16 = Real.pi - m * Real.pi / 16 := by ring
  simp [twoCos, this, Real.cos_pi_sub]

theorem twoCos_flip (m : ℝ) : twoCos (32 - m) = twoCos m := by
  have : (32 - m) * Real.pi / 16 = 2 * Real.pi - m * Real.pi / 16 := by ring
  simp [twoCos, this, Real.cos_two_pi_sub]

theorem twoCos_mod (m : Nat) : twoCos (m % 32 : Nat) = twoCos m := by
  conv_rhs => rw [← Nat.mod_add_div m 32]
  have : ((m % 32 + 32 * (m / 32) : Nat) : ℝ) * Real.pi / 16 =
      (m % 32 : Nat) * Real.pi / 16 + (m / 32 : Nat) * (2 * Real.pi) := by push_cast; ring
  rw [twoCos, twoCos, this, Real.cos_add_nat_mul_two_pi]

theorem halfCos_real (m : Nat) (hm : m < 32) : Scalar.real (halfCos m) = twoCos m / 4 := by
  unfold halfCos
  split
  · exact g_real m ‹_›
  split
  · rw [Scalar.real_hom.neg, g_real _ (by omega), Nat.cast_sub (by omega)]
    push_cast; rw [twoCos_sub]; ring
  split
  · have h := twoCos_sub (32 - m)
    rw [twoCos_flip, show (16 : ℝ) - (32 - m) = m - 16 by ring] at h
    rw [Scalar.real_hom.neg, g_real _ (by omega), Nat.cast_sub (by omega)]
    push_cast; rw [h]; ring
  · rw [g_real _ (by omega), Nat.cast_sub (by omega)]
    push_cast; rw [twoCos_flip]

theorem T_real (k n : Fin 8) : Scalar.real (T k n) =
    (if k = 0 then 1 / Real.sqrt 8 else 1 / 2) * Real.cos ((2 * n + 1) * k * Real.pi / 16) := by
  unfold T
  by_cases hk : k = 0
  · subst hk
    have h8 : Real.sqrt 8 = 2 * Real.sqrt 2 := by
      rw [show (8 : ℝ) = 2 ^ 2 * 2 by norm_num, Real.sqrt_mul (by norm_num), Real.sqrt_sq (by norm_num)]
    have hs : Real.sqrt 2 * Real.sqrt 2 = 2 := Real.mul_self_sqrt (by norm_num)
    simp [g_real 4 (by omega), ← sqrt_tower.1, h8]
    field_simp
    nlinarith
  · have hk' : k.val ≠ 0 := fun h => hk (Fin.ext h)
    rw [if_neg hk', if_neg hk, halfCos_real _ (Nat.mod_lt _ (by omega)), twoCos_mod, twoCos]
    push_cast; ring

/-! ### The transforms are inverse to each other -/

/-- The level over `d` as an algebra `R[ω]` with `ω² = d`. -/
theorem Level.Hom.algebra {α R : Type} [CommRing R] {l : Level α} {φ : α → R} (h : l.Hom φ) (d : α) :
    (quadLevel l d).Hom (fun x => (⟨φ x.re, φ x.im⟩ : QuadraticAlgebra R (φ d) 0)) := by
  have := h.quad (algebraMap R (QuadraticAlgebra R (φ d) 0)) (d := d) (s := ⟨0, 1⟩)
    (by ext <;> simp)
  convert this using 2 with x
  ext <;> simp

/-- The arithmetic of the exact numbers is that of a commutative ring, in which different numbers are different. -/
theorem level_ring_model :
    ∃ (R : Type) (_ : CommRing R) (φ : Scalar → R), level.Hom φ ∧ Function.Injective φ := by
  have h := (((ratLevel_hom (R := ℚ)).algebra 2).algebra ⟨2, 1⟩).algebra ⟨⟨2, 0⟩, ⟨1, 0⟩⟩
  refine ⟨_, _, _, h, ?_⟩
  rintro ⟨⟨⟨a, b⟩, ⟨c, d⟩⟩, ⟨⟨e, f⟩, ⟨g, i⟩⟩⟩ ⟨⟨⟨a', b'⟩, ⟨c', d'⟩⟩, ⟨⟨e', f'⟩, ⟨g', i'⟩⟩⟩ hxy
  simpa [QuadraticAlgebra.ext_iff] using hxy

theorem sum8_map {R : Type} [CommRing R] {ψ : Sample → R} (h0 : ψ .zero = 0) (hadd : ∀ v w, ψ (v.add w) = ψ v + ψ w)
    (f : Fin 8 → Sample) : ψ (sum8 f) = ∑ i, ψ (f i) := by
  simp [Reference.sum8, List.finRange, Fin.sum_univ_eight, h0, hadd]

/-- `ψ` of a matrix of samples. -/
def Mat8.under {R : Type} (ψ : Sample → R) (m : Mat8 Sample) : Matrix (Fin 8) (Fin 8) R := fun i j => ψ (m.at i j)

theorem T_row_products : ∀ k m : Fin 8,
    (List.finRange 8).foldl (fun acc n => level.add acc (level.mul (T k n) (T m n))) level.zero =
      if k = m then level.one else level.zero := by
  decide +kernel

open Matrix

/-- The matrix `T` in a ring. -/
def TIn {R : Type} (φ : Scalar → R) : Matrix (Fin 8) (Fin 8) R := Matrix.of fun k n => φ (T k n)

theorem T_mul_transpose {R : Type} [CommRing R] {φ : Scalar → R} (h : level.Hom φ) : TIn φ * (TIn φ)ᵀ = 1 := by
  ext k m
  have key := congrArg φ (T_row_products k m)
  simp only [List.finRange, List.ofFn_succ, List.ofFn_zero, List.foldl_cons, List.foldl_nil, h.add, h.zero, h.mul] at key
  simp only [TIn, Matrix.mul_apply, Matrix.transpose_apply, Matrix.of_apply, Matrix.one_apply, Fin.sum_univ_eight]
  rw [show (if k = m then (1 : R) else 0) = φ (if k = m then level.one else level.zero) by split <;> simp [h.one, h.zero],
    ← key, zero_add]
  rfl

/-- Undoing the transform by an orthogonal matrix. -/
theorem orthogonal_inverse {R : Type} [CommRing R] {A : Matrix (Fin 8) (Fin 8) R} (h : A * Aᵀ = 1)
    (B : Matrix (Fin 8) (Fin 8) R) : Aᵀ * (A * B * Aᵀ) * A = B ∧ A * (Aᵀ * B * A) * Aᵀ = B := by
  have h' := mul_eq_one_comm.mp h
  constructor
  · calc _ = (Aᵀ * A) * B * (Aᵀ * A) := by simp only [Matrix.mul_assoc]
      _ = B := by rw [h', Matrix.one_mul, Matrix.mul_one]
  · calc _ = (A * Aᵀ) * B * (A * Aᵀ) := by simp only [Matrix.mul_assoc]
      _ = B := by rw [h, Matrix.one_mul, Matrix.mul_one]

section Transforms
variable {R : Type} [CommRing R] {φ : Scalar → R} {ψ : Sample → R} (h : level.Hom φ) (h0 : ψ .zero = 0)
  (hadd : ∀ v w, ψ (v.add w) = ψ v + ψ w) (hscale : ∀ x v, ψ (Sample.scale x v) = φ x * ψ v)
include h h0 hadd hscale

theorem fdct_under (b : Mat8 Sample) : (fdct b).under ψ = TIn φ * b.under ψ * (TIn φ)ᵀ := by
  ext u v
  simp only [TIn, Mat8.under, fdct, Mat8.at_of, sum8_map h0 hadd, hscale, h.mul, Matrix.mul_apply, Matrix.transpose_apply,
    Matrix.of_apply, Finset.sum_mul]
  rw [Finset.sum_comm]
  exact Finset.sum_congr rfl fun _ _ => Finset.sum_congr rfl fun _ _ => by ring

theorem idct_under (m : Mat8 Sample) : (idct m).under ψ = (TIn φ)ᵀ * m.under ψ * TIn φ := by
  ext r c
  simp only [TIn, Mat8.under, idct, Mat8.at_of, sum8_map h0 hadd, hscale, h.mul, Matrix.mul_apply, Matrix.transpose_apply,
    Matrix.of_apply, Finset.sum_mul]
  rw [Finset.sum_comm]
  exact Finset.sum_congr rfl fun _ _ => Finset.sum_congr rfl fun _ _ => by ring

theorem idct_fdct_under (b : Mat8 Sample) : (idct (fdct b)).under ψ = b.under ψ := by
  rw [idct_under h h0 hadd hscale, fdct_under h h0 hadd hscale, (orthogonal_inverse (T_mul_transpose h) _).1]

theorem fdct_idct_under (m : Mat8 Sample) : (fdct (idct m)).under ψ = m.under ψ := by
  rw [fdct_under h h0 hadd hscale, idct_under h h0 hadd hscale, (orthogonal_inverse (T_mul_transpose h) _).2]

end Transforms

theorem idct_fdct (b : Mat8 Sample) : idct (fdct b) = b := by
  obtain ⟨R, _, φ, h, inj⟩ := level_ring_model
  exact Mat8.ext fun i j => Sample.ext_eval h inj fun a =>
    congrFun (congrFun (idct_fdct_under h (by rfl) (Sample.eval_add h _) (Sample.eval_scale h _) b) i) j

theorem fdct_idct (m : Mat8 Sample) : fdct (idct m) = m := by
  obtain ⟨R, _, φ, h, inj⟩ := level_ring_model
  exact Mat8.ext fun i j => Sample.ext_eval h inj fun a =>
    congrFun (congrFun (fdct_idct_under h (by rfl) (Sample.eval_add h _) (Sample.eval_scale h _) m) i) j

/-! ### The operations of the reference instance are those of the real numbers -/

theorem isPos_iff (x : Sample) : num.isPos x = true ↔ 0 < x.real := by
  show (sgn x == 1) = true ↔ _
  rw [Sample.sgn_eq]
  rcases lt_trichotomy x.real 0 with h | h | h
  · simp [sign_neg h, h.le]
  · simp [h]
  · simp [sign_pos h, h]

theorem isNonneg_iff (x : Sample) : num.isNonneg x = true ↔ 0 ≤ x.real := by
  show (sgn x != -1) = true ↔ _
  rw [Sample.sgn_eq]
  rcases lt_trichotomy x.real 0 with h | h | h
  · simp [sign_neg h, h]
  · simp [h]
  · simp [sign_pos h, h.le]

theorem add_real (x y : Sample) : (num.add x y).real = x.real + y.real := Sample.real_add x y
theorem neg_real (x : Sample) : (num.neg x).real = -x.real := Sample.real_neg x

theorem abs_real (x : Sample) : (num.abs x).real = |x.real| := by
  show (if sgn x = -1 then x.neg else x).real = _
  rw [Sample.sgn_eq]
  rcases lt_trichotomy x.real 0 with h | h | h
  · simp [sign_neg h, Sample.real_neg, abs_of_neg h]
  · simp [h]
  · simp [sign_pos h, abs_of_pos h]

theorem T_is_T (k n : Fin 8) : Scalar.real (T k n) = Numerics.T k n := T_real k n

theorem fdct_real (b : Mat8 Sample) (u v : Fin 8) :
    ((fdct b).at u v).real = ∑ r, ∑ c, Numerics.T u r * (b.at r c).real * Numerics.T v c := by
  simp only [fdct, Mat8.at_of, sum8_map Sample.real_zero Sample.real_add, Sample.real_scale, Scalar.real_hom.mul, T_is_T]
  exact Finset.sum_congr rfl fun _ _ => Finset.sum_congr rfl fun _ _ => by ring

theorem idct_real (m : Mat8 Sample) (r c : Fin 8) :
    ((idct m).at r c).real = ∑ u, ∑ v, Numerics.T u r * (m.at u v).real * Numerics.T v c := by
  simp only [idct, Mat8.at_of, sum8_map Sample.real_zero Sample.real_add, Sample.real_scale, Scalar.real_hom.mul, T_is_T]
  exact Finset.sum_congr rfl fun _ _ => Finset.sum_congr rfl fun _ _ => by ring

@[simp] theorem num_fdct : num.fdct = fdct := rfl
@[simp] theorem num_idct : num.idct = idct := rfl
theorem num_idct_fdct (b : Mat8 Sample) : num.idct (num.fdct b) = b := by rw [num_fdct, num_idct, idct_fdct]
theorem num_fdct_idct (c : Mat8 Sample) : num.fdct (num.idct c) = c := by rw [num_fdct, num_idct, fdct_idct]

/-- `≤` of the reference instance is that of the real numbers. -/
theorem le_iff (x y : Sample) : le x y = true ↔ x.real ≤ y.real := by
  rw [le, ← show num.isNonneg = isNonneg from rfl, isNonneg_iff, Sample.real_add, Sample.real_neg]
  constructor <;> intro h <;> linarith

theorem dec_pol (b : Bool) (c a : Sample) (ha : num.isPos a = true) :
    Machine.dec num (Machine.pol num b c a) = b := by
  have hp := (isPos_iff a).mp ha
  have hsum : 0 < (num.add (num.abs c) a).real := by
    rw [add_real, abs_real]; positivity
  cases b
  · have : (num.neg (num.add (num.abs c) a)).real < 0 := by rw [neg_real]; linarith
    have hn := mt (isNonneg_iff _).mp (not_le.mpr this)
    simpa [Machine.dec, Machine.pol] using hn
  · simpa [Machine.dec, Machine.pol] using (isNonneg_iff _).mpr hsum.le

/-! ### The reference instance over the real numbers is what the spec requires -/

section Exact
open Matrix

/-- The matrix `T` of R101. -/
noncomputable def TReal : Matrix (Fin 8) (Fin 8) ℝ := Matrix.of Numerics.T

theorem TReal_mul_transpose : TReal * TRealᵀ = 1 := by
  have := T_mul_transpose Scalar.real_hom
  rwa [show TIn Scalar.real = TReal from by ext k n; exact T_is_T k n] at this

/-- A matrix of real numbers as a `Matrix`. -/
def Mat8.toMatrix (b : Mat8 ℝ) : Matrix (Fin 8) (Fin 8) ℝ := fun i j => b.at i j

theorem exact_fdct (b : Mat8 ℝ) :
    Mat8.toMatrix (Numerics.exact.fdct b) = TReal * Mat8.toMatrix b * TRealᵀ := by
  ext u v
  simp only [Numerics.exact, Mat8.toMatrix, Mat8.at_of, TReal, Matrix.mul_apply, Matrix.transpose_apply, Matrix.of_apply,
    Finset.sum_mul]
  rw [Finset.sum_comm]

theorem exact_idct (m : Mat8 ℝ) :
    Mat8.toMatrix (Numerics.exact.idct m) = TRealᵀ * Mat8.toMatrix m * TReal := by
  ext u v
  simp only [Numerics.exact, Mat8.toMatrix, Mat8.at_of, TReal, Matrix.mul_apply, Matrix.transpose_apply, Matrix.of_apply,
    Finset.sum_mul]
  rw [Finset.sum_comm]

theorem exact_idct_fdct (b : Mat8 ℝ) : Numerics.exact.idct (Numerics.exact.fdct b) = b := by
  have key : Mat8.toMatrix (Numerics.exact.idct (Numerics.exact.fdct b)) = Mat8.toMatrix b := by
    rw [exact_idct, exact_fdct, (orthogonal_inverse TReal_mul_transpose _).1]
  exact Mat8.ext fun i j => congrFun (congrFun key i) j

theorem exact_fdct_idct (m : Mat8 ℝ) : Numerics.exact.fdct (Numerics.exact.idct m) = m := by
  have key : Mat8.toMatrix (Numerics.exact.fdct (Numerics.exact.idct m)) = Mat8.toMatrix m := by
    rw [exact_fdct, exact_idct, (orthogonal_inverse TReal_mul_transpose _).2]
  exact Mat8.ext fun i j => congrFun (congrFun key i) j

theorem exact_np2 (cu cv : Fin 8) (blk : Mat8 ℝ) (b : Bool) {a : ℝ} (ha : 0 < a) : Machine.dec Numerics.exact
    ((Numerics.exact.fdct (Numerics.exact.idct (Num.embedAt Numerics.exact cu cv (Numerics.exact.fdct blk) b a))).at cu cv) =
      b := by
  rw [exact_fdct_idct]
  have key : 0 < |(Numerics.exact.fdct blk).at cu cv| + a := by positivity
  cases b
  · simpa [Num.embedAt, Machine.dec, Machine.pol, Numerics.exact, neg_lt_iff_pos_add] using key
  · simpa [Num.embedAt, Machine.dec, Machine.pol, Numerics.exact] using key.le

theorem reference_lawful (cu cv : Fin 8) : Numerics.reference.Lawful cu cv where
  epsS_nonneg := le_refl 0
  zero_is_zero := rfl
  zero_positive := rfl
  negZero_is_zero := fun _ h => Bool.noConfusion h
  alphaReset_nearest := ⟨1 / 10, rfl, fun v y _ => by simp⟩
  np1 := by
    intro b _ r c
    exact ⟨fun _ => congrArg (fun m : Mat8 ℝ => m.at r c) (exact_idct_fdct b), fun h => absurd h (lt_irrefl 0)⟩
  np2 := by
    rintro blk b a - ⟨x, hx, hlo, -⟩
    obtain rfl : a = x := Option.some.inj hx
    exact exact_np2 cu cv blk b (lt_of_lt_of_le (by norm_num [Numerics.alphaLo]) hlo)

end Exact

/-! ### Every instance -/

/-- The numerics of every instance are what the spec requires (R8, R12, R50, NP1, NP2). -/
theorem Inst.lawful (p : Inst) : p.reading.NUM.Lawful p.cu p.cv := by
  unfold Inst.reading
  split
  · exact reference_lawful _ _
  · exact Classical.choose_spec (Classical.choose_spec (Config.impl _ p.cu p.cv).law.2)

/-- What the machine computes with is `NUM` of the instance: each member on samples is that of `NUM` on the values for
which the samples stand. -/
structure Inst.Computes (p : Inst) : Prop where
  zero : p.reading.value p.numerics.zero = p.reading.NUM.ops.zero
  alphaReset : p.reading.value p.numerics.alphaReset = p.reading.NUM.ops.alphaReset
  fdct : ∀ b u v, p.reading.value ((p.numerics.fdct b).at u v) =
    (p.reading.NUM.ops.fdct (Mat8.of fun r c => p.reading.value (b.at r c))).at u v
  idct : ∀ m r c, p.reading.value ((p.numerics.idct m).at r c) =
    (p.reading.NUM.ops.idct (Mat8.of fun u v => p.reading.value (m.at u v))).at r c
  add : ∀ v w, p.reading.value (p.numerics.add v w) = p.reading.NUM.ops.add (p.reading.value v) (p.reading.value w)
  neg : ∀ v, p.reading.value (p.numerics.neg v) = p.reading.NUM.ops.neg (p.reading.value v)
  abs : ∀ v, p.reading.value (p.numerics.abs v) = p.reading.NUM.ops.abs (p.reading.value v)
  isPos : ∀ v, p.numerics.isPos v = p.reading.NUM.ops.isPos (p.reading.value v)
  isNonneg : ∀ v, p.numerics.isNonneg v = p.reading.NUM.ops.isNonneg (p.reading.value v)

theorem alphaReset_real : num.alphaReset.real = 1 / 10 := by
  rw [show num.alphaReset = Sample.ofRat ⟨1, 10, by decide, by decide⟩ from rfl, Sample.real_ofRat]
  norm_num [Rat.cast_def]

theorem Inst.numerics_reference {p : Inst} (h : p.num = .reference) : p.numerics = Reference.num := by simp [Inst.numerics, h]
theorem Inst.reading_reference {p : Inst} (h : p.num = .reference) : p.reading = ⟨Numerics.reference, Sample.real⟩ := by
  simp [Inst.reading, h]

theorem Inst.nominal_reference {p : Inst} (h : p.num = .reference) {v : Sample} :
    p.nominal v ↔ 0 ≤ v.real ∧ v.real ≤ 255 := by
  rw [Inst.nominal, Inst.reading_reference h]
  exact ⟨by rintro ⟨x, e, hx⟩; cases e; exact hx, fun hx => ⟨_, rfl, hx⟩⟩

theorem Inst.safeAlpha_reference {p : Inst} (h : p.num = .reference) {a : Sample} :
    p.safeAlpha a ↔ 1 / 100 ≤ a.real ∧ a.real ≤ 10 := by
  rw [Inst.safeAlpha, Inst.reading_reference h]
  exact ⟨by rintro ⟨x, e, hx⟩; cases e; exact hx, fun hx => ⟨_, rfl, hx⟩⟩

theorem Inst.computes (p : Inst) : p.Computes := by
  have whole : ∀ b : Mat8 Sample, (Mat8.of fun r c => b.at r c) = b := fun b => Mat8.ext fun i j => Mat8.at_of _ _ _
  obtain ⟨n, cu, cv, _, _, _, _⟩ := p
  cases n with
  | reference => exact {
      zero := Sample.real_zero
      alphaReset := alphaReset_real
      fdct := fun b u v => (fdct_real b u v).trans (by simp [Inst.reading, Numerics.reference, Numerics.exact])
      idct := fun m r c => (idct_real m r c).trans (by simp [Inst.reading, Numerics.reference, Numerics.exact])
      add := add_real
      neg := neg_real
      abs := abs_real
      isPos := fun v => Bool.eq_iff_iff.mpr ((isPos_iff v).trans decide_eq_true_iff.symm)
      isNonneg := fun v => Bool.eq_iff_iff.mpr ((isNonneg_iff v).trans decide_eq_true_iff.symm) }
  | impl k => exact {
      zero := rfl
      alphaReset := rfl
      fdct := fun b u v => congrArg (fun x => ((Config.impl k cu cv).ops.fdct x).at u v) (whole b).symm
      idct := fun m r c => congrArg (fun x => ((Config.impl k cu cv).ops.idct x).at r c) (whole m).symm
      add := fun _ _ => rfl
      neg := fun _ => rfl
      abs := fun _ => rfl
      isPos := fun _ => rfl
      isNonneg := fun _ => rfl }

/-- NP1 (R106) for what the machine computes with. -/
theorem Inst.np1 (p : Inst) {b : Mat8 Sample} (hb : ∀ r c, p.nominal (b.at r c)) (r c : Fin 8) :
    p.near ((p.numerics.idct (p.numerics.fdct b)).at r c) (b.at r c) := by
  have h := p.lawful.np1
  obtain ⟨n, cu, cv, _, _, _, _⟩ := p
  cases n with
  | reference =>
    rw [Inst.numerics_reference rfl, num_idct_fdct]
    exact ⟨fun _ => rfl, fun h => absurd h (lt_irrefl 0)⟩
  | impl k => exact h b hb r c

/-- NP2 (R127) for what the machine computes with. -/
theorem Inst.np2 (p : Inst) {b : Mat8 Sample} (hb : ∀ r c, p.nominal (b.at r c)) {a : Sample} (ha : p.safeAlpha a)
    (bit : Bool) : Machine.dec p.numerics
      ((p.numerics.fdct (p.numerics.idct (p.numerics.embedAt p.cu p.cv (p.numerics.fdct b) bit a))).at p.cu p.cv) = bit := by
  have h := p.lawful.np2
  obtain ⟨n, cu, cv, _, _, _, _⟩ := p
  cases n with
  | reference =>
    rw [Inst.numerics_reference rfl, num_fdct_idct, Num.embedAt, Mat8.at_put_self]
    exact dec_pol _ _ _ ((isPos_iff a).mpr (lt_of_lt_of_le (by norm_num) ((Inst.safeAlpha_reference rfl).mp ha).1))
  | impl k => exact h b bit a hb ha

end Sys2Proof
end

