-- ==== Sys2Proof/Laws/Unframer.lean ====
section
/-! SUPPORT. The unframer (43_framer.md R137) by itself: what a sequence of bits does to its registers and to `MSGOUT`,
whichever command consumes them. -/

namespace Sys2Proof.Machine

/-- The registers of the unframer, its memory and the memory's size. -/
structure Unframer where
  uacc : BitVec 8
  ucnt : BitVec 3
  ubits : Word
  uout : Word
  uterm : Bool
  msgout : List Host.Cell
  size : Nat

/-- The unframer of an engine. -/
def State.unframer (s : State) : Unframer := ⟨s.uacc, s.ucnt, s.ubits, s.uout, s.uterm, s.msgout, s.inst.msgoutMax⟩

/-- A bit appended to a byte being collected. -/
def appendBit (acc : Byte) (b : Bool) : Byte := acc <<< 1 ||| (if b then 1#8 else 0#8)

/-- One bit consumed; `none` where the byte does not fit. -/
def Unframer.put (u : Unframer) (b : Bool) : Option Unframer :=
  if u.uterm then some u
  else if u.ucnt.toNat < 7 then some { u with uacc := appendBit u.uacc b, ucnt := u.ucnt + 1, ubits := u.ubits + 1 }
  else if appendBit u.uacc b = 0 then some { u with uterm := true, uacc := 0, ucnt := 0, ubits := u.ubits + 1 }
  else if u.size ≤ u.uout.toNat then none
  else some { u with msgout := Mem.write u.msgout u.uout.toNat (appendBit u.uacc b)
                     uout := u.uout + 1, uacc := 0, ucnt := 0, ubits := u.ubits + 1 }

/-- The bits consumed one after another. -/
def Unframer.run : List Bool → Unframer → Option Unframer
  | [], u => some u
  | b :: bits, u => (u.put b).bind (Unframer.run bits)

theorem State.shiftedAcc_eq (s : State) : s.shiftedAcc = appendBit s.uacc s.bit := by
  unfold State.shiftedAcc appendBit; cases s.bit <;> rfl

/-- `UNFPUT` is one bit consumed, or `OutputOverflow` with nothing changed. -/
theorem State.unframe_put (s : State) :
    (∃ t, s.unframe = .done t ∧ s.unframer.put s.bit = some t.unframer) ∨
    (s.unframe = .raise .outputOverflow s.uout.toNat s.inst.msgoutMax s ∧ s.unframer.put s.bit = none) := by
  unfold State.unframe Unframer.put
  rw [State.shiftedAcc_eq]
  have e1 : s.unframer.uterm = s.uterm := rfl
  have e2 : s.unframer.ucnt = s.ucnt := rfl
  have e3 : s.unframer.uacc = s.uacc := rfl
  have e4 : s.unframer.size = s.inst.msgoutMax := rfl
  have e5 : s.unframer.uout = s.uout := rfl
  rw [e1, e2, e3, e4, e5]
  by_cases h1 : s.uterm = true
  · rw [if_pos h1, if_pos h1]; exact .inl ⟨_, rfl, rfl⟩
  rw [if_neg h1, if_neg h1]
  by_cases h2 : s.ucnt.toNat < 7
  · rw [if_pos h2, if_pos h2]
    refine .inl ⟨_, rfl, ?_⟩
    simp only [State.unframer, State.shiftIn, State.shiftedAcc_eq]
  rw [if_neg h2, if_neg h2]
  by_cases h3 : appendBit s.uacc s.bit = 0
  · rw [if_pos h3, if_pos h3]; exact .inl ⟨_, rfl, rfl⟩
  rw [if_neg h3, if_neg h3]
  by_cases h4 : s.inst.msgoutMax ≤ s.uout.toNat
  · rw [if_pos h4, if_pos h4]; exact .inr ⟨rfl, rfl⟩
  rw [if_neg h4, if_neg h4]
  refine .inl ⟨_, rfl, ?_⟩
  simp only [State.unframer, State.storeByte, State.shiftedAcc_eq]

theorem Unframer.run_append (l l' : List Bool) (u : Unframer) : Unframer.run (l ++ l') u = (Unframer.run l u).bind (Unframer.run l') := by
  induction l generalizing u with
  | nil => rfl
  | cons b l ih =>
    simp only [List.cons_append, Unframer.run]
    cases u.put b with
    | none => rfl
    | some v => exact ih v

/-- After a terminator bits are ignored (R138). -/
theorem Unframer.run_terminated (l : List Bool) {u : Unframer} (h : u.uterm = true) : Unframer.run l u = some u := by
  induction l with
  | nil => rfl
  | cons b l ih => simp [Unframer.run, Unframer.put, h, ih]

/-- Bits that do not complete a byte are collected. -/
theorem Unframer.run_few (l : List Bool) (u : Unframer) (h : u.uterm = false) (k : u.ucnt.toNat + l.length ≤ 7) :
    Unframer.run l u = some { u with uacc := l.foldl appendBit u.uacc, ucnt := u.ucnt + BitVec.ofNat 3 l.length,
                                     ubits := u.ubits + BitVec.ofNat 32 l.length } := by
  induction l generalizing u with
  | nil => simp [Unframer.run]
  | cons b l ih =>
    simp only [List.length_cons] at k
    have hn : (u.ucnt + 1).toNat = u.ucnt.toNat + 1 := by rw [BitVec.toNat_add]; simp; omega
    simp only [Unframer.run, Unframer.put, h, Bool.false_eq_true, if_false, show u.ucnt.toNat < 7 by omega, if_true, Option.bind_some]
    rw [ih _ rfl (by show (u.ucnt + 1).toNat + _ ≤ _; omega)]
    have e3 : u.ucnt + 1 + BitVec.ofNat 3 l.length = u.ucnt + BitVec.ofNat 3 (l.length + 1) := by
      rw [BitVec.add_assoc, Nat.add_comm, BitVec.ofNat_add]; rfl
    have e32 : u.ubits + 1 + BitVec.ofNat 32 l.length = u.ubits + BitVec.ofNat 32 (l.length + 1) := by
      rw [BitVec.add_assoc, Nat.add_comm, BitVec.ofNat_add]; rfl
    simp only [List.foldl_cons, List.length_cons, e3, e32]

/-- Eight bits from a byte boundary: a terminator, a stored byte, or an overflow. -/
theorem Unframer.run_byte (l : List Bool) (u : Unframer) (h : u.uterm = false) (hc : u.ucnt = 0) (ha : u.uacc = 0) (hl : l.length = 8) :
    Unframer.run l u =
      if l.foldl appendBit 0 = 0 then some { u with uterm := true, ubits := u.ubits + 8 }
      else if u.size ≤ u.uout.toNat then none
      else some { u with msgout := Mem.write u.msgout u.uout.toNat (l.foldl appendBit 0), uout := u.uout + 1, ubits := u.ubits + 8 } := by
  obtain ⟨l, b, rfl⟩ : ∃ l' b, l = l' ++ [b] := ⟨l.dropLast, l.getLast (by intro h; simp [h] at hl), (List.dropLast_append_getLast _).symm⟩
  have hl : l.length = 7 := by simpa using hl
  obtain ⟨uacc, ucnt, ubits, uout, uterm, msgout, size⟩ := u
  simp only at h hc ha
  subst h hc ha
  rw [Unframer.run_append, Unframer.run_few l _ rfl (by simp [hl])]
  simp only [Option.bind_some, Unframer.run, Unframer.put, hl, List.foldl_append, List.foldl_cons, List.foldl_nil]
  have e : ubits + BitVec.ofNat 32 7 + 1 = ubits + 8 := by rw [BitVec.add_assoc]; rfl
  simp only [show ((0 : BitVec 3) + BitVec.ofNat 3 7).toNat = 7 by decide, lt_irrefl, if_false, Bool.false_eq_true, e]
  split
  · rfl
  split <;> rfl

end Sys2Proof.Machine
end

