-- ==== Sys2Proof/Tests/Slice0.lean ====
section
/-! SUPPORT. Small tests, each from a vector or program of spec/95_test_vectors.md or from the encoding table of
spec/30_encoding.md, and for every statement with hypotheses a concrete state and operands that meet them. -/

namespace Sys2Proof.Tests

open Sys2Proof Sys2Proof.Machine Sys2Proof.Claims Sys2Proof.Reference
open Sys2Proof.Sample (ofRat)

/-! ### Helpers -/

/-- Whether an outcome is a next state with a property. -/
def nextHas (o : Out) (p : State → Bool) : Bool :=
  match o with
  | .next t => p t
  | .fault _ => false
  | .refused _ => false

/-- Whether a sample lies between two rational numbers. -/
def between (lo hi : Rat) (x : Sample) : Bool := le (ofRat lo) x && le x (ofRat hi)

/-- `n` cells that hold `f`. (Irreducible, so that no unifier unrolls it.) -/
@[irreducible] def cells (n : Nat) (f : Nat → Rat) : List (Nat × Sample) := (List.range n).map fun a => (a, ofRat (f a))

theorem lookup_range' {α : Type} (g : Nat → α) (n m a : Nat) (h : m ≤ a) (k : a < m + n) :
    Mem.lookup ((List.range' m n).map fun b => (b, g b)) a = some (g a) := by
  induction n generalizing m with
  | zero => omega
  | succ n ih =>
    simp only [List.range'_succ, List.map_cons, Mem.lookup]
    split
    · rename_i e; rw [e]
    · exact ih (m + 1) (by omega) (by omega)

theorem lookup_cells (n : Nat) (f : Nat → Rat) (a : Nat) (h : a < n) :
    Mem.lookup (cells n f) a = some (ofRat (f a)) := by
  rw [cells, List.range_eq_range']
  exact lookup_range' (fun b => ofRat (f b)) n 0 a (by omega) (by omega)

/-- The block with `x` at one position and 0 elsewhere. -/
def single (i j : Fin 8) (x : Rat) : Mat8 Sample :=
  Mat8.of fun r c => if r = i ∧ c = j then ofRat x else .zero

/-- The state after reset with an 8×8 image that is 0 except for one cell. -/
def oneBlock (a : Nat) (x : Rat) : State :=
  { State.reset with width := 8, height := 8, img := cells 64 fun b => if b = a then x else 0 }

/-- The state after reset with a 64×8 image that is 0. -/
def zeroImage : State := { State.reset with width := 64, height := 8, img := cells 512 fun _ => 0 }

/-- The step that the host takes next runs the command of a word. -/
def runWord (s : State) (w : Nat) : Out := step (s.withFetchWord 32 w)

/-! ### The parameters of an instance (R8): one refusal for each check -/

theorem test_wf_examples : Inst.ofExamples.wf = true := by decide
theorem test_wf_largest :
    ({ Inst.ofExamples with imgMax := 65535 * 65535, msginMax := 2 ^ 28 - 1, msgoutMax := 2 ^ 32 - 1 } : Inst).wf = true := by
  decide
theorem test_wf_imgMax_too_large :
    ({ Inst.ofExamples with imgMax := 65535 * 65535 + 1, msgoutMax := 2 ^ 32 - 1 } : Inst).wf = false := by decide
theorem test_wf_msginMax_too_large : ({ Inst.ofExamples with msginMax := 2 ^ 28 } : Inst).wf = false := by decide
theorem test_wf_msgoutMax_too_small : ({ Inst.ofExamples with msgoutMax := 7 } : Inst).wf = false := by decide
theorem test_wf_msgoutMax_too_large : ({ Inst.ofExamples with msgoutMax := 2 ^ 32 } : Inst).wf = false := by decide

/-! ### Decoding: words written bit by bit from R86, `rsv` then `op` -/

theorem test_decode_system : decodeWord 0b00000000000000000000000000000010#32 = .ok .sreset := by decide
theorem test_decode_transform : decodeWord 0b00000000000000000000000000010001#32 = .ok .idct := by decide
theorem test_decode_carrier : decodeWord 0b00000000000000000000000000100001#32 = .ok .extract := by decide
theorem test_decode_blocks : decodeWord 0b00000000000000000000000000110010#32 = .ok .ldblk := by decide
theorem test_decode_framer : decodeWord 0b00000000000000000000000001001001#32 = .ok .unfput := by decide
theorem test_decode_top_level : decodeWord 0b00000000000000000000000010000001#32 = .ok .decode := by decide
/-- V23: an opcode beside non-zero reserved bits, and the unassigned opcodes it lists. -/
theorem test_decode_reserved_bits : decodeWord 0x00000110#32 = .error .reservedBits := by decide
theorem test_decode_unassigned :
    [0x03#32, 0x0F#32, 0x12#32, 0x34#32, 0x42#32, 0x4A#32, 0x7F#32, 0x82#32, 0xFF#32].all
      (fun w => decide (decodeWord w = .error .unknownOpcode)) = true := by decide
theorem test_table_word : decodeTableWord 32 0x41 = some .frmget ∧ decodeTableWord 32 0x141 = none := by decide

/-! ### Reset (R50, V26) -/

theorem test_reset_status : State.reset.statusWord = 0x00000010#32 := by decide
theorem test_reset_registers :
    State.reset.regAt 0x0E = 8 ∧ State.reset.regAt 0x14 = 8 ∧ State.reset.regAt 0x15 = 0x43 ∧
      State.reset.regAt 0x00 = 0 ∧ State.reset.regAt 0x16 = 0 := by decide
theorem test_reset_alpha : State.reset.sregAt 0 = ofRat (1 / 10) := by decide +kernel

/-! ### U1 (V1 to V4) -/

/-- V1. -/
theorem test_fdct_constant :
    nextHas (execFdct { State.reset with blk := Mat8.of fun _ _ => ofRat 128 })
      (fun t => decide (t.coef.at 0 0 = ofRat 1024) && decide (t.coef.at 4 3 = ofRat 0)) = true := by decide +kernel
/-- V3, and `STATUS` of V25 without the hazard. -/
theorem test_fdct_impulse :
    nextHas (runWord { State.reset with blk := single 0 0 1 } 0x10)
      (fun t => between 0.240484941 0.240484943 (t.coef.at 1 1) && between 0.098211869 0.098211871 (t.coef.at 0 5) &&
        between 0.009515057 0.009515059 (t.coef.at 7 7) && t.statusWord == 0x14) = true := by decide +kernel
/-- V4: a row index and a column index that are not interchangeable. -/
theorem test_idct_carrier :
    nextHas (runWord { State.reset with coef := single 4 3 1 } 0x11)
      (fun t => between 0.146984449 0.146984451 (t.blk.at 0 0) && between (-0.173379982) (-0.173379980) (t.blk.at 0 2) &&
        between (-0.034487423) (-0.034487421) (t.blk.at 3 1) && between 0.173379980 0.173379982 (t.blk.at 1 2)) = true := by
  decide +kernel

/-- R101 with a sample `a₁` of which nothing is known: `C[0][0]` is an eighth of the sum of the samples, 8 + a₁/8. -/
theorem test_fdct_unknown_sample :
    nextHas (execFdct { State.reset with blk := (single 0 0 64).put 3 1 (.unknown 1) })
      (fun t => decide (t.coef.at 0 0 = (ofRat 8).add (.scale ⟨⟨⟨1 / 8, 0⟩, ⟨0, 0⟩⟩, ⟨⟨0, 0⟩, ⟨0, 0⟩⟩⟩ (.unknown 1)))) =
      true := by decide +kernel

/-! ### U2 and U3 (V10, V11, V13, V26) -/

/-- V10: −1000 with bit 1, and no other cell. -/
theorem test_embed_extreme :
    nextHas (runWord { State.reset with bit := true, coef := single 4 3 (-1000) } 0x20)
      (fun t => decide (t.coef.at 4 3 = ofRat 1000.1) && decide (t.coef.at 3 4 = ofRat 0)) = true := by decide +kernel
/-- V13. -/
theorem test_embed_alpha_zero :
    nextHas (execEmbed { State.reset with alpha := ofRat 0 })
      (fun t => t.err == 5 && t.errinfo0 == 3 && t.errinfo1 == 0 && decide (t.mode = .error)) = true := by decide +kernel
/-- V11, a small negative carrier. -/
theorem test_extract_negative :
    nextHas (runWord { State.reset with bit := true, coef := single 4 3 (-0.1) } 0x21) (fun t => !t.bit) = true := by
  decide +kernel
/-- V26: a zero carrier is bit 1. -/
theorem test_extract_zero : nextHas (runWord State.reset 0x21) (fun t => t.bit && t.statusWord == 0x14) = true := by
  decide +kernel

/-! ### U4 (V8, V9, V26) -/

/-- V8, the 71×9 and the 32×32 image. -/
theorem test_block_addresses :
    blockAddr 71 7 7 7 = 560 ∧ blockAddr 32 12 0 1 = 769 ∧ blockAddr 64 8 0 0 = 512 ∧ blockAddr 16 1 7 7 = 127 := by decide
theorem test_blkrst : nextHas (runWord { State.reset with bidx := 5 } 0x30) (fun t => t.bidx == 0) = true := by decide
/-- V9. -/
theorem test_blknext_advances :
    nextHas (runWord { State.reset with width := 64, height := 64, bidx := 63 } 0x31)
      (fun t => t.bidx == 64 && t.statusWord == 0x14) = true := by decide
theorem test_blknext_saturates :
    nextHas (execBlknext { State.reset with width := 64, height := 64, bidx := 0xFFFFFFFF })
      (fun t => t.bidx == 0xFFFFFFFF) = true := by decide
/-- P1, step 6. -/
theorem test_ldblk_one_sample :
    nextHas (runWord (oneBlock 21 64) 0x32)
      (fun t => decide (t.blk.at 2 5 = ofRat 64) && decide (t.blk.at 5 2 = ofRat 0)) = true := by decide +kernel
/-- V26 and V9: the two errors. -/
theorem test_ldblk_errors :
    nextHas (runWord State.reset 0x32) (fun t => t.err == 6 && t.errinfo0 == 0 && t.errinfo1 == 0) = true ∧
    nextHas (execLdblk { State.reset with width := 65, height := 64 })
      (fun t => t.err == 5 && t.errinfo0 == 1 && t.errinfo1 == 0) = true := by decide
/-- `addr(7, 7, 7) = 560` in a 71×9 image (V8), and a cell that belongs to no block. -/
theorem test_stblk_cells :
    nextHas (runWord { State.reset with width := 71, height := 9, bidx := 7, blk := single 7 7 64
                                        img := [(568, ofRat 3)] } 0x33)
      (fun t => decide (t.imgAt 560 = ofRat 64) && decide (t.imgAt 568 = ofRat 3) && decide (t.imgAt 559 = ofRat 0)) =
        true := by decide +kernel

/-! ### U5 (V16, V17, V26) -/

/-- The state after reset with the message "hi". -/
def hi : State := { State.reset with msglen := 2, msgin := [(0, 0x68#8), (1, 0x69#8)] }

theorem test_frmrst : nextHas (runWord { hi with fpos := 24 } 0x40) (fun t => t.fpos == 0) = true := by decide
theorem test_frmget_bits :
    nextHas (runWord { hi with fpos := 4 } 0x41) (fun t => t.bit && t.fpos == 5) = true ∧
    nextHas (runWord { hi with fpos := 15 } 0x41) (fun t => t.bit && t.fpos == 16) = true ∧
    nextHas (runWord { hi with fpos := 14, bit := true } 0x41) (fun t => !t.bit) = true := by decide
/-- The 25th `FRMGET`. -/
theorem test_frmget_exhausted :
    nextHas (runWord { hi with fpos := 24 } 0x41)
      (fun t => t.err == 7 && t.errinfo0 == 24 && t.errinfo1 == 24 && t.fpos == 24) = true := by decide
theorem test_unfrst :
    nextHas (runWord { State.reset with uterm := true, uout := 2, ubits := 24, outlen := 9 } 0x48)
      (fun t => !t.uterm && t.uout == 0 && t.ubits == 0 && t.outlen == 9) = true := by decide
/-- Pairs 7 to 8 of V16: the eighth bit completes 0x68. -/
theorem test_unfput_completes_byte :
    nextHas (runWord { State.reset with uacc := 0x34, ucnt := 7, ubits := 7 } 0x49)
      (fun t => t.uacc == 0 && t.ucnt == 0 && t.ubits == 8 && t.uout == 1 && t.msgoutAt 0 == 0x68) = true := by decide
/-- V17: overflow keeps the unframer. -/
theorem test_unfput_overflow :
    nextHas (execUnfput { State.reset with
        inst := { Inst.ofExamples with msgoutMax := 1 }, bit := true, uacc := 0x07, ucnt := 7, ubits := 15, uout := 1 })
      (fun t => t.err == 8 && t.errinfo0 == 1 && t.errinfo1 == 1 && t.uacc == 0x07 && t.ucnt == 7 && t.ubits == 15) =
        true := by decide

/-! ### The top level (V19, V26, P4) -/

/-- V19: eight zero bits into eight blocks. -/
theorem test_encode_empty_message :
    nextHas (runWord zeroImage 0x80)
      (fun t => t.bidx == 8 && t.fpos == 8 && !t.bit && t.statusWord == 0x34) = true := by decide +kernel
/-- V26 and the row of V19 with 65 bytes. -/
theorem test_encode_errors :
    nextHas (runWord State.reset 0x80) (fun t => t.err == 1 && t.errinfo0 == 8 && t.errinfo1 == 0) = true ∧
    nextHas (execEncode { State.reset with width := 64, height := 64, msglen := 65 })
      (fun t => t.err == 5 && t.errinfo0 == 2) = true := by decide +kernel
/-- P4, blocks of bit 1 (as in image B) and of bit 0 (as in image C), read one bit at a time. -/
theorem test_decode_one_bit :
    nextHas (runWord { oneBlock 0 64 with expen := true, explen := 1 } 0x81)
      (fun t => t.bit && t.uacc == 1 && t.ucnt == 1 && t.bidx == 1 && t.statusWord == 0x214) = true ∧
    nextHas (execDecode { oneBlock 1 64 with expen := true, explen := 2 })
      (fun t => !t.bit && t.uacc == 0 && t.ucnt == 1 && t.bidx == 1 && decide (t.stopc = .blocks)) = true := by
  decide +kernel
/-- V26. -/
theorem test_decode_no_blocks :
    nextHas (runWord State.reset 0x81)
      (fun t => t.err == 2 && t.errinfo0 == 0 && t.errinfo1 == 0 && decide (t.mode = .error)) = true := by decide +kernel

/-! ### System commands, acceptance and the reset pin (V23 to V25, P6) -/

/-- The engine after the illegal word of V23. -/
def broken : State := State.reset.rejectWord 0x00000112#32

theorem test_illegal_word :
    nextHas (step { State.reset with agenda := [.writeReg 0 0x00000112#32] })
      (fun t => t.statusWord == 0x12 && t.err == 4 && t.errinfo0 == 0x112 && t.errinfo1 == 0) = true := by decide
/-- V24: `FDCT`, an illegal word and `NOP` change nothing. -/
theorem test_sticky_error :
    [0x10#32, 0xFF#32, 0x00#32].all
      (fun w => nextHas (step { broken with agenda := [.writeReg 0 w] }) (fun t => decide (t = broken))) = true := by
  decide +kernel
theorem test_clrerr :
    nextHas (runWord broken 0x01) (fun t => t.err == 0 && t.errinfo0 == 0 && t.statusWord == 0x10) = true := by decide
theorem test_nop : nextHas (runWord broken 0x00) (fun t => decide (t = broken)) = true := by decide +kernel
/-- P6, step 8. -/
theorem test_sreset :
    nextHas (runWord { State.reset with width := 64, bidx := 5, hzd := true, msgin := [(0, 7#8)] } 0x02)
      (fun t => t.width == 0 && t.bidx == 0 && !t.hzd && t.statusWord == 0x10 && t.msginAt 0 == 7) = true := by decide
/-- V25: accepted, a second command dropped and flagged, completed. -/
theorem test_busy_hazard :
    nextHas (core.run 1 { State.reset with agenda := [.writeReg 0 0x10#32] }) (fun t => t.statusWord == 0x11) = true ∧
    nextHas (core.run 2 { State.reset with agenda := [.writeReg 0 0x10#32, .writeReg 0 0x11#32] })
      (fun t => t.statusWord == 0x19 && decide (t.pend = some 0x10)) = true ∧
    nextHas (core.run 3 { State.reset with agenda := [.writeReg 0 0x10#32, .writeReg 0 0x11#32, .engine] })
      (fun t => t.statusWord == 0x1C) = true := by decide +kernel
/-- P6, step 6. -/
theorem test_busy_register_write :
    nextHas (step { State.reset.accept 0x10 with agenda := [.writeReg 7 64] })
      (fun t => t.height == 0 && t.statusWord == 0x19) = true := by decide

/-! ### Witnesses: states and operands that meet the hypotheses of the statements in
Certificates/Slice0/Obligations.lean. Shared ones: `test_wf_largest` and `test_wf_examples` for ResetMeetsTheInvariant;
`witness_inv` for EveryStepAnswersANextState and RunningCommandEnds; `witness_modes_of_immediate_commands` for
NopChangesNothing, ClrerrLeavesTheErrorState and SresetResetsTheRegisters; `witness_EmbeddedBitIsExtracted` for
RepeatedEmbeddingAddsAlphaEachTime; `witness_encode` for EncodeRewritesTheFramedBlocks and EncodeEqualsItsPrimitives. -/

theorem witness_IllegalWordsRaiseIllegalCommand :
    State.reset.mode = .idle ∧ (¬∃ i, decodeWord 0x00000110#32 = .ok i) ∧ (¬∃ i, decodeWord 0x00000082#32 = .ok i) ∧
      (∃ i, decodeWord 0x00000081#32 = .ok i) := by
  have h : decodeWord 0x00000110#32 = .error .reservedBits := by decide
  have k : decodeWord 0x00000082#32 = .error .unknownOpcode := by decide
  exact ⟨rfl, by simp [h], by simp [k], .decode, by decide⟩

/-- An engine in the middle of work: two bytes framed, eleven bits unframed, `EMBED` accepted. -/
def midRun : State :=
  { hi with
    mode := .busy, pend := some 0x20, width := 64, height := 64, bidx := 3, fpos := 4
    uacc := 5, ucnt := 3, ubits := 11, uout := 1, img := [(0, ofRat 64), (4095, ofRat 1)], msgout := [(0, 0x41#8)]
    agenda := [.read .reg 0x01, .writeReg 0x06 8, .resetPin] }

theorem witness_inv : midRun.Inv ∧ midRun.mode = .busy := by
  refine ⟨?_, rfl⟩
  constructor <;> decide

theorem witness_StepRunsThePendingCommand :
    Instr.wellFormed .embed = true ∧ Instr.immediate .embed = false ∧ midRun.mode = .busy ∧
      midRun.pend = some (opField (encode .embed)) := by decide

theorem witness_CommandWriteFollowsTheAcceptanceTable :
    midRun.mode = .busy ∧ broken.mode = .error ∧ State.reset.mode = .idle ∧
      (0x00000003#32 ≠ 0x00000001#32 ∧ 0x00000003#32 ≠ 0x00000002#32) ∧ (¬∃ i, 0x00000003#32 = encode i) ∧
      (0x00000001#32 = encode .clrerr ∧ Instr.immediate .clrerr = true) ∧
      (0x00000081#32 = encode .decode ∧ Instr.immediate .decode = false) := by
  refine ⟨rfl, by decide, rfl, by decide, ?_, by decide, by decide⟩
  rintro ⟨i, h⟩
  revert h; cases i <;> decide

theorem witness_RunningACommandHasTheEffectOfItsRule :
    Instr.immediate .ldblk = false ∧ zeroImage.mode = .idle ∧ ∃ t, exec .ldblk { zeroImage with agenda := [] } = .next t :=
  ⟨rfl, rfl, exec_next _ _⟩

theorem witness_EveryStepKeepsTheInvariant : midRun.Inv ∧ ∃ t, step midRun = .next t := ⟨witness_inv.1, _, rfl⟩

theorem witness_NoStepChangesTheInstance : ∃ t, step midRun = .next t := ⟨_, rfl⟩

theorem witness_modes_of_immediate_commands : broken.mode ≠ .busy ∧ State.reset.mode ≠ .busy ∧ midRun.mode = .busy := by
  decide

/-- A constant block, and a lone mean coefficient. -/
theorem witness_ReferenceTransformCornerCases :
    let s : State := { State.reset with blk := Mat8.of fun _ _ => ofRat 128, coef := single 0 0 1024 }
    s.inst.num = .reference ∧ (∃ t, exec .fdct s = .next t) ∧ (∃ t, exec .idct s = .next t) ∧
      (∀ r c, s.blk.at r c = ofRat 128) ∧ ∀ u v, ¬(u = 0 ∧ v = 0) → s.coef.at u v = num.zero :=
  ⟨rfl, ⟨_, rfl⟩, ⟨_, rfl⟩, fun r c => Mat8.at_of _ r c, fun u v h => by
    show (single 0 0 1024).at u v = .zero
    simp only [single, Mat8.at_of, if_neg h]⟩

theorem witness_ReferenceTransformLaws :
    let b : Mat8 Sample := Mat8.of fun _ _ => ofRat 128
    ∀ r c, (b.at r c).real = (1 : ℝ) * (b.at r c).real + 0 * (b.at r c).real := by
  intro b r c
  simp

theorem witness_OneCoefficientMovesEverySample :
    ((single 4 3 1).at 4 3).real = ((single 4 3 0).at 4 3).real + 1 ∧
      (∀ u v, ¬(u = 4 ∧ v = 3) → (single 4 3 1).at u v = (single 4 3 0).at u v) ∧ (4 : Fin 8) ≠ 0 ∧ (3 : Fin 8) ≠ 0 := by
  refine ⟨?_, ?_, by decide, by decide⟩
  · simp [single, Mat8.at_of, Sample.real_ofRat]
  · intro u v h
    simp only [single, Mat8.at_of, if_neg h]

/-- Blocks at both ends of the nominal range; the second is the block after reset, with the strength after reset. -/
theorem witness_nominal :
    nominalBlock .ofExamples (Mat8.of fun _ _ => ofRat 255) ∧ nominalBlock State.reset.inst State.reset.blk ∧
      State.reset.inst.safeAlpha State.reset.alpha ∧ alphaPositive State.reset := by
  refine ⟨fun r c => (Inst.nominal_reference rfl).mpr ?_, fun r c => (Inst.nominal_reference rfl).mpr ?_,
    (Inst.safeAlpha_reference rfl).mpr ?_, by unfold alphaPositive; decide +kernel⟩
  · rw [Mat8.at_of, Sample.real_ofRat]; norm_num
  · have h : Mat8.at (Vector.replicate 64 Sample.zero) r c = Sample.zero := by simp [Mat8.at]
    rw [show State.reset.blk.at r c = .zero from h, Sample.real_zero]; norm_num
  · rw [show State.reset.alpha.real = 1 / 10 from alphaReset_real]; norm_num

theorem witness_EmbedForcesTheCarrier :
    State.reset.inst.numerics.isPos State.reset.alpha = true ∧
      ({ State.reset with alpha := ofRat 0 } : State).inst.numerics.isPos (ofRat 0) = false := by decide +kernel

theorem witness_EmbeddedBitIsExtracted : State.reset.inst.num = .reference ∧ 0 < State.reset.alpha.real :=
  ⟨rfl, (isPos_iff _).mp (by decide +kernel)⟩

theorem witness_ExtractAndDecodeIgnoreAlpha : Instr.extract = .extract ∧ Instr.decode = .decode := ⟨rfl, rfl⟩

/-- A 64×64 image that fills `IMG` exactly, at its last block. -/
def lastBlock : State := { State.reset with width := 64, height := 64, bidx := 63 }

theorem witness_BlockAddressesAreInsideAndDisjoint :
    63 < capacity lastBlock ∧ 0 < capacity lastBlock ∧ lastBlock.bidx.toNat = 63 ∧
      cellOf lastBlock 63 7 7 = cellOf lastBlock 63 7 7 := by decide

theorem witness_BlknextAdvancesAndSaturates :
    lastBlock.bidx.toNat < capacity lastBlock ∧
      capacity { lastBlock with bidx := 64 } ≤ ({ lastBlock with bidx := 64 } : State).bidx.toNat := by decide

/-- 241 times 17 is 4097, one cell more than `IMG` has; 64 times 64 is 4096. -/
theorem witness_LdblkLoadsTheBlock :
    (¬imageFits { State.reset with width := 241, height := 17 }) ∧ imageFits lastBlock ∧
      lastBlock.bidx.toNat < capacity lastBlock ∧ imageFits { lastBlock with bidx := 64 } ∧
      capacity { lastBlock with bidx := 64 } ≤ ({ lastBlock with bidx := 64 } : State).bidx.toNat := by
  unfold imageFits; decide

theorem witness_StblkStoresTheBlock :
    (¬imageFits { State.reset with width := 241, height := 17 }) ∧ imageFits lastBlock ∧
      lastBlock.bidx.toNat < capacity lastBlock ∧ (∀ r c, 0 ≠ cellOf lastBlock 63 r c) := by
  unfold imageFits; decide

theorem witness_FrmgetDeliversTheFramedBit :
    (¬messageFits { State.reset with msglen := 65 }) ∧ messageFits { State.reset with msglen := 64, fpos := 520 } ∧
      framedLength { State.reset with msglen := 64, fpos := 520 } ≤ 520 ∧
      519 < framedLength { State.reset with msglen := 64, fpos := 519 } := by
  unfold messageFits; decide

theorem witness_UnfputConsumesTheBit :
    let s : State := { State.reset with ucnt := 6 }
    let t : State := { State.reset with ucnt := 7, bit := true, uout := 64 }
    (s.uterm = false ∧ s.ucnt.toNat < 7) ∧ ({ s with uterm := true } : State).uterm = true ∧
    (t.uterm = false ∧ t.ucnt.toNat = 7 ∧ (t.uacc <<< 1 ||| (if t.bit then 1#8 else 0#8)) ≠ 0 ∧
      t.inst.msgoutMax ≤ t.uout.toNat) ∧
    ({ t with uout := 63 } : State).uout.toNat < t.inst.msgoutMax ∧
    (0#8 <<< 1 ||| (if ({ t with bit := false } : State).bit then 1#8 else 0#8)) = 0 := by decide

/-- One byte and a terminator into one cell of `MSGOUT`. -/
theorem witness_UnframerComputesUnframe :
    let bits := [false, true, false, false, false, false, false, true] ++ List.replicate 8 false ++ [true]
    (unframed bits).length ≤ ({ Inst.ofExamples with msgoutMax := 1 } : Inst).msgoutMax ∧
      ({ Inst.ofExamples with msgoutMax := 1 } : Inst).msgoutMax < 2 ^ 32 ∧ (unframed bits).length = 1 ∧
      terminated bits = true ∧ terminated [true, false] = false := by decide

/-- "hi" has no zero byte (`z = 2`), and "h", 0 has one (`z = 1`). -/
theorem witness_FramerRoundTrip :
    (hi.inst.wf = true ∧ messageFits hi ∧ 2 ≤ hi.msglen.toNat ∧ 2 ≤ hi.inst.msgoutMax ∧
      (∀ j, j < 2 → hi.msginAt j ≠ 0)) ∧
    (messageFits { hi with msgin := [(0, 0x68#8), (1, 0#8)] } ∧ 1 < hi.msglen.toNat ∧
      (∀ j, j < 1 → ({ hi with msgin := [(0, 0x68#8), (1, 0#8)] } : State).msginAt j ≠ 0) ∧
      ({ hi with msgin := [(0, 0x68#8), (1, 0#8)] } : State).msginAt 1 = 0) := by
  unfold messageFits; decide

/-- The empty message in eight blocks fits exactly; with seven it does not. -/
theorem witness_encode :
    imageFits zeroImage ∧ messageFits zeroImage ∧ alphaPositive zeroImage ∧ framedLength zeroImage ≤ capacity zeroImage ∧
      framedLength zeroImage = 8 ∧ capacity zeroImage = 8 := by
  unfold imageFits messageFits alphaPositive; decide +kernel

theorem witness_EncodeTestsBeforeItWrites :
    (¬imageFits { State.reset with width := 241, height := 17 }) ∧
    (imageFits { State.reset with msglen := 65 } ∧ ¬messageFits { State.reset with msglen := 65 }) ∧
    (imageFits State.reset ∧ messageFits State.reset ∧ ¬alphaPositive { State.reset with alpha := ofRat 0 }) ∧
    (imageFits { zeroImage with width := 63 } ∧ messageFits { zeroImage with width := 63 } ∧
      alphaPositive { zeroImage with width := 63 } ∧
      capacity { zeroImage with width := 63 } < framedLength { zeroImage with width := 63 }) := by
  unfold imageFits messageFits alphaPositive; decide +kernel

theorem witness_EncodeRewritesTheFramedBlocks :
    (0 < framedLength zeroImage) ∧ ∀ k, k < framedLength zeroImage → ∀ r c, 512 ≠ cellOf zeroImage k r c := by
  decide +kernel

/-- Eight blocks, each of the kind of image C in P4 that carries bit 0 (sample `(0, 1)` is 64). -/
def zeroByteImage : State :=
  { State.reset with width := 64, height := 8, img := cells 512 fun a => if a < 64 ∧ a % 8 = 1 then 64 else 0 }

/-- The blocks of the 64×8 images of these tests. -/
theorem block_of_cells {s : State} {f : Nat → Rat} (hw : s.width = 64) (hi : s.img = cells 512 f) (k : Nat) (h : k < 8) :
    blockOf s k = Mat8.of fun r c => ofRat (f (blockAddr 64 k r c)) := by
  refine congrArg Mat8.of (funext fun r => funext fun c => ?_)
  have hb := blockAddr_lt (width := 64) (height := 8) (k := k) (by omega) r c
  have hc : cellOf s k r c = blockAddr 64 k r c := by simp only [cellOf, blockAddr, hw]; rfl
  simp only [State.imgAt, hi, hc, lookup_cells 512 f _ hb, Option.getD_some]

theorem block_of_zeroByteImage (k : Nat) (h : k < 8) : blockOf zeroByteImage k = single 0 1 64 := by
  refine (block_of_cells rfl rfl k h).trans (congrArg Mat8.of (funext fun r => funext fun c => ?_))
  revert k r c; decide +kernel

theorem block_of_zeroImage (k : Nat) (h : k < 8) : blockOf zeroImage k = Mat8.of fun _ _ => ofRat 0 :=
  block_of_cells (f := fun _ => 0) rfl rfl k h

theorem zeroByteImage_bit (k : Nat) (h : k < 8) : carriedBit zeroByteImage k = false := by
  rw [carriedBit, block_of_zeroByteImage k h]; decide +kernel

theorem zeroImage_bit (k : Nat) (h : k < 8) : carriedBit zeroImage k = true := by
  rw [carriedBit, block_of_zeroImage k h]; decide +kernel

theorem witness_DecodeStopsAtTheTerminator :
    zeroByteImage.inst.wf = true ∧ imageFits zeroByteImage ∧ 0 < bitLimit zeroByteImage / 8 ∧
      carriedByte zeroByteImage 0 = 0 := by
  refine ⟨by decide, by unfold imageFits; decide, by decide, ?_⟩
  have h : (List.range 8).map (fun b => carriedBit zeroByteImage (8 * 0 + b)) = List.replicate 8 false := by
    simp [List.range_succ, zeroByteImage_bit]
  rw [carriedByte, h]; decide

/-- Every block of an image of zeros carries bit 1: with no limit, with a limit at the capacity and with one above it. -/
theorem witness_DecodeWithoutATerminator :
    zeroImage.inst.wf = true ∧ imageFits zeroImage ∧ (∀ j, j < bitLimit zeroImage / 8 → carriedByte zeroImage j ≠ 0) ∧
      bitLimit { zeroImage with expen := true, explen := 8 } / 8 = 1 ∧
      bitLimit { zeroImage with expen := true, explen := 9 } / 8 = 1 ∧ zeroImage.expen = false := by
  refine ⟨by decide, by unfold imageFits; decide, ?_, by decide, by decide, rfl⟩
  intro j hj
  have h0 : bitLimit zeroImage / 8 = 1 := by decide
  obtain rfl : j = 0 := by omega
  have h : (List.range 8).map (fun b => carriedBit zeroImage (8 * 0 + b)) = List.replicate 8 true := by
    simp [List.range_succ, zeroImage_bit]
  rw [carriedByte, h]; decide

theorem witness_DecodeRejectsALargeImage : ¬imageFits { State.reset with width := 241, height := 17 } := by
  unfold imageFits; decide

theorem witness_DecodeEqualsItsPrimitives : zeroImage.inst.wf = true ∧ imageFits zeroImage := by
  unfold imageFits; decide

/-- The empty message: `z = 0` is its length, and the explicit length 8 is just enough. -/
theorem witness_EncodeThenDecodeRecoversTheMessage :
    zeroImage.inst.wf = true ∧ imageFits zeroImage ∧ messageFits zeroImage ∧ alphaPositive zeroImage ∧
      framedLength zeroImage ≤ capacity zeroImage ∧ 0 = zeroImage.msglen.toNat ∧ zeroImage.inst.num = .reference ∧
      8 * (0 + 1) ≤ (8#32).toNat :=
  ⟨by decide, witness_encode.1, witness_encode.2.1, witness_encode.2.2.1, witness_encode.2.2.2.1, by decide, rfl, by decide⟩

/-- The other clause: nominal samples and a strength in the range of R8. -/
theorem witness_EncodeThenDecode_nominal :
    zeroImage.inst.safeAlpha zeroImage.alpha ∧
      ∀ k, k < framedLength zeroImage → nominalBlock zeroImage.inst (blockOf zeroImage k) := by
  refine ⟨witness_nominal.2.2.1, fun k hk r c => (Inst.nominal_reference rfl).mpr ?_⟩
  rw [block_of_zeroImage k hk, Mat8.at_of, Sample.real_ofRat]; norm_num

/-- A message that is one zero byte, in sixteen blocks: `z = 0` is below its length. -/
theorem witness_EncodeThenDecode_zero_byte :
    let s : State := { State.reset with width := 64, height := 16, msglen := 1, msgin := [(0, 0#8)] }
    s.inst.wf = true ∧ imageFits s ∧ messageFits s ∧ alphaPositive s ∧ framedLength s ≤ capacity s ∧
      0 < s.msglen.toNat ∧ s.msginAt 0 = 0 ∧ s.inst.num = .reference := by
  unfold imageFits messageFits alphaPositive; decide +kernel

theorem witness_EncodeIsDeterminedByImageMessageAlpha :
    let s' : State := { hi with bidx := 3, fpos := 2, bit := true, hzd := true, uout := 1 }
    s'.inst = hi.inst ∧ s'.width = hi.width ∧ s'.height = hi.height ∧ s'.msglen = hi.msglen ∧ s'.alpha = hi.alpha ∧
      (∀ a, s'.imgAt a = hi.imgAt a) ∧ ∀ j, j < hi.msglen.toNat → s'.msginAt j = hi.msginAt j :=
  ⟨rfl, rfl, rfl, rfl, rfl, fun _ => rfl, fun _ _ => rfl⟩

theorem witness_CommandsWriteOnlyTheirColumns :
    (∃ t, exec .nop midRun = .next t) ∧ Instr.nop ∉ [.sreset, .idct, .ldblk, .encode, .decode] := ⟨⟨_, rfl⟩, by decide⟩

theorem witness_RecordedErrorStays :
    broken.mode = .error ∧ clearsError (.writeReg 0x00 0x00000010#32) = false ∧ clearsError .engine = false ∧
      ∃ t, step { broken with agenda := [.writeReg 0x00 0x00000010#32] } = .next t := by
  exact ⟨by decide, by decide, by decide, _, rfl⟩

theorem witness_RegisterReadsReturnTheirValues : broken.mode ≠ .busy ∧ 0 < 64 ∧ 0x16 ≤ 63 ∧ 63 < 64 := by decide

theorem witness_RegisterWritesStoreTheirFields :
    broken.mode ≠ .busy ∧ 0x0C ≠ 0x00 ∧ 0x16 ∉ [0x05, 0x06, 0x07, 0x08, 0x09, 0x0A, 0x0C] ∧
      0x0B ∉ [0x05, 0x06, 0x07, 0x08, 0x09, 0x0A, 0x0C] := by decide

theorem witness_SregWindowsReachAlphaBlkCoef : broken.mode ≠ .busy ∧ 0 < 1 ∧ 1 < 64 ∧ 0 < 63 ∧ 63 < 64 := by decide

theorem witness_HostReachesTheMemoryCells :
    broken.mode ≠ .busy ∧ 4095 < broken.inst.imgMax ∧ 63 < broken.inst.msginMax ∧ 63 < broken.inst.msgoutMax := by decide

theorem witness_AccessOutsideASpaceHasNoEffect :
    Space.reg.size midRun.inst ≤ 64 ∧ Space.sreg.size midRun.inst ≤ 192 ∧ Space.img.size midRun.inst ≤ 4096 ∧
      Space.msgin.size midRun.inst ≤ 64 ∧ Space.msgout.size midRun.inst ≤ 64 ∧
      writeTarget (.writeMsgin 64 0) = some (.msgin, 64) := by decide

theorem witness_BusyAccessesAreDroppedAndFlagged :
    midRun.mode = .busy ∧ 63 < Space.reg.size midRun.inst ∧ 191 < Space.sreg.size midRun.inst ∧
      4095 < Space.img.size midRun.inst ∧ writeTarget (.writeReg 63 0) = some (.reg, 63) ∧
      ¬(Space.reg = .reg ∧ 0x02 = 0x01) ∧ ¬(Space.sreg = .reg ∧ 0x01 = 0x01) := by decide

theorem witness_HazardFlagRecordsViolations :
    (∃ t, step { midRun with agenda := [.writeReg 0x06 8] } = .next t ∧ t.hzd = true) ∧
      (Event.writeReg 0x06 8).respects midRun = false := ⟨⟨_, rfl, by decide⟩, by decide⟩

theorem witness_ResetLeavesTheStatedValues : Inst.ofExamples.num = .reference := rfl

theorem witness_ResetPinResetsFromAnyState : broken.mode ≠ .busy := by decide

theorem witness_AbandonedCommandLeavesOldOrNewCells :
    let s : State := { midRun with pend := some 0x33 }
    s.Inv ∧ s.mode = .busy ∧ s.pending = some .stblk ∧ (∃ u, exec .stblk s = .next u) ∧
      ∃ t, step { s with agenda := [.resetPin] } = .next t := by
  refine ⟨?_, rfl, by decide, exec_next _ _,
    State.resetPin { midRun with pend := some 0x33, agenda := [] }, rfl⟩
  constructor <;> decide

end Sys2Proof.Tests
end

section
/-! SUPPORT. What one step can do, said once: it performs one event, and each event either ends in a next state or, for the
engine's turn alone, stops where `PEND` holds no deferred command. From the cases follow totality (00_scope.md R14) and
that the parameters `inst` stay (00_scope.md R9, 10_state.md R49). -/

namespace Sys2Proof.Machine

/-! ### The cases of the `CMD` write and of the engine's turn -/

theorem nop_or_clrerr_or_sreset_of_immediate {i : Instr} (h : i.immediate = true) : i = .nop ∨ i = .clrerr ∨ i = .sreset := by
  cases i with
  | nop => exact .inl rfl
  | clrerr => exact .inr (.inl rfl)
  | sreset => exact .inr (.inr rfl)
  | _ => cases h

/-- The acceptance table of R88, row by row. -/
theorem commandWrite_cases (w : Word) (s : State) :
    (s.mode = .busy ∧ commandWrite w s = .next s.hazard) ∨
    (s.mode ≠ .busy ∧ ∃ i, decodeWord w = .ok i ∧ i.immediate = true ∧ commandWrite w s = exec i s) ∨
    (s.mode = .idle ∧ ∃ i, decodeWord w = .ok i ∧ i.immediate = false ∧ commandWrite w s = .next (s.accept (opField w))) ∨
    (s.mode = .idle ∧ (∃ e, decodeWord w = .error e) ∧ commandWrite w s = .next (s.rejectWord w)) ∨
    (s.mode = .error ∧ (∀ i, decodeWord w = .ok i → i.immediate = false) ∧ commandWrite w s = .next s) := by
  cases hm : s.mode with
  | busy => simp [commandWrite, hm]
  | idle =>
    cases hw : decodeWord w with
    | error e => simp [commandWrite, hm, hw]
    | ok i => cases hi : i.immediate <;> simp [commandWrite, hm, hw, hi]
  | error =>
    cases hw : decodeWord w with
    | error e => simp [commandWrite, hm, hw]
    | ok i => cases hi : i.immediate <;> simp [commandWrite, hm, hw, hi]

theorem completePending_of_some {s : State} {i : Instr} (h : s.pending = some i) : completePending s = exec i s := by
  simp only [completePending, h]

theorem completePending_of_none {s : State} (h : s.pending = none) : completePending s = .fault .pendNotDeferred := by
  simp only [completePending, h]

/-- One step performs the oldest event of the agenda, and on an empty agenda gives the engine its turn (R207). -/
theorem step_eq_perform (s : State) :
    step s = perform (s.agenda.headD .engine) { s with agenda := s.agenda.tail } := by
  cases ha : s.agenda with
  | cons e rest => simp only [step, stepAgenda, ha, List.headD_cons, List.tail_cons]
  | nil =>
    have hs : { s with agenda := [] } = s := by rw [← ha]
    simp only [step, stepAgenda, ha, List.headD_nil, List.tail_nil, perform, hs]

/-! ### Totality -/

theorem commandWrite_next (w : Word) (s : State) : ∃ t, commandWrite w s = .next t := by
  obtain ⟨-, h⟩ | ⟨-, i, -, -, h⟩ | ⟨-, i, -, -, h⟩ | ⟨-, -, h⟩ | ⟨-, -, h⟩ := commandWrite_cases w s
  · exact ⟨_, h⟩
  · rw [h]; exact exec_next i s
  · exact ⟨_, h⟩
  · exact ⟨_, h⟩
  · exact ⟨_, h⟩

theorem completePending_next {s : State} (h : s.pending ≠ none) : ∃ t, completePending s = .next t := by
  obtain ⟨i, hi⟩ := Option.ne_none_iff_exists'.mp h
  rw [completePending_of_some hi]
  exact exec_next i s

/-- Only the engine's turn can stop, and it does not where a running command is a deferred one (log 10). -/
theorem perform_next (e : Event) {s : State} (h : s.mode = .busy → s.pending ≠ none) : ∃ t, perform e s = .next t := by
  cases e with
  | writeReg i w =>
    by_cases hi : i = 0x00
    · simp only [perform, hi, if_true]; exact commandWrite_next w s
    · simp only [perform, hi, if_false]; exact ⟨_, rfl⟩
  | engine =>
    by_cases hb : s.mode = .busy
    · simp only [perform, hb, if_true]; exact completePending_next (h hb)
    · simp only [perform, hb, if_false]; exact ⟨_, rfl⟩
  | _ => exact ⟨_, rfl⟩

/-! ### The parameters `inst` stay -/

theorem CmdResult.finish_inst {r : CmdResult} {t : State} (h : r.finish = .next t) : t.inst = r.state.inst := by
  cases r with
  | done u => cases h; exact u.complete_inst
  | raise e i0 i1 u => cases h; exact u.enterError_inst e i0 i1

theorem exec_inst {i : Instr} {s t : State} (h : exec i s = .next t) : t.inst = s.inst := by
  cases hi : i.immediate with
  | true => obtain rfl | rfl | rfl := nop_or_clrerr_or_sreset_of_immediate hi <;> (cases h; rfl)
  | false =>
    obtain ⟨r, hr, hgood⟩ := exec_deferred i s hi
    rw [hr] at h
    exact (CmdResult.finish_inst h).trans hgood.settings.inst

theorem commandWrite_inst {w : Word} {s t : State} (h : commandWrite w s = .next t) : t.inst = s.inst := by
  obtain ⟨-, k⟩ | ⟨-, i, -, -, k⟩ | ⟨-, i, -, -, k⟩ | ⟨-, -, k⟩ | ⟨-, -, k⟩ := commandWrite_cases w s <;> rw [k] at h
  · cases h; exact s.hazard_inst
  · exact exec_inst h
  · cases h; exact s.accept_inst _
  · cases h; exact s.enterError_inst _ _ _
  · cases h; rfl

theorem completePending_inst {s t : State} (h : completePending s = .next t) : t.inst = s.inst := by
  cases hp : s.pending with
  | none => rw [completePending_of_none hp] at h; cases h
  | some i => rw [completePending_of_some hp] at h; exact exec_inst h

@[simp] theorem State.hostRead_inst (s : State) (sp : Space) (i : Nat) : (s.hostRead sp i).inst = s.inst := by
  simp only [State.hostRead, apply_ite State.inst, State.returnFree_inst, State.returnCell_inst, State.hazard_inst, ite_self]

/-- A host write changes `inst` only if its effect on the cell does. -/
theorem State.hostWrite_inst {s : State} {store : State → State} (h : (store s).inst = s.inst) (sp : Space) (i : Nat) :
    (s.hostWrite sp i store).inst = s.inst := by
  simp only [State.hostWrite, apply_ite State.inst, State.hazard_inst, h, ite_self]

@[simp] theorem State.storeReg_inst (s : State) (i : Nat) (w : Word) : (s.storeReg i w).inst = s.inst := by
  unfold State.storeReg; split <;> rfl

@[simp] theorem State.storeSreg_inst (s : State) (i : Nat) (v : Sample) : (s.storeSreg i v).inst = s.inst := by
  simp only [State.storeSreg, apply_ite State.inst, ite_self]

@[simp] theorem State.resetPin_inst (s : State) : s.resetPin.inst = s.inst := by
  unfold State.resetPin; split <;> rfl

theorem perform_inst {e : Event} {s t : State} (h : perform e s = .next t) : t.inst = s.inst := by
  cases e with
  | read sp i => cases h; exact s.hostRead_inst sp i
  | writeReg i w =>
    by_cases hi : i = 0x00
    · simp only [perform, hi, if_true] at h; exact commandWrite_inst h
    · simp only [perform, hi, if_false] at h; cases h; exact State.hostWrite_inst (s.storeReg_inst i w) _ _
  | writeSreg i v => cases h; exact State.hostWrite_inst (s.storeSreg_inst i v) _ _
  | writeImg i v => cases h; exact State.hostWrite_inst (s.setImg_inst i v) _ _
  | writeMsgin i b => cases h; exact State.hostWrite_inst (s.setMsgin_inst i b) _ _
  | writeMsgout i b => cases h; exact State.hostWrite_inst (s.setMsgout_inst i b) _ _
  | engine =>
    by_cases hb : s.mode = .busy
    · simp only [perform, hb, if_true] at h; exact completePending_inst h
    · simp only [perform, hb, if_false] at h; cases h; rfl
  | resetPin => cases h; exact s.resetPin_inst

/-! ### The obligations -/

/-- Settles O7: the invariant gives every running command a deferred opcode in `PEND`, and no other event can stop. -/
theorem everyStepAnswersANextState : Obligations.EveryStepAnswersANextState := by
  intro s hinv
  rw [step_eq_perform]
  exact perform_next _ hinv.pend_deferred

/-- Settles O10: a step performs one event, and no event writes `inst`. -/
theorem noStepChangesTheInstance : Obligations.NoStepChangesTheInstance := by
  intro s t h
  rw [step_eq_perform] at h
  have hinst := perform_inst h
  exact hinst

end Sys2Proof.Machine
end

section
/-! SUPPORT. What it says of a word that it decodes: its reserved bits are 0 and its opcode is in the table of R86
(30_encoding.md R85, R89), so it is the word of its command. -/

namespace Sys2Proof

theorem decodeWord_ok_iff {w : Word} {i : Instr} :
    decodeWord w = .ok i ↔ rsvField w = 0#24 ∧ decodeOpcode (opField w) = some i := by
  unfold decodeWord
  split
  · cases h : decodeOpcode (opField w) <;> simp_all
  · simp_all

theorem decodeOpcode_eq_some {op : BitVec 8} {i : Instr} (h : decodeOpcode op = some i) : (op, i) ∈ opcodeTable := by
  obtain ⟨⟨op', i'⟩, hfind, rfl⟩ := Option.map_eq_some_iff.mp h
  have hop : op' = op := by simpa using List.find?_some hfind
  exact hop ▸ List.mem_of_find?_eq_some hfind

/-- The fields of R85 are the whole word. -/
theorem word_eq_rsvField_append_opField (w : Word) : w = rsvField w ++ opField w := by
  apply BitVec.eq_of_getLsbD_eq
  intro k hk
  simp only [rsvField, opField, BitVec.getLsbD_append, BitVec.getLsbD_extractLsb']
  split <;> grind

/-- The `op` and `word` columns of R86 agree, and the word of a command has no reserved bit. -/
theorem opcodeTable_encode : ∀ row ∈ opcodeTable, row.1 = opField (encode row.2) ∧ rsvField (encode row.2) = 0#24 := by
  decide

theorem eq_encode_of_decodeWord {w : Word} {i : Instr} (h : decodeWord w = .ok i) : w = encode i := by
  obtain ⟨hrsv, hop⟩ := decodeWord_ok_iff.mp h
  obtain ⟨hop', hrsv'⟩ := opcodeTable_encode _ (decodeOpcode_eq_some hop)
  rw [word_eq_rsvField_append_opField w, word_eq_rsvField_append_opField (encode i), hrsv, hrsv', ← hop']

end Sys2Proof
end
section
/-! SUPPORT. The outcomes of a host access to a cell, said once (20_memory.md R64, R65, R74). -/

namespace Sys2Proof.Machine

theorem State.hostRead_cases (s : State) (sp : Space) (i : Nat) :
    (s.mode = .busy ∧ i < sp.size s.inst ∧ ¬(sp = .reg ∧ i = 0x01) ∧ s.hostRead sp i = s.hazard.returnFree sp) ∨
    (i < sp.size s.inst ∧ (s.mode = .busy → sp = .reg ∧ i = 0x01) ∧ s.hostRead sp i = s.returnCell sp i) ∨
    (sp.size s.inst ≤ i ∧ s.hostRead sp i = s.returnFree sp) := by
  by_cases hi : i < sp.size s.inst
  · by_cases hb : s.mode = .busy ∧ ¬(sp = .reg ∧ i = 0x01)
    · exact .inl ⟨hb.1, hi, hb.2, State.hostRead_busy hi hb.1 hb.2⟩
    · exact .inr (.inl ⟨hi, fun m => not_not.mp fun n => hb ⟨m, n⟩, by rw [State.hostRead, if_pos hi, if_neg hb]⟩)
  · exact .inr (.inr ⟨not_lt.mp hi, State.hostRead_outside (not_lt.mp hi)⟩)

theorem State.hostWrite_cases (s : State) (sp : Space) (i : Nat) (store : State → State) :
    (s.mode = .busy ∧ i < sp.size s.inst ∧ s.hostWrite sp i store = s.hazard) ∨
    (s.mode ≠ .busy ∧ i < sp.size s.inst ∧ s.hostWrite sp i store = store s) ∨
    (sp.size s.inst ≤ i ∧ s.hostWrite sp i store = s) := by
  by_cases hi : i < sp.size s.inst
  · by_cases hb : s.mode = .busy
    · exact .inl ⟨hb, hi, State.hostWrite_busy store hi hb⟩
    · exact .inr (.inl ⟨hb, hi, State.hostWrite_stores store hi hb⟩)
  · exact .inr (.inr ⟨not_lt.mp hi, State.hostWrite_outside store (not_lt.mp hi)⟩)

/-- A host write to `REG` other than `CMD` stores in one of the seven writable registers or nowhere (R24). -/
theorem State.storeReg_eq (s : State) (i : Nat) (w : Word) : ∃ expen width height msglen explen bidx bit,
    s.storeReg i w = { s with expen := expen, width := width, height := height, msglen := msglen, explen := explen
                              bidx := bidx, bit := bit } := by
  unfold State.storeReg
  split <;> exact ⟨_, _, _, _, _, _, _, rfl⟩

/-- A host write to `SREG` stores in `ALPHA`, `BLK` or `COEF` or nowhere (R44). -/
theorem State.storeSreg_eq (s : State) (i : Nat) (v : Sample) : ∃ alpha blk coef,
    s.storeSreg i v = { s with alpha := alpha, blk := blk, coef := coef } := by
  unfold State.storeSreg
  repeat' split
  all_goals exact ⟨_, _, _, rfl⟩

theorem State.deferred_of_pending {s : State} {i : Instr} (h : s.pending = some i) : i.immediate = false := by
  unfold State.pending at h
  split at h
  · cases h
  split at h
  · cases h
  split at h
  · cases h
  · cases h; exact Bool.eq_false_iff.mpr ‹_›

/-- An accepted command is in `PEND` as the command that its word decodes to (R88). -/
theorem State.pending_accept {w : Word} {i : Instr} (s : State) (hw : decodeWord w = .ok i) (hi : i.immediate = false) :
    (s.accept (opField w)).pending = some i := by
  simp only [State.pending, State.accept_pend, (decodeWord_ok_iff.mp hw).2, hi]
  rfl

end Sys2Proof.Machine
end
section
/-! SUPPORT. Every reachable state meets the invariant (10_state.md R51): it has a part about the data of the units
(`State.Data`) and a part about how commands run (`State.Control`), and no event breaks either. -/

namespace Sys2Proof.Machine

/-- The part of the invariant that is about how commands run: `STATE`, `DONE`, `PEND` and the recorded error. -/
structure State.Control (s : State) : Prop where
  err_iff : s.err ≠ 0 ↔ s.mode = .error
  info_clear : s.err = 0 → s.errinfo0 = 0 ∧ s.errinfo1 = 0
  err_code : s.err.toNat ≤ 8 ∧ s.err ≠ 3
  busy_iff : s.mode = .busy ↔ s.pend ≠ none
  pend_deferred : s.mode = .busy → s.pending ≠ none
  done_idle : s.done = true → s.mode = .idle

theorem State.inv_iff {s : State} : s.Inv ↔ s.Data ∧ s.Control := by
  constructor
  · intro h
    exact ⟨h.data, h.err_iff, h.info_clear, h.err_code, h.busy_iff, h.pend_deferred, h.done_idle⟩
  · rintro ⟨hd, hc⟩
    exact { hd, hc with }

/-! ### What each part depends on -/

theorem State.Data.frame {s t : State} (h : s.Data) (inst : t.inst = s.inst) (unframer : t.unframer = s.unframer)
    (outlen : t.outlen = s.outlen) (fpos : t.fpos = s.fpos) (img : t.img = s.img) (msgin : t.msgin = s.msgin) :
    t.Data := by
  simp only [State.unframer, Unframer.mk.injEq] at unframer
  obtain ⟨uacc, ucnt, ubits, uout, uterm, msgout, -⟩ := unframer
  obtain ⟨h1, h2, h3, h4, h5, h6, h7, h8, h9, h10⟩ := h
  constructor <;> simp only [inst, uacc, ucnt, ubits, uout, uterm, msgout, outlen, fpos, img, msgin] <;> assumption

theorem State.Control.frame {s t : State} (h : s.Control) (mode : t.mode = s.mode) (done : t.done = s.done)
    (err : t.err = s.err) (info0 : t.errinfo0 = s.errinfo0) (info1 : t.errinfo1 = s.errinfo1) (pend : t.pend = s.pend) :
    t.Control where
  err_iff := by rw [err, mode]; exact h.err_iff
  info_clear := by rw [err, info0, info1]; exact h.info_clear
  err_code := by rw [err]; exact h.err_code
  busy_iff := by rw [mode, pend]; exact h.busy_iff
  pend_deferred := by rw [State.pending, mode, pend]; exact h.pend_deferred
  done_idle := by rw [done, mode]; exact h.done_idle

/-! ### The updates that keep both parts -/

theorem State.Inv.frame {s t : State} (h : s.Inv) (data : s.Data → t.Data) (control : s.Control → t.Control) : t.Inv :=
  State.inv_iff.mpr ((State.inv_iff.mp h).imp data control)

theorem State.Inv.agenda {s : State} (h : s.Inv) (g : List Event) : State.Inv { s with agenda := g } :=
  h.frame (·.frame rfl rfl rfl rfl rfl rfl) (·.frame rfl rfl rfl rfl rfl rfl)

theorem State.Inv.hazard {s : State} (h : s.Inv) : s.hazard.Inv :=
  h.frame (·.frame rfl rfl rfl rfl rfl rfl) (·.frame rfl rfl rfl rfl rfl rfl)

theorem State.Inv.returnCell {s : State} (h : s.Inv) (sp : Space) (i : Nat) : (s.returnCell sp i).Inv :=
  h.frame (·.frame rfl rfl rfl rfl rfl rfl) (·.frame rfl rfl rfl rfl rfl rfl)

theorem State.Inv.returnFree {s : State} (h : s.Inv) (sp : Space) : (s.returnFree sp).Inv :=
  h.frame (·.frame rfl rfl rfl rfl rfl rfl) (·.frame rfl rfl rfl rfl rfl rfl)

theorem State.Inv.storeReg {s : State} (h : s.Inv) (i : Nat) (w : Word) : (s.storeReg i w).Inv := by
  obtain ⟨_, _, _, _, _, _, _, e⟩ := s.storeReg_eq i w
  rw [e]
  exact h.frame (·.frame rfl rfl rfl rfl rfl rfl) (·.frame rfl rfl rfl rfl rfl rfl)

theorem State.Inv.storeSreg {s : State} (h : s.Inv) (i : Nat) (v : Sample) : (s.storeSreg i v).Inv := by
  obtain ⟨_, _, _, e⟩ := s.storeSreg_eq i v
  rw [e]
  exact h.frame (·.frame rfl rfl rfl rfl rfl rfl) (·.frame rfl rfl rfl rfl rfl rfl)

theorem State.Inv.setImg {s : State} (h : s.Inv) {i : Nat} (hi : i < s.inst.imgMax) (v : Sample) : (s.setImg i v).Inv :=
  h.frame (fun d => { d with img_wf := Memory.wf_write d.img_wf hi v }) (·.frame rfl rfl rfl rfl rfl rfl)

theorem State.Inv.setMsgin {s : State} (h : s.Inv) {i : Nat} (hi : i < s.inst.msginMax) (b : Byte) : (s.setMsgin i b).Inv :=
  h.frame (fun d => { d with msgin_wf := Memory.wf_write d.msgin_wf hi b }) (·.frame rfl rfl rfl rfl rfl rfl)

theorem State.Inv.setMsgout {s : State} (h : s.Inv) {i : Nat} (hi : i < s.inst.msgoutMax) (b : Byte) : (s.setMsgout i b).Inv :=
  h.frame (fun d => { d with msgout_wf := Memory.wf_write d.msgout_wf hi b }) (·.frame rfl rfl rfl rfl rfl rfl)

theorem State.Inv.hostRead {s : State} (h : s.Inv) (sp : Space) (i : Nat) : (s.hostRead sp i).Inv := by
  obtain ⟨-, -, -, e⟩ | ⟨-, -, e⟩ | ⟨-, e⟩ := s.hostRead_cases sp i <;> rw [e]
  · exact h.hazard.returnFree sp
  · exact h.returnCell sp i
  · exact h.returnFree sp

/-- A host write keeps the invariant if storing inside the space does. -/
theorem State.Inv.hostWrite {s : State} (h : s.Inv) {sp : Space} {i : Nat} {store : State → State}
    (hstore : i < sp.size s.inst → (store s).Inv) : (s.hostWrite sp i store).Inv := by
  obtain ⟨-, -, e⟩ | ⟨-, hi, e⟩ | ⟨-, e⟩ := s.hostWrite_cases sp i store <;> rw [e]
  · exact h.hazard
  · exact hstore hi
  · exact h

/-! ### How a command begins and ends -/

theorem State.Inv.err_eq_zero {s : State} (h : s.Inv) (m : s.mode ≠ .error) : s.err = 0 :=
  not_not.mp fun k => m (h.err_iff.mp k)

/-- An idle engine with no error recorded and no command pending meets the control part. -/
theorem State.Control.of_idle {s : State} (mode : s.mode = .idle) (err : s.err = 0) (info0 : s.errinfo0 = 0)
    (info1 : s.errinfo1 = 0) (pend : s.pend = none) : s.Control where
  err_iff := by simp [err, mode]
  info_clear := fun _ => ⟨info0, info1⟩
  err_code := by simp [err]
  busy_iff := by simp [mode, pend]
  pend_deferred := by simp [mode]
  done_idle := fun _ => mode

theorem ErrorKind.code_ne_zero (e : ErrorKind) : e.code ≠ 0 := by cases e <;> decide

/-- The codes that commands record (R166, R169). -/
theorem ErrorKind.code_bounds {e : ErrorKind} (he : e ≠ .sizeMismatch) : e.code.toNat ≤ 8 ∧ e.code ≠ 3 := by
  cases e with
  | sizeMismatch => exact absurd rfl he
  | _ => decide

theorem State.Control.enterError (s : State) {e : ErrorKind} (he : e ≠ .sizeMismatch) (i0 i1 : Nat) :
    (s.enterError e i0 i1).Control where
  err_iff := iff_of_true e.code_ne_zero rfl
  info_clear := fun h => absurd h e.code_ne_zero
  err_code := ErrorKind.code_bounds he
  busy_iff := by simp
  pend_deferred := by simp
  done_idle := by simp

theorem State.Inv.leaveError {s : State} (h : s.Inv) (m : s.mode ≠ .busy) : s.leaveError.Inv :=
  h.frame (·.frame rfl rfl rfl rfl rfl rfl) fun _ => .of_idle rfl rfl rfl rfl (not_not.mp fun k => m (h.busy_iff.mpr k))

theorem State.Inv.enterError {s : State} (h : s.Inv) {e : ErrorKind} (he : e ≠ .sizeMismatch) (i0 i1 : Nat) :
    (s.enterError e i0 i1).Inv :=
  h.frame (·.frame rfl rfl rfl rfl rfl rfl) fun _ => .enterError s he i0 i1

theorem State.Inv.accept {s : State} (h : s.Inv) (m : s.mode = .idle) {w : Word} {i : Instr} (hw : decodeWord w = .ok i)
    (hi : i.immediate = false) : (s.accept (opField w)).Inv := by
  have herr : s.err = 0 := h.err_eq_zero (by simp [m])
  refine h.frame (·.frame rfl rfl rfl rfl rfl rfl) fun c => ?_
  exact {
    err_iff := by simp [herr]
    info_clear := c.info_clear
    err_code := c.err_code
    busy_iff := by simp
    pend_deferred := by simp [State.pending_accept s hw hi]
    done_idle := by simp }

/-- A rule that keeps the data part ends its command in a state that meets the invariant (R175, R176). -/
theorem CmdResult.Good.finish_inv {s t : State} {r : CmdResult} (hgood : CmdResult.Good s r) (h : s.Inv)
    (m : s.mode = .busy) (hfin : r.finish = .next t) : t.Inv := by
  have hdata := hgood.data h.data
  cases r with
  | done u =>
    cases hfin
    obtain ⟨info0, info1⟩ := h.info_clear (h.err_eq_zero (by simp [m]))
    exact State.inv_iff.mpr ⟨hdata.frame rfl rfl rfl rfl rfl rfl, .of_idle rfl
      (hgood.settings.err.trans (h.err_eq_zero (by simp [m]))) (hgood.settings.errinfo0.trans info0)
      (hgood.settings.errinfo1.trans info1) rfl⟩
  | raise e i0 i1 u =>
    cases hfin
    exact State.inv_iff.mpr ⟨hdata.frame rfl rfl rfl rfl rfl rfl, .enterError u (hgood.raises _ _ _ _ rfl) i0 i1⟩

/-- The engine's turn, where a command is running. -/
theorem State.Inv.completePending {s t : State} (h : s.Inv) (m : s.mode = .busy)
    (hstep : Machine.completePending s = .next t) : t.Inv := by
  obtain ⟨i, hi⟩ := Option.ne_none_iff_exists'.mp (h.pend_deferred m)
  obtain ⟨r, hr, hgood⟩ := exec_deferred i s (State.deferred_of_pending hi)
  rw [completePending_of_some hi, hr] at hstep
  exact hgood.finish_inv h m hstep

/-! ### Reset -/

/-- An engine right after its first reset. -/
theorem State.ofInst_inv {p : Inst} (hp : p.wf = true) : (State.ofInst p).Inv := by
  refine State.inv_iff.mpr ⟨?_, .of_idle rfl rfl rfl rfl rfl⟩
  constructor <;> simp [State.ofInst, hp]

theorem State.Inv.resetRegisters {s : State} (h : s.Inv) : s.resetRegisters.Inv := by
  have h0 := State.ofInst_inv h.inst_wf
  exact { h0 with img_wf := h.img_wf, msgin_wf := h.msgin_wf, msgout_wf := h.msgout_wf }

theorem State.wouldEnd_inst (s : State) : s.wouldEnd.inst = s.inst := by
  unfold State.wouldEnd
  split
  · exact completePending_inst ‹_›
  · rfl
  · rfl

theorem State.Inv.wouldEnd {s : State} (h : s.Inv) (m : s.mode = .busy) : s.wouldEnd.Inv := by
  unfold State.wouldEnd
  split
  · exact h.completePending m ‹_›
  · exact h
  · exact h

/-- The memories that an abandoned command leaves are in canonical form (R191). -/
theorem State.Inv.abandonCommand {s : State} (h : s.Inv) (m : s.mode = .busy) : s.abandonCommand.Inv := by
  have hend := h.wouldEnd m
  refine h.frame (fun d => { d with img_wf := ?_, msgout_wf := ?_ }) (·.frame rfl rfl rfl rfl rfl rfl)
  · exact Memory.wf_abandon _ _ (s.wouldEnd_inst ▸ hend.img_wf)
  · exact Memory.wf_abandon _ _ (s.wouldEnd_inst ▸ hend.msgout_wf)

theorem State.Inv.resetPin {s : State} (h : s.Inv) : s.resetPin.Inv := by
  unfold State.resetPin
  split
  · exact (h.abandonCommand ‹_›).resetRegisters
  · exact h.resetRegisters

/-! ### Every event -/

theorem commandWrite_inv {w : Word} {s t : State} (h : s.Inv) (hstep : commandWrite w s = .next t) : t.Inv := by
  obtain ⟨-, k⟩ | ⟨m, i, -, hi, k⟩ | ⟨m, i, hw, hi, k⟩ | ⟨-, -, k⟩ | ⟨-, -, k⟩ := commandWrite_cases w s <;> rw [k] at hstep
  · cases hstep; exact h.hazard
  · obtain rfl | rfl | rfl := nop_or_clrerr_or_sreset_of_immediate hi <;> cases hstep
    · exact h
    · exact h.leaveError m
    · exact h.resetRegisters
  · cases hstep; exact h.accept m hw hi
  · cases hstep; exact h.enterError (by decide) _ _
  · cases hstep; exact h

/-- Every event keeps the invariant. -/
theorem perform_inv {e : Event} {s t : State} (h : s.Inv) (hstep : perform e s = .next t) : t.Inv := by
  cases e with
  | read sp i => cases hstep; exact h.hostRead sp i
  | writeReg i w =>
    by_cases hi : i = 0x00
    · simp only [perform, hi, if_true] at hstep; exact commandWrite_inv h hstep
    · simp only [perform, hi, if_false] at hstep; cases hstep; exact h.hostWrite fun _ => h.storeReg i w
  | writeSreg i v => cases hstep; exact h.hostWrite fun _ => h.storeSreg i v
  | writeImg i v => cases hstep; exact h.hostWrite fun hi => h.setImg hi v
  | writeMsgin i b => cases hstep; exact h.hostWrite fun hi => h.setMsgin hi b
  | writeMsgout i b => cases hstep; exact h.hostWrite fun hi => h.setMsgout hi b
  | engine =>
    by_cases hb : s.mode = .busy
    · simp only [perform, hb, if_true] at hstep; exact h.completePending hb hstep
    · simp only [perform, hb, if_false] at hstep; cases hstep; exact h
  | resetPin => cases hstep; exact h.resetPin

/-- Settles O9: a step performs one event, and every event keeps both parts of the invariant. -/
theorem everyStepKeepsTheInvariant : Obligations.EveryStepKeepsTheInvariant := by
  intro s t h hstep
  rw [step_eq_perform] at hstep
  exact perform_inv (h.agenda _) hstep

/-- Settles O8: reset meets the invariant wherever the parameters are admitted, as those of the examples are. -/
theorem resetMeetsTheInvariant : Obligations.ResetMeetsTheInvariant :=
  ⟨State.ofInst_inv (by decide), fun _ => State.ofInst_inv⟩

end Sys2Proof.Machine
end

section
/-! SUPPORT. What the host sees and stores through its interface (10_state.md R24 to R47), and which events write `HZD`
(R26, 70_reset_and_hazards.md R198). -/

namespace Sys2Proof.Machine

/-! ### Accesses to a cell while the engine is not `BUSY` -/

/-- A write to a read-only or reserved offset of `REG`, or beyond `REG`, stores nothing (R24). -/
theorem State.storeReg_ignored (s : State) {i : Nat} (w : Word)
    (h : i ∉ [0x05, 0x06, 0x07, 0x08, 0x09, 0x0A, 0x0C]) : s.storeReg i w = s := by
  unfold State.storeReg
  split <;> simp at h ⊢

section
variable {s : State} {i : Nat} (m : s.mode ≠ .busy)
include m

theorem perform_read {sp : Space} (h : i < sp.size s.inst) : perform (.read sp i) s = .next (s.returnCell sp i) :=
  congrArg _ (State.hostRead_cell h m)

theorem perform_writeSreg (v : Sample) (h : i < 192) : perform (.writeSreg i v) s = .next (s.storeSreg i v) :=
  congrArg _ (State.hostWrite_stores (sp := .sreg) _ h m)

theorem perform_writeImg (v : Sample) (h : i < s.inst.imgMax) : perform (.writeImg i v) s = .next (s.setImg i v) :=
  congrArg _ (State.hostWrite_stores (sp := .img) _ h m)

theorem perform_writeMsgin (b : Byte) (h : i < s.inst.msginMax) : perform (.writeMsgin i b) s = .next (s.setMsgin i b) :=
  congrArg _ (State.hostWrite_stores (sp := .msgin) _ h m)

theorem perform_writeMsgout (b : Byte) (h : i < s.inst.msgoutMax) :
    perform (.writeMsgout i b) s = .next (s.setMsgout i b) :=
  congrArg _ (State.hostWrite_stores (sp := .msgout) _ h m)

theorem perform_writeReg (w : Word) (h0 : i ≠ 0x00) : perform (.writeReg i w) s = .next (s.storeReg i w) := by
  simp only [perform, if_neg h0]
  by_cases hi : i < 64
  · rw [State.hostWrite_stores (sp := .reg) _ hi m]
  · rw [State.hostWrite_outside (sp := .reg) _ (not_lt.mp hi), State.storeReg_ignored _ w (by simp; omega)]

end

/-! ### The `STATUS` word -/

theorem append_toNat {m n : Nat} (x : BitVec m) (y : BitVec n) : (x ++ y).toNat = x.toNat * 2 ^ n + y.toNat := by
  rw [BitVec.toNat_append, ← Nat.shiftLeft_add_eq_or_of_lt y.isLt, Nat.shiftLeft_eq]

/-- `STATUS` as a number: each field of R26 at its weight. -/
theorem State.statusWord_toNat (s : State) : s.statusWord.toNat =
    256 * s.stopc.code.toNat + 64 * s.uterm.toNat + 32 * s.fend.toNat + 16 * s.bend.toNat + 8 * s.hzd.toNat +
      4 * s.done.toNat + s.mode.code.toNat := by
  simp only [State.statusWord, append_toNat, BitVec.toNat_ofBool, BitVec.toNat_ofNat]
  omega

theorem Mode.code_toNat (m : Mode) : m.code.toNat = match m with | .idle => 0 | .busy => 1 | .error => 2 := by
  cases m <;> rfl

theorem StopCause.code_toNat (c : StopCause) :
    c.code.toNat = match c with | .none => 0 | .terminator => 1 | .length => 2 | .blocks => 3 := by
  cases c <;> rfl

/-- Settles O49: the flags by the bits of the concatenation, `STATE` and `STOPC` by its number. -/
theorem statusWordHoldsTheFlags : Obligations.StatusWordHoldsTheFlags := by
  intro s
  have hmode := s.mode.code.isLt
  have huterm := s.uterm.toNat_le
  have hfend := s.fend.toNat_le
  have hbend := s.bend.toNat_le
  have hhzd := s.hzd.toNat_le
  have hdone := s.done.toNat_le
  refine ⟨?state, ?done, ?hzd, ?bend, ?fend, ?uterm, ?zero, ?stopc⟩
  case state =>
    refine Eq.trans ?_ s.mode.code_toNat
    rw [s.statusWord_toNat]; omega
  case stopc =>
    refine Eq.trans ?_ s.stopc.code_toNat
    rw [s.statusWord_toNat]; omega
  case' bend => change _ = s.bend
  case' fend => change _ = s.fend
  all_goals
    simp only [State.statusWord, BitVec.getLsbD_append]
    simp

/-! ### Reads and writes of `REG` -/

/-- The reserved offsets read 0 (R24). -/
theorem State.regAt_reserved (s : State) {i : Nat} (h : 0x16 ≤ i) : s.regAt i = 0 := by
  unfold State.regAt
  split
  case h_22 => rfl
  all_goals omega

theorem setWidth_ofBool (b : Bool) : (BitVec.ofBool b).setWidth 32 = if b then (1 : Word) else 0 := by
  cases b <;> rfl

/-- Settles O50: the read returns `regAt`, whose value at each offset is one arm of its definition. -/
theorem registerReadsReturnTheirValues : Obligations.RegisterReadsReturnTheirValues := by
  intro s i rest m hi
  refine ⟨s.regAt i, perform_read (s := { s with agenda := rest }) m hi, ?cmd, ?status, ?err, ?info0, ?info1, ?cfg, ?width, ?height, ?msglen, ?explen, ?bidx,
    ?nblk, ?bit, ?fpos, ?lbits, ?uacc, ?ucnt, ?ubits, ?uout, ?outlen, ?geom, ?carrier, s.regAt_reserved⟩ <;> rintro rfl
  case err => exact BitVec.toNat_setWidth_of_le (by decide)
  case cfg => exact setWidth_ofBool _
  case width => exact BitVec.toNat_setWidth_of_le (by decide)
  case height => exact BitVec.toNat_setWidth_of_le (by decide)
  case msglen => exact BitVec.toNat_setWidth_of_le (by decide)
  case nblk => exact Nat.mod_eq_of_lt (lt_of_le_of_lt s.nblk_le (by decide))
  case bit => exact setWidth_ofBool _
  case lbits => exact Nat.mod_eq_of_lt (lt_of_le_of_lt s.lbits_le (by decide))
  case uacc => exact BitVec.toNat_setWidth_of_le (by decide)
  case ucnt => exact BitVec.toNat_setWidth_of_le (by decide)
  case carrier => exact Nat.mod_eq_of_lt (by omega)
  all_goals rfl

/-- Settles O51: each of the seven writable offsets is one arm of `storeReg`. -/
theorem registerWritesStoreTheirFields : Obligations.RegisterWritesStoreTheirFields := by
  intro s i w rest m h0
  refine ⟨_, perform_writeReg (s := { s with agenda := rest }) m w h0, ?_, ?_, ?_, ?_, ?_, ?_, ?_, State.storeReg_ignored _ w⟩ <;> rintro rfl <;> rfl

/-! ### The windows of `SREG` -/

theorem State.sregAt_reserved (s : State) {i : Nat} (h : 0 < i) (k : i < 64) : s.sregAt i = s.num.zero := by
  simp only [State.sregAt, if_neg (show i ≠ 0 by omega), if_neg (show ¬(64 ≤ i ∧ i < 128) by omega),
    if_neg (show ¬(128 ≤ i ∧ i < 192) by omega)]

theorem State.storeSreg_reserved (s : State) {i : Nat} (v : Sample) (h : 0 < i) (k : i < 64) : s.storeSreg i v = s := by
  simp only [State.storeSreg, if_neg (show i ≠ 0 by omega), if_neg (show ¬(64 ≤ i ∧ i < 128) by omega),
    if_neg (show ¬(128 ≤ i ∧ i < 192) by omega)]

/-- A write of cell `64 + 8*r + c` of `SREG` sets `BLK[r][c]` (R31). -/
theorem State.storeSreg_blk (s : State) (r c : Fin 8) (v : Sample) :
    s.storeSreg (64 + 8 * r.val + c.val) v = { s with blk := s.blk.put r c v } := by
  rw [State.storeSreg, if_neg (by omega), if_pos (by omega),
    show 64 + 8 * r.val + c.val - 64 = 8 * r.val + c.val by omega, Mat8.set_window]

/-- A write of cell `128 + 8*r + c` of `SREG` sets `COEF[r][c]` (R32). -/
theorem State.storeSreg_coef (s : State) (r c : Fin 8) (v : Sample) :
    s.storeSreg (128 + 8 * r.val + c.val) v = { s with coef := s.coef.put r c v } := by
  rw [State.storeSreg, if_neg (by omega), if_neg (by omega), if_pos (by omega),
    show 128 + 8 * r.val + c.val - 128 = 8 * r.val + c.val by omega, Mat8.set_window]

/-- Settles O52: each window by what `sregAt` and `storeSreg` do in it. -/
theorem sregWindowsReachAlphaBlkCoef : Obligations.SregWindowsReachAlphaBlkCoef := by
  intro s v rest r c i m at' got
  let u : State := { s with agenda := rest }
  have read : ∀ {k : Nat} {x : Sample}, k < 192 → s.sregAt k = x → at' (.read .sreg k) = got x :=
    fun hk hx => hx ▸ perform_read (s := u) (sp := .sreg) m hk
  have write : ∀ {k : Nat} {t : State}, k < 192 → u.storeSreg k v = t → at' (.writeSreg k v) = .next t :=
    fun hk ht => ht ▸ perform_writeSreg (s := u) m v hk
  exact ⟨read (by omega) rfl, read (by omega) (s.sregAt_blk r c), read (by omega) (s.sregAt_coef r c),
    write (by omega) rfl, write (by omega) (u.storeSreg_blk r c v), write (by omega) (u.storeSreg_coef r c v),
    fun h k => ⟨read (by omega) (s.sregAt_reserved h k), write (by omega) (u.storeSreg_reserved v h k)⟩⟩

/-! ### The memories -/

/-- Settles O53: reads and writes inside a memory reach `imgAt`, `msginAt` and `msgoutAt`. -/
theorem hostReachesTheMemoryCells : Obligations.HostReachesTheMemoryCells := by
  intro s i v b rest m
  let u : State := { s with agenda := rest }
  refine ⟨fun hi => ⟨?_, _, perform_writeImg (s := u) m v hi, fun a => s.imgAt_setImg i a v⟩,
    fun hi => ⟨?_, _, perform_writeMsgin (s := u) m b hi, fun a => s.msginAt_setMsgin i a b⟩,
    fun hi => ⟨?_, _, perform_writeMsgout (s := u) m b hi, fun a => s.msgoutAt_setMsgout i a b⟩⟩
  · exact perform_read (s := u) (sp := .img) m hi
  · exact perform_read (s := u) (sp := .msgin) m hi
  · exact perform_read (s := u) (sp := .msgout) m hi

/-! ### The hazard flag -/

/-- A host access breaks R198 where the engine is `BUSY` and the cell exists. -/
theorem owned_eq_false {s : State} {sp : Space} {i : Nat} (m : s.mode = .busy) (h : i < sp.size s.inst) :
    (s.mode != .busy || decide (sp.size s.inst ≤ i)) = false := by
  simp [m, h]

theorem State.hostWrite_hzd {s : State} {store : State → State} (hstore : (store s).hzd = s.hzd) (sp : Space) (i : Nat) :
    (s.hostWrite sp i store).hzd = s.hzd ∨
    ((s.hostWrite sp i store).hzd = true ∧ (s.mode != .busy || decide (sp.size s.inst ≤ i)) = false) := by
  obtain ⟨m, hi, e⟩ | ⟨-, -, e⟩ | ⟨-, e⟩ := s.hostWrite_cases sp i store <;> rw [e]
  · exact .inr ⟨rfl, owned_eq_false m hi⟩
  · exact .inl hstore
  · exact .inl rfl

theorem State.hostRead_hzd (s : State) (sp : Space) (i : Nat) : (s.hostRead sp i).hzd = s.hzd ∨
    ((s.hostRead sp i).hzd = true ∧ (Event.read sp i).respects s = false) := by
  obtain ⟨m, hi, hn, e⟩ | ⟨-, -, e⟩ | ⟨-, e⟩ := s.hostRead_cases sp i <;> rw [e]
  · exact .inr ⟨rfl, by simp [Event.respects, m, hi, ← not_and, hn]⟩
  · exact .inl rfl
  · exact .inl rfl

@[simp] theorem State.storeReg_hzd (s : State) (i : Nat) (w : Word) : (s.storeReg i w).hzd = s.hzd := by
  obtain ⟨_, _, _, _, _, _, _, e⟩ := s.storeReg_eq i w
  rw [e]

@[simp] theorem State.storeSreg_hzd (s : State) (i : Nat) (v : Sample) : (s.storeSreg i v).hzd = s.hzd := by
  obtain ⟨_, _, _, e⟩ := s.storeSreg_eq i v
  rw [e]

@[simp] theorem State.resetPin_hzd (s : State) : s.resetPin.hzd = false := by
  unfold State.resetPin; split <;> rfl

theorem CmdResult.finish_hzd {r : CmdResult} {t : State} (h : r.finish = .next t) : t.hzd = r.state.hzd := by
  cases r <;> (cases h; rfl)

theorem completePending_hzd {s t : State} (h : completePending s = .next t) : t.hzd = s.hzd := by
  cases hp : s.pending with
  | none => rw [completePending_of_none hp] at h; cases h
  | some i =>
    obtain ⟨r, hr, hgood⟩ := exec_deferred i s (State.deferred_of_pending hp)
    rw [completePending_of_some hp, hr] at h
    exact (CmdResult.finish_hzd h).trans hgood.settings.hzd

theorem commandWrite_hzd {w : Word} {s t : State} (h : commandWrite w s = .next t) :
    t.hzd = s.hzd ∨ (t.hzd = true ∧ s.mode = .busy) ∨ (t.hzd = false ∧ w = encode .sreset) := by
  obtain ⟨m, k⟩ | ⟨-, i, hw, hi, k⟩ | ⟨-, i, -, -, k⟩ | ⟨-, -, k⟩ | ⟨-, -, k⟩ := commandWrite_cases w s <;> rw [k] at h
  · cases h; exact .inr (.inl ⟨rfl, m⟩)
  · obtain rfl | rfl | rfl := nop_or_clrerr_or_sreset_of_immediate hi
    · cases h; exact .inl rfl
    · cases h; exact .inl rfl
    · cases h; exact .inr (.inr ⟨rfl, eq_encode_of_decodeWord hw⟩)
  · cases h; exact .inl rfl
  · cases h; exact .inl rfl
  · cases h; exact .inl rfl

/-- Which events write `HZD`: one that breaks R198 sets it, `SRESET` and the reset pin clear it. -/
theorem perform_hzd {e : Event} {s t : State} (h : perform e s = .next t) :
    t.hzd = s.hzd ∨ (t.hzd = true ∧ e.respects s = false) ∨
    (t.hzd = false ∧ (e = .resetPin ∨ e = .writeReg 0x00 (encode .sreset))) := by
  cases e with
  | read sp i => cases h; exact (s.hostRead_hzd sp i).imp_right .inl
  | writeReg i w =>
    by_cases hi : i = 0x00
    · subst hi
      obtain keep | ⟨flagged, m⟩ | ⟨cleared, rfl⟩ := commandWrite_hzd h
      · exact .inl keep
      · exact .inr (.inl ⟨flagged, owned_eq_false (sp := .reg) m (by simp [Space.size])⟩)
      · exact .inr (.inr ⟨cleared, .inr rfl⟩)
    · simp only [perform, hi, if_false] at h
      cases h
      exact (State.hostWrite_hzd (s.storeReg_hzd i w) .reg i).imp_right .inl
  | writeSreg i v => cases h; exact (State.hostWrite_hzd (s.storeSreg_hzd i v) .sreg i).imp_right .inl
  | writeImg i v => cases h; exact (State.hostWrite_hzd (s.setImg_hzd i v) .img i).imp_right .inl
  | writeMsgin i b => cases h; exact (State.hostWrite_hzd (s.setMsgin_hzd i b) .msgin i).imp_right .inl
  | writeMsgout i b => cases h; exact (State.hostWrite_hzd (s.setMsgout_hzd i b) .msgout i).imp_right .inl
  | engine =>
    by_cases hb : s.mode = .busy
    · simp only [perform, hb, if_true] at h; exact .inl (completePending_hzd h)
    · simp only [perform, hb, if_false] at h; cases h; exact .inl rfl
  | resetPin => cases h; exact .inr (.inr ⟨s.resetPin_hzd, .inl rfl⟩)

/-- Settles O56: by which events write `HZD`. -/
theorem hazardFlagRecordsViolations : Obligations.HazardFlagRecordsViolations := by
  intro s t e rest h
  have hzd := perform_hzd (s := { s with agenda := rest }) h
  have hrespects : e.respects { s with agenda := rest } = e.respects s := rfl
  rw [hrespects] at hzd
  obtain keep | ⟨flagged, broken⟩ | ⟨cleared, reset⟩ := hzd
  · exact ⟨fun k => .inl (keep ▸ k), fun k => .inl (keep.trans k)⟩
  · exact ⟨fun _ => .inr broken, fun _ => .inl flagged⟩
  · exact ⟨fun k => absurd (cleared.symm.trans k) (by decide), fun _ => .inr reset⟩

end Sys2Proof.Machine
end

section
/-! SUPPORT. The table of R21 as data (10_state.md): the registers and memories, and the commands that it lists as writing
each. A command leaves alone every register in which it is not listed. -/

namespace Sys2Proof.Machine

/-- The registers and memories of the columns of R21. -/
inductive Column where
  | blk | coef | bit
  | alpha | width | height | msglen | expen | explen | hzd
  | bidx | fpos
  | uacc | ucnt | ubits | uout | uterm
  | outlen | stopc
  | img | msgin | msgout

/-- The commands that R21 lists as writing a register. -/
def Column.writers : Column → List Instr
  | .blk => [.sreset, .idct, .ldblk, .encode, .decode]
  | .coef => [.sreset, .fdct, .embed, .encode, .decode]
  | .bit => [.sreset, .extract, .frmget, .encode, .decode]
  | .alpha | .width | .height | .msglen | .expen | .explen | .hzd => [.sreset]
  | .bidx => [.sreset, .blkrst, .blknext, .encode, .decode]
  | .fpos => [.sreset, .frmrst, .frmget, .encode]
  | .uacc | .ucnt | .ubits | .uout | .uterm => [.sreset, .unfrst, .unfput, .decode]
  | .outlen | .stopc => [.sreset, .decode]
  | .img => [.stblk, .encode]
  | .msgin => []
  | .msgout => [.unfput, .decode]

/-- `t` holds what `s` holds in a register. -/
def Column.Same (s t : State) : Column → Prop
  | .blk => t.blk = s.blk
  | .coef => t.coef = s.coef
  | .bit => t.bit = s.bit
  | .alpha => t.alpha = s.alpha
  | .width => t.width = s.width
  | .height => t.height = s.height
  | .msglen => t.msglen = s.msglen
  | .expen => t.expen = s.expen
  | .explen => t.explen = s.explen
  | .hzd => t.hzd = s.hzd
  | .bidx => t.bidx = s.bidx
  | .fpos => t.fpos = s.fpos
  | .uacc => t.uacc = s.uacc
  | .ucnt => t.ucnt = s.ucnt
  | .ubits => t.ubits = s.ubits
  | .uout => t.uout = s.uout
  | .uterm => t.uterm = s.uterm
  | .outlen => t.outlen = s.outlen
  | .stopc => t.stopc = s.stopc
  | .img => t.img = s.img
  | .msgin => t.msgin = s.msgin
  | .msgout => t.msgout = s.msgout

theorem Column.Same.refl (s : State) (c : Column) : c.Same s s := by cases c <;> rfl

/-- How a rule ends writes no column of the table (R175, R176). -/
theorem Column.Same.finish {s t : State} {r : CmdResult} {c : Column} (h : c.Same s r.state) (hfin : r.finish = .next t) :
    c.Same s t := by
  cases r <;> cases hfin <;> cases c <;> exact h

/-- The columns that no deferred command writes are settings. -/
theorem State.SameSettings.column {s t : State} (h : s.SameSettings t) {c : Column} (hc : ∀ i ∈ c.writers, i = .sreset) :
    c.Same s t := by
  cases c with
  | alpha => exact h.alpha
  | width => exact h.width
  | height => exact h.height
  | msglen => exact h.msglen
  | expen => exact h.expen
  | explen => exact h.explen
  | hzd => exact h.hzd
  | msgin => exact h.msgin
  | _ => exact absurd hc (by decide)

/-! ### The rules with branches or loops -/

theorem Column.Same.withBlock {s : State} {body : State → State} {c : Column} (h : c.Same s (body s)) :
    c.Same s (s.withBlock body).state := by
  unfold State.withBlock
  split
  · exact .refl s c
  split
  · exact .refl s c
  · exact h

theorem State.unframe_column (s : State) {c : Column} (hc : .unfput ∉ c.writers) : c.Same s s.unframe.state := by
  obtain ⟨stopc, outlen, bidx, bit, fpos, blk, coef, img⟩ := s.unframe_frame
  cases c with
  | uacc | ucnt | ubits | uout | uterm | msgout => exact absurd hc (by decide)
  | blk => exact blk
  | coef => exact coef
  | bit => exact bit
  | bidx => exact bidx
  | fpos => exact fpos
  | outlen => exact outlen
  | stopc => exact stopc
  | img => exact img
  | _ => exact s.good_unframe.settings.column (by decide)

theorem State.encodeRule_frame (s : State) : s.encodeRule.state = s ∨
    s.encodeRule.state = State.encodeBlocks s.lbits ((s.setBidx 0).setFpos 0) := by
  unfold State.encodeRule
  repeat' split
  all_goals simp [CmdResult.state]

theorem State.encodeRule_column (s : State) {c : Column} (hc : .encode ∉ c.writers) : c.Same s s.encodeRule.state := by
  obtain e | e := s.encodeRule_frame
  · rw [e]; exact .refl s c
  obtain ⟨uterm, stopc, outlen, uacc, ucnt, ubits, uout, msgout⟩ :=
    State.encodeBlocks_frame s.lbits ((s.setBidx 0).setFpos 0)
  cases c with
  | blk | coef | bit | bidx | fpos | img => exact absurd hc (by decide)
  | uterm => rw [e]; exact uterm
  | stopc => rw [e]; exact stopc
  | outlen => rw [e]; exact outlen
  | uacc => rw [e]; exact uacc
  | ucnt => rw [e]; exact ucnt
  | ubits => rw [e]; exact ubits
  | uout => rw [e]; exact uout
  | msgout => rw [e]; exact msgout
  | _ => exact s.good_encodeRule.settings.column (by decide)

/-- `DECODE` leaves the framer and the image alone (R150). -/
theorem State.decodeRule_frame (s : State) : s.decodeRule.state.fpos = s.fpos ∧ s.decodeRule.state.img = s.img := by
  unfold State.decodeRule
  split
  · exact ⟨rfl, rfl⟩
  · exact State.decodeBlocks_frame _ _

theorem State.decodeRule_column (s : State) {c : Column} (hc : .decode ∉ c.writers) : c.Same s s.decodeRule.state := by
  cases c with
  | fpos => exact s.decodeRule_frame.1
  | img => exact s.decodeRule_frame.2
  | alpha | width | height | msglen | expen | explen | hzd | msgin => exact s.good_decodeRule.settings.column (by decide)
  | _ => exact absurd hc (by decide)

/-! ### Every command -/

/-- The rule of a deferred command writes no column in which the command is not listed. -/
theorem exec_deferred_column {i : Instr} (s : State) (hi : i.immediate = false) {c : Column} (hc : i ∉ c.writers) :
    ∃ r : CmdResult, exec i s = r.finish ∧ c.Same s r.state := by
  cases i with
  | nop | clrerr | sreset => cases hi
  | fdct =>
    refine ⟨.done s.forward, rfl, ?_⟩
    cases c with
    | coef => exact absurd hc (by decide)
    | _ => rfl
  | idct =>
    refine ⟨.done s.inverse, rfl, ?_⟩
    cases c with
    | blk => exact absurd hc (by decide)
    | _ => rfl
  | embed =>
    refine ⟨_, rfl, ?_⟩
    split
    · exact .refl s c
    cases c with
    | coef => exact absurd hc (by decide)
    | _ => rfl
  | extract =>
    refine ⟨.done s.extractBit, rfl, ?_⟩
    cases c with
    | bit => exact absurd hc (by decide)
    | _ => rfl
  | blkrst =>
    refine ⟨.done (s.setBidx 0), rfl, ?_⟩
    cases c with
    | bidx => exact absurd hc (by decide)
    | _ => rfl
  | blknext =>
    refine ⟨.done (if s.bidx.toNat < s.nblk then s.setBidx (s.bidx + 1) else s), rfl, ?_⟩
    split
    · cases c with
      | bidx => exact absurd hc (by decide)
      | _ => rfl
    · exact .refl s c
  | ldblk =>
    refine ⟨_, rfl, .withBlock ?_⟩
    cases c with
    | blk => exact absurd hc (by decide)
    | _ => rfl
  | stblk =>
    refine ⟨_, rfl, .withBlock ?_⟩
    cases c with
    | img => exact absurd hc (by decide)
    | _ => rfl
  | frmrst =>
    refine ⟨.done (s.setFpos 0), rfl, ?_⟩
    cases c with
    | fpos => exact absurd hc (by decide)
    | _ => rfl
  | frmget =>
    refine ⟨_, rfl, ?_⟩
    split
    · exact .refl s c
    split
    · exact .refl s c
    cases c with
    | bit | fpos => exact absurd hc (by decide)
    | _ => rfl
  | unfrst =>
    refine ⟨.done s.restartUnframer, rfl, ?_⟩
    cases c with
    | uacc | ucnt | ubits | uout | uterm => exact absurd hc (by decide)
    | _ => rfl
  | unfput => exact ⟨_, rfl, s.unframe_column hc⟩
  | encode => exact ⟨_, rfl, s.encodeRule_column hc⟩
  | decode => exact ⟨_, rfl, s.decodeRule_column hc⟩

/-- R21: a command leaves alone every column in which it is not listed. -/
theorem exec_column {i : Instr} {s t : State} (h : exec i s = .next t) (c : Column) (hc : i ∉ c.writers) : c.Same s t := by
  cases hi : i.immediate with
  | true =>
    obtain rfl | rfl | rfl := nop_or_clrerr_or_sreset_of_immediate hi <;> cases h
    · exact .refl s c
    · cases c <;> rfl
    · cases c with
      | img | msgin | msgout => rfl
      | _ => exact absurd hc (by decide)
  | false =>
    obtain ⟨r, hr, hsame⟩ := exec_deferred_column s hi hc
    exact hsame.finish (hr ▸ h)

/-- Settles O46: column by column. -/
theorem commandsWriteOnlyTheirColumns : Obligations.CommandsWriteOnlyTheirColumns := by
  intro i s t h
  have col := exec_column h
  exact ⟨col .blk, col .coef, col .bit,
    fun hi => ⟨col .alpha hi, col .width hi, col .height hi, col .msglen hi, col .expen hi, col .explen hi, col .hzd hi⟩,
    col .bidx, col .fpos,
    fun hi => ⟨col .uacc hi, col .ucnt hi, col .ubits hi, col .uout hi, col .uterm hi⟩,
    fun hi => ⟨col .outlen hi, col .stopc hi⟩,
    col .img, col .msgin (by simp [Column.writers]), col .msgout⟩

end Sys2Proof.Machine
end
section
/-! SUPPORT. The values after reset (10_state.md R50) and the ranges of the derived quantities (R43). -/

namespace Sys2Proof.Machine

theorem Mat8.at_replicate {α : Type} (x : α) (r c : Fin 8) : Mat8.at (Vector.replicate 64 x) r c = x :=
  Vector.getElem_replicate _

/-- The zero that reset writes reads as the number 0 whatever the numerics, and is no negative zero. -/
theorem reading_zero (p : Inst) : p.reading.NUM.real (p.reading.value p.numerics.zero) = some 0 ∧
    p.reading.NUM.negZero (p.reading.value p.numerics.zero) = false := by
  rw [p.computes.zero]
  exact ⟨p.lawful.zero_is_zero, p.lawful.zero_positive⟩

/-- No value of `S` is nearer to one tenth than `ALPHA_RESET`. -/
theorem reading_alphaReset (p : Inst) : ∃ x, p.reading.NUM.real (p.reading.value p.numerics.alphaReset) = some x ∧
    ∀ v y, p.reading.NUM.real v = some y → |x - 1 / 10| ≤ |y - 1 / 10| := by
  rw [p.computes.alphaReset]
  exact p.lawful.alphaReset_nearest

/-- Settles O57: the registers by unfolding reset, the samples by what the spec requires of all numerics. -/
theorem resetLeavesTheStatedValues : Obligations.ResetLeavesTheStatedValues := by
  intro p s
  have hblk : ∀ r c, s.blk.at r c = p.numerics.zero := Mat8.at_replicate _
  have hcoef : ∀ r c, s.coef.at r c = p.numerics.zero := Mat8.at_replicate _
  have hnblk : s.nblk = 0 := by simp [s, State.nblk, State.bw, State.bh, State.ofInst]
  have hlbits : s.lbits = 8 := rfl
  have hstatus : s.statusWord = 0x00000010#32 := by
    have hbend : s.bend = true := by simp [State.bend, hnblk]
    have hfend : s.fend = false := by simp [State.fend, hlbits, show s.fpos = 0 from rfl]
    apply BitVec.eq_of_toNat_eq
    rw [s.statusWord_toNat, hbend, hfend]
    rfl
  refine ⟨rfl, rfl, rfl, rfl, rfl, hstatus, rfl, rfl, rfl, rfl, rfl, rfl, rfl, rfl, rfl, rfl, rfl, rfl, rfl, rfl, rfl, rfl, hnblk,
    hlbits, rfl, rfl, fun r c => ⟨hblk r c, hcoef r c⟩, (reading_zero p).1, (reading_zero p).2, reading_alphaReset p, ?_⟩
  intro hp
  have hnum := Inst.numerics_reference hp
  refine ⟨?_, fun r c => ⟨?_, ?_⟩⟩
  · rw [show s.alpha = p.numerics.alphaReset from rfl, hnum]; exact alphaReset_real
  · rw [hblk, hnum]; exact Sample.real_zero
  · rw [hcoef, hnum]; exact Sample.real_zero

/-- Settles O60: by the ranges of the registers from which the quantities are derived (R43). -/
theorem derivedQuantitiesFitTheirRegisters : Obligations.DerivedQuantitiesFitTheirRegisters := by
  intro s
  have hlow : 8 ≤ s.lbits := by simp only [State.lbits]; omega
  exact ⟨s.bw_le, s.bh_le, rfl, s.nblk_le, rfl, hlow, s.lbits_le⟩

end Sys2Proof.Machine
end

section
/-! SUPPORT. How the engine runs a command that the host presents (20_memory.md R70 to R72, 30_encoding.md R88, R92): the
`CMD` write accepts it, the engine's turn is its rule, a read of `STATUS` shows what it left. -/

namespace Sys2Proof.Machine

/-- The word of a command decodes to that command (R86). -/
theorem decodeWord_encode (i : Instr) : decodeWord (encode i) = .ok i := by
  cases i <;> rfl

/-! ### The engine's turn -/

/-- `PEND` with the opcode of a deferred command holds that command. -/
theorem State.pending_of_pend {s : State} {i : Instr} (h : s.pend = some (opField (encode i))) (hi : i.immediate = false) :
    s.pending = some i := by
  have hop := (decodeWord_ok_iff.mp (decodeWord_encode i)).2
  simp only [State.pending, h, hop, hi]
  rfl

/-- The engine's turn is the rule of the command that is running (R70). -/
theorem perform_engine {s : State} {i : Instr} (m : s.mode = .busy) (h : s.pending = some i) :
    perform .engine s = exec i s := by
  rw [perform, if_pos m, completePending_of_some h]

/-- Settles O4: either step is the engine's turn, and `PEND` holds `i`. -/
theorem stepRunsThePendingCommand : Obligations.StepRunsThePendingCommand := by
  intro s i rest _ hi m hpend
  have turn (g : List Event) : perform .engine { s with agenda := g } = exec i { s with agenda := g } :=
    perform_engine m (State.pending_of_pend hpend hi)
  exact ⟨(step_eq_perform _).trans (turn rest), (step_eq_perform _).trans (turn [])⟩

/-! ### A command from its `CMD` write to its end -/

/-- An idle engine accepts a deferred command (R88). -/
theorem commandWrite_accepts {s : State} {w : Word} {i : Instr} (m : s.mode = .idle) (hw : decodeWord w = .ok i)
    (hi : i.immediate = false) : commandWrite w s = .next (s.accept (opField w)) := by
  simp [commandWrite, m, hw, hi]

/-- A deferred command takes nothing off the agenda. -/
theorem exec_deferred_agenda {i : Instr} {s t : State} (hi : i.immediate = false) (h : exec i s = .next t) :
    t.agenda = s.agenda := by
  have hrun := exec_withRun s.mode s.done s.pend s.agenda i hi s
  have hsame : s.withRun s.mode s.done s.pend s.agenda = s := rfl
  rw [hsame, h, withAgenda] at hrun
  have hagenda := congrArg State.agenda (Host.Outcome.next.inj hrun)
  exact hagenda

/-- The engine's turn after acceptance has the effect that the command's rule has on the state before it (R71). -/
theorem exec_accept {i : Instr} {s t : State} (hi : i.immediate = false) (op : BitVec 8) (h : exec i s = .next t)
    (g : List Event) : exec i ({ s with agenda := g }.accept op) = .next { t with agenda := g } := by
  have hrun := exec_withRun .busy false (some op) g i hi s
  rw [h] at hrun
  exact hrun

/-- A run goes on from where its first step led. -/
theorem run_succ_of_step {s t : State} (h : step s = .next t) (k : Nat) : core.run (k + 1) s = core.run k t := by
  have hcore : Host.Core.step core s = .next t := h
  simp only [Host.Core.run, hcore]

/-- Settles O6: the `CMD` write, the engine's turn and the read of `STATUS`, one step each. -/
theorem runningACommandHasTheEffectOfItsRule : Obligations.RunningACommandHasTheEffectOfItsRule := by
  intro s i rest t hi m hexec
  have hw := decodeWord_encode i
  let poll : List Event := .read .reg 0x01 :: rest
  let accepted (g : List Event) : State := { s with agenda := g }.accept (opField (encode i))
  have accept : step { s with agenda := Script.run 0 i ++ rest } = .next (accepted (.engine :: poll)) :=
    commandWrite_accepts m hw hi
  have complete : step (accepted (.engine :: poll)) = .next { t with agenda := poll } :=
    (perform_engine (s := accepted poll) rfl (State.pending_accept _ hw hi)).trans (exec_accept hi _ hexec poll)
  have hrest : t.agenda = rest := exec_deferred_agenda hi hexec
  have hagenda : { t with agenda := rest } = t := by rw [← hrest]
  have status : step { t with agenda := poll } = .next { t with rdata := some (.word t.statusWord) } := by
    rw [step_eq_perform]
    change perform (.read .reg 0x01) { t with agenda := rest } = _
    rw [hagenda, perform, State.hostRead_status]
    rfl
  exact (run_succ_of_step accept 2).trans ((run_succ_of_step complete 1).trans (run_succ_of_step status 0))

end Sys2Proof.Machine
end

section
/-! SUPPORT. The accesses of the host that reach no cell: those outside a space (20_memory.md R64) and those while the engine
is `BUSY` (R74). -/

namespace Sys2Proof.Machine

open Sys2Proof.Claims

/-- A host write is `hostWrite` at its target, the `CMD` write of an engine that is not `BUSY` apart (R88). -/
theorem perform_eq_hostWrite {e : Event} {s : State} {sp : Space} {i : Nat} (h : writeTarget e = some (sp, i))
    (hcmd : sp = .reg → i = 0x00 → s.mode = .busy) : ∃ store, perform e s = .next (s.hostWrite sp i store) := by
  cases e with
  | writeReg j w =>
    cases h
    by_cases hj : i = 0x00
    · have m := hcmd rfl hj
      refine ⟨id, ?_⟩
      rw [State.hostWrite_busy id (by simp [hj, Space.size]) m]
      simp only [perform, hj, if_true, commandWrite, m]
    · exact ⟨_, if_neg hj⟩
  | writeSreg j v => cases h; exact ⟨_, rfl⟩
  | writeImg j v => cases h; exact ⟨_, rfl⟩
  | writeMsgin j b => cases h; exact ⟨_, rfl⟩
  | writeMsgout j b => cases h; exact ⟨_, rfl⟩
  | read | engine | resetPin => cases h

/-- A host write at or beyond the size of its space changes nothing (R64). -/
theorem perform_write_outside {e : Event} {s : State} {sp : Space} {i : Nat} (h : writeTarget e = some (sp, i))
    (hi : sp.size s.inst ≤ i) : perform e s = .next s := by
  obtain ⟨store, hstore⟩ := perform_eq_hostWrite (s := s) h fun hsp h0 => by simp [hsp, h0, Space.size] at hi
  rw [hstore, State.hostWrite_outside store hi]

/-- A host write to a cell of a `BUSY` engine is dropped and flagged (R74). -/
theorem perform_write_busy {e : Event} {s : State} {sp : Space} {i : Nat} (h : writeTarget e = some (sp, i))
    (hi : i < sp.size s.inst) (m : s.mode = .busy) : perform e s = .next s.hazard := by
  obtain ⟨store, hstore⟩ := perform_eq_hostWrite h fun _ _ => m
  rw [hstore, State.hostWrite_busy store hi m]

/-- An unspecified value has the type of the space's cells (U3, U5). -/
theorem State.isCellOf_freeData (s : State) (sp : Space) : isCellOf sp (s.freeData sp) := by
  cases sp <;> exact trivial

/-- Settles O54: the write stores nothing, and the read returns a free value. -/
theorem accessOutsideASpaceHasNoEffect : Obligations.AccessOutsideASpaceHasNoEffect := by
  intro s e sp i rest hi
  let u : State := { s with agenda := rest }
  refine ⟨fun h => perform_write_outside (s := u) h hi, ?_⟩
  exact ⟨u.freeData sp, u.isCellOf_freeData sp, congrArg _ (State.hostRead_outside (s := u) hi)⟩

/-- Settles O55: `STATUS` is the one cell that is read, any other access raises `HZD`. -/
theorem busyAccessesAreDroppedAndFlagged : Obligations.BusyAccessesAreDroppedAndFlagged := by
  intro s e sp i rest m hi
  let u : State := { s with agenda := rest }
  refine ⟨congrArg _ u.hostRead_status, fun h => perform_write_busy (s := u) h hi m, fun n => ?_⟩
  exact ⟨u.hazard.freeData sp, u.hazard.isCellOf_freeData sp, congrArg _ (State.hostRead_busy (s := u) hi m n)⟩

end Sys2Proof.Machine
end

section
/-! SUPPORT. Which words are commands (30_encoding.md R85, R86, R89): exactly the words of the 17 commands, told apart by a
word's upper 24 and lower 8 bits. -/

namespace Sys2Proof

open Machine

/-! ### Decoding against encoding -/

/-- R87: no command has a field that could be ill formed. -/
theorem Instr.wellFormed_eq_true (i : Instr) : i.wellFormed = true := by
  cases i <;> rfl

/-- A word decodes to a command exactly when it is the word of that command. -/
theorem decodeWord_eq_ok_iff {w : Word} {i : Instr} : decodeWord w = .ok i ↔ w = encode i :=
  ⟨eq_encode_of_decodeWord, fun h => h ▸ decodeWord_encode i⟩

/-- Settles O1: each word is that of its command, which decodes to it. -/
theorem opcodeTableWordsDecode : Obligations.OpcodeTableWordsDecode :=
  have row := decodeWord_encode
  ⟨row .nop, row .clrerr, row .sreset, row .fdct, row .idct, row .embed, row .extract, row .blkrst, row .blknext,
    row .ldblk, row .stblk, row .frmrst, row .frmget, row .unfrst, row .unfput, row .encode, row .decode⟩

/-- Settles O2: the opcode found in the table fixes the word, and every command is well formed. -/
theorem decodeAndEncodeAreInverse : Obligations.DecodeAndEncodeAreInverse := by
  intro w i
  rw [decodeWord_eq_ok_iff, and_iff_right (Instr.wellFormed_eq_true i)]

/-! ### The legal words as numbers -/

theorem opField_toNat (w : Word) : (opField w).toNat = w.toNat % 256 := by
  simp [opField]

theorem opField_eq_setWidth (w : Word) : opField w = w.setWidth 8 :=
  BitVec.eq_of_toNat_eq (by rw [opField_toNat, BitVec.toNat_setWidth])

theorem rsvField_eq_zero_iff (w : Word) : rsvField w = 0#24 ↔ w.toNat / 256 = 0 := by
  have htoNat : (rsvField w).toNat = w.toNat / 256 := by
    simp only [rsvField, BitVec.extractLsb'_toNat, Nat.shiftRight_eq_div_pow]
    omega
  rw [← BitVec.toNat_inj, htoNat, BitVec.toNat_ofNat, Nat.zero_mod]

/-- No opcode stands in two rows of R86. -/
theorem decodeOpcode_of_mem : ∀ row ∈ opcodeTable, decodeOpcode row.1 = some row.2 := by
  decide

theorem exists_decodeOpcode_iff (op : BitVec 8) :
    (∃ i, decodeOpcode op = some i) ↔ op.toNat ∈ opcodeTable.map (·.1.toNat) := by
  constructor
  · rintro ⟨i, h⟩
    exact List.mem_map.mpr ⟨(op, i), decodeOpcode_eq_some h, rfl⟩
  · intro h
    obtain ⟨row, hrow, hop⟩ := List.mem_map.mp h
    exact ⟨row.2, BitVec.eq_of_toNat_eq hop ▸ decodeOpcode_of_mem row hrow⟩

/-- R89: a word is a command exactly when its upper 24 bits are 0 and its lower 8 bits are in the `op` column of R86. -/
theorem exists_decodeWord_iff (w : Word) :
    (∃ i, decodeWord w = .ok i) ↔ w.toNat / 256 = 0 ∧ w.toNat % 256 ∈ opcodeTable.map (·.1.toNat) := by
  simp only [decodeWord_ok_iff, exists_and_left, rsvField_eq_zero_iff, exists_decodeOpcode_iff, opField_toNat]

end Sys2Proof
end

section
/-! SUPPORT. The `CMD` write (30_encoding.md R88, R89): the rows of the acceptance table by the word that is written. -/

namespace Sys2Proof.Machine

/-- The step whose next event is a `CMD` write. -/
theorem step_commandWrite (s : State) (w : Word) (rest : List Event) :
    step { s with agenda := .writeReg 0x00 w :: rest } = commandWrite w { s with agenda := rest } :=
  step_eq_perform _

theorem commandWrite_busy {s : State} (w : Word) (m : s.mode = .busy) : commandWrite w s = .next s.hazard := by
  simp only [commandWrite, m]

/-- Out of `BUSY`, an immediate command runs in its `CMD` write. -/
theorem commandWrite_immediate {s : State} {w : Word} {i : Instr} (m : s.mode ≠ .busy) (hw : decodeWord w = .ok i)
    (hi : i.immediate = true) : commandWrite w s = exec i s := by
  cases hm : s.mode with
  | busy => exact absurd hm m
  | idle | error => simp only [commandWrite, hm, hw, hi, if_true]

/-- The error entry of R175 at an illegal word. -/
theorem State.rejectWord_eq (s : State) (w : Word) : s.rejectWord w =
    { s with done := false, err := 4, errinfo0 := w, errinfo1 := 0, mode := .error, pend := none } := by
  simp [State.rejectWord, State.enterError, ErrorKind.code]

/-- R89: an idle engine enters the error state at once where the word is no command. -/
theorem commandWrite_rejects {s : State} {w : Word} (m : s.mode = .idle) (hw : ¬∃ i, decodeWord w = .ok i) :
    commandWrite w s =
      .next { s with done := false, err := 4, errinfo0 := w, errinfo1 := 0, mode := .error, pend := none } := by
  cases h : decodeWord w with
  | ok i => exact absurd ⟨i, h⟩ hw
  | error e => simp only [commandWrite, m, h, State.rejectWord_eq]

/-- R88: in the error state every word but those of `CLRERR` and `SRESET` changes nothing. -/
theorem commandWrite_sticky {s : State} {w : Word} (m : s.mode = .error) (hclrerr : w ≠ encode .clrerr)
    (hsreset : w ≠ encode .sreset) : commandWrite w s = .next s := by
  obtain ⟨m', -⟩ | ⟨-, i, hw, hi, h⟩ | ⟨m', -⟩ | ⟨m', -⟩ | ⟨-, -, h⟩ := commandWrite_cases w s
  · cases m.symm.trans m'
  · obtain rfl | rfl | rfl := nop_or_clrerr_or_sreset_of_immediate hi
    · exact h
    · exact absurd (eq_encode_of_decodeWord hw) hclrerr
    · exact absurd (eq_encode_of_decodeWord hw) hsreset
  · cases m.symm.trans m'
  · cases m.symm.trans m'
  · exact h

/-- Settles O3: the legal words by their fields, the others by the last row of the acceptance table. -/
theorem illegalWordsRaiseIllegalCommand : Obligations.IllegalWordsRaiseIllegalCommand := by
  intro w
  refine ⟨exists_decodeWord_iff w, fun s rest m hw => ?_⟩
  exact (step_commandWrite s w rest).trans (commandWrite_rejects (s := { s with agenda := rest }) m hw)

/-- Settles O5: `STATE` by `STATE`, a word being a command where it is the word of one. -/
theorem commandWriteFollowsTheAcceptanceTable : Obligations.CommandWriteFollowsTheAcceptanceTable := by
  intro s w rest o t
  have ho : o = commandWrite w t := step_commandWrite s w rest
  rw [ho]
  refine ⟨commandWrite_busy (s := t) w, fun m => ?_, fun m => ?_⟩
  · have notBusy : t.mode ≠ .busy := by simp [t, m]
    refine ⟨?_, ?_, commandWrite_sticky m⟩
    · rintro rfl
      exact commandWrite_immediate notBusy (decodeWord_encode .clrerr) rfl
    · rintro rfl
      exact commandWrite_immediate notBusy (decodeWord_encode .sreset) rfl
  · have notBusy : t.mode ≠ .busy := by simp [t, m]
    refine ⟨fun hw => ?_, fun i hw hi => ?_, fun i hw hi => ?_⟩
    · simp only [← decodeWord_eq_ok_iff] at hw
      exact commandWrite_rejects (s := t) m hw
    · exact commandWrite_immediate notBusy (decodeWord_eq_ok_iff.mpr hw) hi
    · rw [← opField_eq_setWidth]
      exact commandWrite_accepts (s := t) m (decodeWord_eq_ok_iff.mpr hw) hi

end Sys2Proof.Machine
end

section
/-! SUPPORT. The transform commands (40_transform.md): `FDCT` and `IDCT` end normally with a transform of the numerics of
the engine (R102, R104), and in the reference numerics the transforms are those of R101 and R103 with the laws of R105
and R108. The transforms are taken as products with the matrix `T` wherever a law is one of matrices. -/

namespace Sys2Proof

open Sys2Proof.Machine Sys2Proof.Claims Matrix

/-! ### The commands -/

theorem exec_fdct (s : State) : exec .fdct s = .next (completed { s with coef := s.inst.numerics.fdct s.blk }) := rfl

theorem exec_idct (s : State) : exec .idct s = .next (completed { s with blk := s.inst.numerics.idct s.coef }) := rfl

/-- `FDCT` and then `IDCT` complete, with `BLK` transformed forward and back. -/
theorem execAll_fdct_idct (s : State) : execAll [.fdct, .idct] s =
    .next (completed { s with
      coef := s.inst.numerics.fdct s.blk, blk := s.inst.numerics.idct (s.inst.numerics.fdct s.blk) }) := by
  simp only [execAll, exec_fdct, exec_idct, completed]

/-- After `FDCT`, `IDCT` leaves both buffers where the inverse transform of the new `COEF` is `BLK`. -/
theorem exec_idct_of_fdct {s t : State} (h : exec .fdct s = .next t)
    (hinv : s.inst.numerics.idct (s.inst.numerics.fdct s.blk) = s.blk) : exec .idct t = .next (completed t) := by
  rw [exec_fdct] at h
  cases h
  simp only [exec_idct, completed, hinv]

/-- After `IDCT`, `FDCT` leaves both buffers where the forward transform of the new `BLK` is `COEF`. -/
theorem exec_fdct_of_idct {s t : State} (h : exec .idct s = .next t)
    (hinv : s.inst.numerics.fdct (s.inst.numerics.idct s.coef) = s.coef) : exec .fdct t = .next (completed t) := by
  rw [exec_idct] at h
  cases h
  simp only [exec_fdct, completed, hinv]

/-- Settles O15: `FDCT` ends with the forward transform in `COEF`. -/
theorem fdctReplacesTheCoefficients : Obligations.FdctReplacesTheCoefficients := exec_fdct

/-- Settles O16: the rule of `IDCT`, and NP1, which all numerics of an engine satisfy. -/
theorem idctReplacesTheBlock : Obligations.IdctReplacesTheBlock :=
  fun s => ⟨exec_idct s, fun hblk => ⟨_, execAll_fdct_idct s, s.inst.np1 hblk⟩⟩

/-! ### The members of the reference numerics -/

/-- Settles O18: each member of the reference numerics is that of the real numbers. -/
theorem referenceTransformIsTheOrthonormalDct : Obligations.ReferenceTransformIsTheOrthonormalDct :=
  ⟨fun m i j => ⟨fdct_real m i j, idct_real m i j⟩,
    fun v w => ⟨add_real v w, neg_real v, abs_real v, isPos_iff v, isNonneg_iff v⟩⟩

/-! ### Laws of the transform, R105 -/

theorem TIn_real : TIn Scalar.real = TReal := by
  ext k n
  exact T_is_T k n

theorem fdct_under_real (b : Mat8 Sample) :
    (Reference.fdct b).under Sample.real = TReal * b.under Sample.real * TRealᵀ := by
  rw [← TIn_real]
  exact fdct_under Scalar.real_hom Sample.real_zero Sample.real_add Sample.real_scale b

theorem idct_under_real (m : Mat8 Sample) :
    (Reference.idct m).under Sample.real = TRealᵀ * m.under Sample.real * TReal := by
  rw [← TIn_real]
  exact idct_under Scalar.real_hom Sample.real_zero Sample.real_add Sample.real_scale m

theorem sum_T_mul_T (k m : Fin 8) : ∑ n, Numerics.T k n * Numerics.T m n = if k = m then 1 else 0 := by
  simpa [Matrix.mul_apply, Matrix.one_apply, TReal] using congrFun (congrFun TReal_mul_transpose k) m

/-- Multiplication from both sides is linear. -/
theorem mul_mul_linear (A B M₁ M₂ : Matrix (Fin 8) (Fin 8) ℝ) (x y : ℝ) :
    A * (x • M₁ + y • M₂) * B = x • (A * M₁ * B) + y • (A * M₂ * B) := by
  simp only [Matrix.mul_add, Matrix.add_mul, Matrix.mul_smul, Matrix.smul_mul]

theorem transforms_linear {x y : ℝ} {b b₁ b₂ : Mat8 Sample}
    (h : ∀ r c, (b.at r c).real = x * (b₁.at r c).real + y * (b₂.at r c).real) (u v : Fin 8) :
    ((Reference.fdct b).at u v).real = x * ((Reference.fdct b₁).at u v).real + y * ((Reference.fdct b₂).at u v).real ∧
    ((Reference.idct b).at u v).real = x * ((Reference.idct b₁).at u v).real + y * ((Reference.idct b₂).at u v).real := by
  have hb : b.under Sample.real = x • b₁.under Sample.real + y • b₂.under Sample.real := by ext r c; exact h r c
  have hfdct : (Reference.fdct b).under Sample.real =
      x • (Reference.fdct b₁).under Sample.real + y • (Reference.fdct b₂).under Sample.real := by
    simp only [fdct_under_real, hb, mul_mul_linear]
  have hidct : (Reference.idct b).under Sample.real =
      x • (Reference.idct b₁).under Sample.real + y • (Reference.idct b₂).under Sample.real := by
    simp only [idct_under_real, hb, mul_mul_linear]
  exact ⟨congrFun (congrFun hfdct u) v, congrFun (congrFun hidct u) v⟩

/-- The sum of squares of a matrix is the trace of its product with its transpose. -/
theorem sum_sq_eq_trace (M : Matrix (Fin 8) (Fin 8) ℝ) : ∑ i, ∑ j, M i j ^ 2 = trace (M * Mᵀ) := by
  simp only [← Matrix.sum_hadamard_eq, Matrix.hadamard_apply, sq]

/-- An orthogonal matrix on both sides does not change the sum of squares. -/
theorem trace_orthogonal {A : Matrix (Fin 8) (Fin 8) ℝ} (h : Aᵀ * A = 1) (M : Matrix (Fin 8) (Fin 8) ℝ) :
    trace (A * M * Aᵀ * (A * M * Aᵀ)ᵀ) = trace (M * Mᵀ) := by
  calc trace (A * M * Aᵀ * (A * M * Aᵀ)ᵀ)
      = trace (A * (M * (Aᵀ * A) * Mᵀ) * Aᵀ) := by
        simp only [Matrix.transpose_mul, Matrix.transpose_transpose, Matrix.mul_assoc]
    _ = trace (Aᵀ * A * (M * (Aᵀ * A) * Mᵀ)) := Matrix.trace_mul_cycle _ _ _
    _ = trace (M * Mᵀ) := by rw [h, Matrix.one_mul, Matrix.mul_one]

theorem fdct_preserves_energy (b : Mat8 Sample) :
    ∑ u, ∑ v, ((Reference.fdct b).at u v).real ^ 2 = ∑ r, ∑ c, (b.at r c).real ^ 2 := by
  calc ∑ u, ∑ v, ((Reference.fdct b).under Sample.real) u v ^ 2
      = trace (b.under Sample.real * (b.under Sample.real)ᵀ) := by
        rw [sum_sq_eq_trace, fdct_under_real, trace_orthogonal (mul_eq_one_comm.mp TReal_mul_transpose)]
    _ = ∑ r, ∑ c, (b.under Sample.real) r c ^ 2 := (sum_sq_eq_trace _).symm

/-- Each row of the block transformed first. -/
theorem fdct_rows_first (b : Mat8 Sample) (u v : Fin 8) : ((Reference.fdct b).at u v).real =
    ∑ r, Numerics.T u r * ∑ c, (b.at r c).real * Numerics.T v c := by
  simp only [fdct_real, Finset.mul_sum, mul_assoc]

/-- Each column of the block transformed first. -/
theorem fdct_columns_first (b : Mat8 Sample) (u v : Fin 8) : ((Reference.fdct b).at u v).real =
    ∑ c, (∑ r, Numerics.T u r * (b.at r c).real) * Numerics.T v c := by
  rw [fdct_real, Finset.sum_comm]
  simp only [Finset.sum_mul]

/-- Settles O19: the laws of R105 one by one. -/
theorem referenceTransformLaws : Obligations.ReferenceTransformLaws :=
  ⟨sum_T_mul_T, fun b => ⟨num_idct_fdct b, num_fdct_idct b⟩, fun _ _ _ _ _ h => transforms_linear h, fdct_preserves_energy,
    fun b u v => ⟨fdct_rows_first b u v, fdct_columns_first b u v⟩⟩

/-! ### One coefficient, R108 -/

theorem idct_real_of_change {m m' : Mat8 Sample} {cu cv : Fin 8} {d : ℝ}
    (hd : (m'.at cu cv).real = (m.at cu cv).real + d) (hkeep : ∀ u v, ¬(u = cu ∧ v = cv) → m'.at u v = m.at u v)
    (r c : Fin 8) : ((Reference.idct m').at r c).real =
      ((Reference.idct m).at r c).real + d * Numerics.T cu r * Numerics.T cv c := by
  have hchange : ∀ u v, Numerics.T u r * (m'.at u v).real * Numerics.T v c =
      Numerics.T u r * (m.at u v).real * Numerics.T v c +
        if u = cu then (if v = cv then d * Numerics.T cu r * Numerics.T cv c else 0) else 0 := by
    intro u v
    by_cases hpos : u = cu ∧ v = cv
    · obtain ⟨rfl, rfl⟩ := hpos
      simp only [hd, if_true]
      ring
    · rw [hkeep u v hpos, ← ite_and, if_neg hpos, add_zero]
  simp [idct_real, hchange, Finset.sum_add_distrib]

theorem abs_T_le {k : Fin 8} (hk : k ≠ 0) (n : Fin 8) : |Numerics.T k n| ≤ 1 / 2 := by
  rw [Numerics.T, if_neg hk, abs_mul, abs_of_pos one_half_pos]
  exact mul_le_of_le_one_right one_half_pos.le (Real.abs_cos_le_one _)

theorem abs_mul_T_mul_T_le {cu cv : Fin 8} (hu : cu ≠ 0) (hv : cv ≠ 0) (d : ℝ) (r c : Fin 8) :
    |d * Numerics.T cu r * Numerics.T cv c| ≤ |d| / 4 := by
  calc |d * Numerics.T cu r * Numerics.T cv c|
      = |d| * (|Numerics.T cu r| * |Numerics.T cv c|) := by rw [abs_mul, abs_mul, mul_assoc]
    _ ≤ |d| * (1 / 2 * (1 / 2)) := by
        gcongr
        · exact abs_T_le hu r
        · exact abs_T_le hv c
    _ = |d| / 4 := by ring

/-- Settles O20: the inverse transform is linear, and `T` is at most one half below its first row. -/
theorem oneCoefficientMovesEverySample : Obligations.OneCoefficientMovesEverySample := by
  intro m m' cu cv d hd hkeep r c
  have hmove := idct_real_of_change hd hkeep r c
  refine ⟨hmove, fun hu hv => ?_⟩
  rw [num_idct, hmove, add_sub_cancel_left]
  exact abs_mul_T_mul_T_le hu hv d r c

/-! ### Constant blocks and lone mean coefficients -/

/-- Row 0 of `T` is constant. -/
theorem T_mean_row (n : Fin 8) : Reference.T 0 n = Reference.T 0 0 := rfl

section Constant
variable {R : Type} [CommRing R] {φ : Scalar → R} {ψ : Sample → R} (h : level.Hom φ)
include h

theorem eight_mul_T_mean_sq : 8 * φ (Reference.T 0 0) ^ 2 = 1 := by
  have hone := congrFun (congrFun (T_mul_transpose h) 0) 0
  simpa [Matrix.mul_apply, TIn, T_mean_row, sq] using hone

/-- Every row of `T` but row 0 is orthogonal to a constant. -/
theorem sum_T_row (k : Fin 8) : ∑ n, φ (Reference.T k n) = if k = 0 then 8 * φ (Reference.T 0 0) else 0 := by
  split_ifs with hk
  · simp [hk, T_mean_row]
  · have horth : (∑ n, φ (Reference.T k n)) * φ (Reference.T 0 0) = 0 := by
      have := congrFun (congrFun (T_mul_transpose h) k) 0
      simpa [Matrix.mul_apply, TIn, T_mean_row, hk, ← Finset.sum_mul] using this
    linear_combination 8 * φ (Reference.T 0 0) * horth - (∑ n, φ (Reference.T k n)) * eight_mul_T_mean_sq h

/-- The mean coefficient of a constant block is eight times its value, and the others vanish. -/
theorem fdct_constant_under (h0 : ψ .zero = 0) (hadd : ∀ v w, ψ (v.add w) = ψ v + ψ w)
    (hscale : ∀ x v, ψ (Sample.scale x v) = φ x * ψ v) {b : Mat8 Sample} {m : Sample} (hb : ∀ r c, b.at r c = m)
    (u v : Fin 8) : ψ ((Reference.fdct b).at u v) = if u = 0 ∧ v = 0 then 8 * ψ m else 0 := by
  have hprod : ψ ((Reference.fdct b).at u v) = (∑ r, φ (Reference.T u r)) * ψ m * ∑ c, φ (Reference.T v c) := by
    simpa [Matrix.mul_apply, Mat8.under, TIn, hb, ← Finset.sum_mul, ← Finset.mul_sum] using
      congrFun (congrFun (fdct_under h h0 hadd hscale b) u) v
  rw [hprod, sum_T_row h, sum_T_row h, ite_and]
  by_cases hu : u = 0
  · by_cases hv : v = 0
    · simp only [hu, hv, if_true]
      linear_combination 8 * ψ m * eight_mul_T_mean_sq h
    · simp only [hu, hv, if_true, if_false, mul_zero]
  · simp only [hu, if_false, zero_mul]

end Constant

/-- The other coefficients of a constant block are the sample zero itself, not only some form of value 0. -/
theorem fdct_constant_eq_zero {b : Mat8 Sample} {m : Sample} (hb : ∀ r c, b.at r c = m) {u v : Fin 8}
    (huv : ¬(u = 0 ∧ v = 0)) : (Reference.fdct b).at u v = Sample.zero := by
  obtain ⟨R, _, φ, h, inj⟩ := level_ring_model
  refine Sample.ext_eval h inj fun i => ?_
  rw [fdct_constant_under h rfl (Sample.eval_add h _) (Sample.eval_scale h _) hb, if_neg huv]
  rfl

theorem fdct_constant_mean {b : Mat8 Sample} {m : Sample} (hb : ∀ r c, b.at r c = m) :
    ((Reference.fdct b).at 0 0).real = 8 * m.real := by
  simp [fdct_constant_under Scalar.real_hom Sample.real_zero Sample.real_add Sample.real_scale hb]

theorem T_mean_mul_T_mean (r c : Fin 8) : Numerics.T 0 r * Numerics.T 0 c = 1 / 8 := by
  rw [← T_is_T, ← T_is_T, T_mean_row, T_mean_row c]
  linear_combination eight_mul_T_mean_sq Scalar.real_hom / 8

/-- The matrix of zeros, from which a lone coefficient is a change at one position. -/
def Mat8.zeros : Mat8 Sample := Mat8.of fun _ _ => Sample.zero

@[simp] theorem Mat8.at_zeros (i j : Fin 8) : Mat8.zeros.at i j = Sample.zero := Mat8.at_of _ i j

theorem idct_real_zeros (r c : Fin 8) : ((Reference.idct Mat8.zeros).at r c).real = 0 := by
  simp [idct_real, Sample.real_zero]

theorem idct_lone_mean {m : Mat8 Sample} (hm : ∀ u v, ¬(u = 0 ∧ v = 0) → m.at u v = Sample.zero) (r c : Fin 8) :
    ((Reference.idct m).at r c).real = (m.at 0 0).real / 8 := by
  have hmove := idct_real_of_change (m := Mat8.zeros) (m' := m) (cu := 0) (cv := 0) (d := (m.at 0 0).real)
    (by simp [Sample.real_zero]) (fun u v huv => by simp [hm u v huv]) r c
  rw [hmove, idct_real_zeros, mul_assoc, T_mean_mul_T_mean]
  ring

/-- Settles O17: constant blocks, lone mean coefficients, and that each transform undoes the other. -/
theorem referenceTransformCornerCases : Obligations.ReferenceTransformCornerCases := by
  intro s t href
  have hnum : s.inst.numerics = Reference.num := Inst.numerics_reference href
  refine ⟨fun hfdct => ⟨fun m hm => ?_, exec_idct_of_fdct hfdct ?_⟩,
    fun hidct => ⟨fun hlone r c => ?_, exec_fdct_of_idct hidct ?_⟩⟩
  · rw [exec_fdct] at hfdct
    cases hfdct
    simp only [completed, hnum]
    exact ⟨fdct_constant_mean hm, fun u v => fdct_constant_eq_zero hm⟩
  · rw [hnum, num_idct_fdct]
  · rw [exec_idct] at hidct
    cases hidct
    simp only [completed, hnum]
    exact idct_lone_mean hlone r c
  · rw [hnum, num_fdct_idct]

end Sys2Proof
end

section
/-! SUPPORT. The block iterator (41_block_iterator.md): the cells of a block (R112), what `LDBLK` and `STBLK` answer in each
of the three cases that they tell apart (R115, R116), and what the image holds after a block was stored. -/

namespace Sys2Proof.Machine

open Sys2Proof.Claims

/-! ### Block addresses -/

theorem State.sampleAddr_eq_cellOf (s : State) (r c : Fin 8) : s.sampleAddr r c = cellOf s s.bidx.toNat r c := rfl

theorem cellOf_lt {s : State} {k : Nat} (h : k < capacity s) (r c : Fin 8) :
    cellOf s k r c < s.width.toNat * s.height.toNat :=
  blockAddr_lt h r c

theorem cellOf_inj {s : State} {k k' : Nat} (h : k < capacity s) {r c r' c' : Fin 8}
    (e : cellOf s k r c = cellOf s k' r' c') : k = k' ∧ r = r' ∧ c = c' :=
  blockAddr_inj (State.bw_pos_of_lt h) e

/-- Settles O26: the commands use the addresses of R112, which are inside the image and injective in the triple. -/
theorem blockAddressesAreInsideAndDisjoint : Obligations.BlockAddressesAreInsideAndDisjoint := by
  intro s k k' r c r' c' hk _ hbidx
  subst hbidx
  exact ⟨s.sampleAddr_eq_cellOf r c, cellOf_lt hk r c, cellOf_inj hk⟩

/-! ### The commands that move `BIDX` -/

theorem exec_blkrst (s : State) : exec .blkrst s = .next (completed { s with bidx := 0 }) := rfl

theorem exec_blknext_of_lt {s : State} (h : s.bidx.toNat < capacity s) :
    exec .blknext s = .next (completed { s with bidx := s.bidx + 1 }) :=
  congrArg (fun t => (CmdResult.done t).finish) (if_pos h)

theorem exec_blknext_of_le {s : State} (h : capacity s ≤ s.bidx.toNat) : exec .blknext s = .next (completed s) :=
  congrArg (fun t => (CmdResult.done t).finish) (if_neg (not_lt.mpr h))

/-- Settles O27: `BIDX` is all that `BLKRST` writes. -/
theorem blkrstRestartsTheSequence : Obligations.BlkrstRestartsTheSequence := exec_blkrst

/-- Settles O28: `BIDX + 1` does not wrap, because the capacity is far below the range of the register. -/
theorem blknextAdvancesAndSaturates : Obligations.BlknextAdvancesAndSaturates := by
  intro s
  rcases lt_or_ge s.bidx.toNat (capacity s) with h | h
  · exact ⟨s.bidx + 1, exec_blknext_of_lt h, fun _ => State.bidx_next h, fun hge => absurd h (not_lt.mpr hge)⟩
  · exact ⟨s.bidx, exec_blknext_of_le h, fun hlt => absurd hlt (not_lt.mpr h), fun _ => rfl⟩

/-! ### The three cases of `LDBLK` and `STBLK` -/

theorem State.imageTooLarge_eq_true_iff {s : State} : s.imageTooLarge = true ↔ ¬imageFits s :=
  decide_eq_true_iff.trans not_le.symm

theorem State.imageTooLarge_eq_false_iff {s : State} : s.imageTooLarge = false ↔ imageFits s :=
  decide_eq_false_iff_not.trans not_lt

section
variable {s : State} (body : State → State)

theorem State.withBlock_finish_of_not_imageFits (h : ¬imageFits s) :
    (s.withBlock body).finish = .next (failed s 5 1 0) := by
  rw [State.withBlock_tooLarge body (State.imageTooLarge_eq_true_iff.mpr h)]
  rfl

theorem State.withBlock_finish_of_le (h : imageFits s) (k : capacity s ≤ s.bidx.toNat) :
    (s.withBlock body).finish = .next (failed s 6 s.bidx.toNat (capacity s)) := by
  rw [State.withBlock_outside body (State.imageTooLarge_eq_false_iff.mpr h) k]
  rfl

theorem State.withBlock_finish_of_lt (h : imageFits s) (k : s.bidx.toNat < capacity s) :
    (s.withBlock body).finish = .next (completed (body s)) := by
  rw [State.withBlock_inside body (State.imageTooLarge_eq_false_iff.mpr h) k]
  rfl

end

theorem exec_ldblk (s : State) : exec .ldblk s = (s.withBlock State.loadBlock).finish := rfl

theorem exec_stblk (s : State) : exec .stblk s = (s.withBlock State.storeBlock).finish := rfl

/-- Settles O29: the three cases of `LDBLK`, and the elements of the block that it loads. -/
theorem ldblkLoadsTheBlock : Obligations.LdblkLoadsTheBlock := by
  intro s
  rw [exec_ldblk]
  exact ⟨State.withBlock_finish_of_not_imageFits _, State.withBlock_finish_of_le _,
    fun h k => ⟨_, State.withBlock_finish_of_lt _ h k, Mat8.at_of _⟩⟩

/-! ### The image after a block was stored -/

theorem State.storeBlock_imgAt_sampleAddr {s : State} (k : s.bidx.toNat < capacity s) (r c : Fin 8) :
    s.storeBlock.imgAt (s.sampleAddr r c) = s.blk.at r c := by
  rw [State.imgAt, State.storeBlock_img, Mem.lookup_writeBlock_inside _ _ (State.sampleAddr_inj k)]
  rfl

theorem State.storeBlock_imgAt_of_ne {s : State} {a : Nat} (h : ∀ r c, a ≠ s.sampleAddr r c) :
    s.storeBlock.imgAt a = s.imgAt a := by
  rw [State.imgAt, State.storeBlock_img, Mem.lookup_writeBlock_outside _ _ fun r c => (h r c).symm]
  rfl

/-- Storing the block that was loaded keeps every cell of the image. -/
theorem State.loadBlock_storeBlock_imgAt {s : State} (k : s.bidx.toNat < capacity s) (a : Nat) :
    s.loadBlock.storeBlock.imgAt a = s.imgAt a := by
  by_cases h : ∃ r c, a = s.sampleAddr r c
  · obtain ⟨r, c, rfl⟩ := h
    calc s.loadBlock.storeBlock.imgAt (s.sampleAddr r c) = s.loadBlock.blk.at r c :=
          State.storeBlock_imgAt_sampleAddr (s := s.loadBlock) k r c
      _ = s.imgAt (s.sampleAddr r c) := Mat8.at_of _ r c
  · push Not at h
    exact State.storeBlock_imgAt_of_ne (s := s.loadBlock) h

/-- `LDBLK` and then `STBLK` complete, with block `BIDX` loaded and stored. -/
theorem execAll_ldblk_stblk {s : State} (h : imageFits s) (k : s.bidx.toNat < capacity s) :
    execAll [.ldblk, .stblk] s = .next (completed s.loadBlock.storeBlock) := by
  have hload : exec .ldblk s = .next (completed s.loadBlock) := State.withBlock_finish_of_lt _ h k
  have hstore : exec .stblk (completed s.loadBlock) = .next (completed (completed s.loadBlock).storeBlock) :=
    State.withBlock_finish_of_lt (s := completed s.loadBlock) _ h k
  simp only [execAll, hload, hstore]
  rfl

/-- Settles O30: the three cases of `STBLK`, the image after the block was stored, and `LDBLK` before it. -/
theorem stblkStoresTheBlock : Obligations.StblkStoresTheBlock := by
  intro s
  rw [exec_stblk]
  exact ⟨State.withBlock_finish_of_not_imageFits _, State.withBlock_finish_of_le _,
    fun h k => ⟨_, State.withBlock_finish_of_lt _ h k, State.storeBlock_imgAt_sampleAddr k,
      fun _ => State.storeBlock_imgAt_of_ne⟩,
    fun h k => ⟨_, execAll_ldblk_stblk h k, State.loadBlock_storeBlock_imgAt k⟩⟩

end Sys2Proof.Machine
end

section
/-! SUPPORT. The embedder and the extractor (42_embed_extract.md): what `EMBED` and `EXTRACT` answer (R122, R124), the
polarity rule over the real numbers of the reference numerics (R121, R127, R128), and that neither `EXTRACT` nor `DECODE`
reads `ALPHA` (R125). -/

namespace Sys2Proof.Machine

open Sys2Proof.Claims

/-! ### The commands -/

theorem exec_embed_of_alphaPositive {s : State} (h : alphaPositive s) : exec .embed s = .next (completed s.embedBit) := by
  have hpos : s.alphaNotPositive = false := congrArg Bool.not h
  simp only [exec, execEmbed, hpos, Bool.false_eq_true, if_false]
  rfl

theorem exec_embed_of_isPos_eq_false {s : State} (h : s.inst.numerics.isPos s.alpha = false) :
    exec .embed s = .next (failed s 5 3 0) := by
  have hpos : s.alphaNotPositive = true := congrArg Bool.not h
  simp only [exec, execEmbed, hpos, if_true]
  rfl

theorem exec_extract (s : State) : exec .extract s = .next (completed s.extractBit) := rfl

/-- Settles O21: the two cases of `EMBED`, and the coefficients where one cell was put. -/
theorem embedForcesTheCarrier : Obligations.EmbedForcesTheCarrier := fun _ =>
  ⟨fun h => ⟨_, exec_embed_of_alphaPositive h, Mat8.at_put_self _ _ _ _, fun _ _ hne => Mat8.at_put_other _ _ hne⟩,
    exec_embed_of_isPos_eq_false⟩

/-- Settles O22: the one case of `EXTRACT`. -/
theorem extractReadsTheSign : Obligations.ExtractReadsTheSign := exec_extract

/-! ### Sequences of commands -/

theorem execAll_cons {i : Instr} {s t : State} (h : exec i s = .next t) (rest : List Instr) :
    execAll (i :: rest) s = execAll rest t := by
  simp only [execAll, h]

/-- The bit is read after a passage of the coefficients through the block. -/
theorem execAll_idct_fdct_extract (s : State) :
    execAll [.idct, .fdct, .extract] s = .next (completed s.inverse.forward.extractBit) := rfl

/-- A bit is embedded in the block and read after the passage through it. -/
theorem execAll_embed_roundTrip {s : State} (h : alphaPositive s) : execAll [.fdct, .embed, .idct, .fdct, .extract] s =
    .next (completed s.forward.embedBit.inverse.forward.extractBit) := by
  calc _ = execAll [.embed, .idct, .fdct, .extract] (completed s.forward) := execAll_cons (exec_fdct s) _
    _ = execAll [.idct, .fdct, .extract] (completed s.forward.embedBit) :=
      execAll_cons (exec_embed_of_alphaPositive (s := completed s.forward) h) _
    _ = _ := execAll_idct_fdct_extract _

/-! ### The polarity rule over the real numbers -/

/-- The sign that the polarity rule gives to a bit (R121). -/
def polarity (b : Bool) : ℝ := if b then 1 else -1

theorem abs_polarity (b : Bool) : |polarity b| = 1 := by cases b <;> simp [polarity]

theorem pol_real (b : Bool) (c a : Sample) : (pol Reference.num b c a).real = polarity b * (|c.real| + a.real) := by
  cases b
  · simp only [pol, polarity, Bool.false_eq_true, if_false, neg_real, add_real, abs_real, neg_one_mul]
  · simp only [pol, polarity, if_true, add_real, abs_real, one_mul]

section Reference
variable {s : State} (h : s.inst.num = .reference)
include h

theorem alphaPositive_of_real_pos (ha : 0 < s.alpha.real) : alphaPositive s := by
  rw [alphaPositive, Inst.numerics_reference h]
  exact (isPos_iff _).mpr ha

theorem exec_embed_of_real_pos (ha : 0 < s.alpha.real) : exec .embed s = .next (completed s.embedBit) :=
  exec_embed_of_alphaPositive (alphaPositive_of_real_pos h ha)

theorem State.embedBit_carrier_real : s.embedBit.carrier.real = polarity s.bit * (|s.carrier.real| + s.alpha.real) := by
  calc s.embedBit.carrier.real = (pol s.inst.numerics s.bit s.carrier s.alpha).real :=
        congrArg Sample.real (Mat8.at_put_self s.coef s.inst.cu s.inst.cv _)
    _ = _ := by rw [Inst.numerics_reference h, pol_real]

/-- The magnitude grows by `ALPHA` in one embedding. -/
theorem State.abs_embedBit_carrier_real (ha : 0 < s.alpha.real) :
    |s.embedBit.carrier.real| = |s.carrier.real| + s.alpha.real := by
  rw [State.embedBit_carrier_real h, abs_mul, abs_polarity, one_mul, abs_of_nonneg (by positivity)]

theorem State.embedBit_extractBit_bit (ha : 0 < s.alpha.real) : s.embedBit.extractBit.bit = s.bit := by
  calc s.embedBit.extractBit.bit = dec s.inst.numerics (pol s.inst.numerics s.bit s.carrier s.alpha) :=
        congrArg (dec s.inst.numerics) (Mat8.at_put_self s.coef s.inst.cu s.inst.cv _)
    _ = s.bit := by rw [Inst.numerics_reference h, dec_pol _ _ _ ((isPos_iff _).mpr ha)]

/-- The passage through the block changes no coefficient (R105). -/
theorem State.inverse_forward_coef : s.inverse.forward.coef = s.coef := by
  show s.inst.numerics.fdct (s.inst.numerics.idct s.coef) = s.coef
  rw [Inst.numerics_reference h, num_fdct_idct]

theorem State.inverse_forward_extractBit_bit : s.inverse.forward.extractBit.bit = s.extractBit.bit :=
  congrArg (fun m : Mat8 Sample => dec s.inst.numerics (m.at s.inst.cu s.inst.cv)) (State.inverse_forward_coef h)

end Reference

/-- Settles O23: in the reference numerics by the sign of the embedded value, in any numerics of an engine by NP2. -/
theorem embeddedBitIsExtracted : Obligations.EmbeddedBitIsExtracted := by
  refine ⟨fun s h ha => ?_, fun s hblk hsafe hpos => ?_⟩
  · have hbit := State.embedBit_extractBit_bit h ha
    exact ⟨_, _, _, execAll_cons (exec_embed_of_real_pos h ha) [],
      State.embedBit_carrier_real h, rfl, hbit, execAll_idct_fdct_extract _,
      (State.inverse_forward_extractBit_bit (s := s.embedBit) h).trans hbit⟩
  · exact ⟨_, execAll_embed_roundTrip hpos, s.inst.np2 hblk hsafe s.bit⟩

/-- Settles O24, by induction on the number of further embeddings: those after the first one start from the magnitude that it
left. -/
theorem repeatedEmbeddingAddsAlphaEachTime : Obligations.RepeatedEmbeddingAddsAlphaEachTime := by
  intro s n h ha
  induction n generalizing s with
  | zero =>
    refine ⟨_, execAll_cons (exec_embed_of_real_pos h ha) [], (State.embedBit_carrier_real h).trans ?_⟩
    rw [Nat.cast_zero, zero_add, one_mul]
    rfl
  | succ n ih =>
    obtain ⟨t, hrun, hreal⟩ := ih (completed s.embedBit) h ha
    refine ⟨t, (execAll_cons (exec_embed_of_real_pos h ha) _).trans hrun, hreal.trans ?_⟩
    calc _ = polarity s.bit * (|s.embedBit.carrier.real| + (n + 1) * s.alpha.real) := rfl
      _ = polarity s.bit * (|s.carrier.real| + ((n + 1 : Nat) + 1) * s.alpha.real) := by
        rw [State.abs_embedBit_carrier_real h ha]; push_cast; ring

/-! ### `EXTRACT` and `DECODE` do not read `ALPHA`, R125 -/

/-- `s` with another embedding strength. -/
def State.withAlpha (a : Sample) (s : State) : State := { s with alpha := a }

section Alpha
variable (a : Sample) (s : State)

theorem State.withAlpha_uterm : (s.withAlpha a).uterm = s.uterm := rfl

theorem State.unframe_withAlpha : (s.withAlpha a).unframe = s.unframe.map (State.withAlpha a) := by
  unfold State.unframe
  simp only [apply_ite (CmdResult.map (State.withAlpha a))]
  rfl

theorem State.stopAtLimit_withAlpha : (s.withAlpha a).stopAtLimit = s.stopAtLimit.map (State.withAlpha a) := by
  unfold State.stopAtLimit
  rw [apply_ite (CmdResult.map (State.withAlpha a))]
  rfl

/-- The bit of one block, as the loop of `DECODE` consumes it (R150). -/
theorem State.consumeBlock_withAlpha : (s.withAlpha a).loadBlock.forward.extractBit.unframe =
    s.loadBlock.forward.extractBit.unframe.map (State.withAlpha a) :=
  s.loadBlock.forward.extractBit.unframe_withAlpha a

theorem State.decodeBlocks_withAlpha (n : Nat) :
    State.decodeBlocks n (s.withAlpha a) = (State.decodeBlocks n s).map (State.withAlpha a) := by
  induction n generalizing s with
  | zero =>
    simp only [State.decodeBlocks, State.stopAtLimit_withAlpha, apply_ite (CmdResult.map (State.withAlpha a))]
    rfl
  | succ n ih =>
    unfold State.decodeBlocks
    rw [State.consumeBlock_withAlpha, State.withAlpha_uterm]
    split
    · rfl
    cases s.loadBlock.forward.extractBit.unframe with
    | raise e i0 i1 t => rfl
    | done t => exact ih (t.setBidx (t.bidx + 1))

theorem State.decodeRule_withAlpha : (s.withAlpha a).decodeRule = s.decodeRule.map (State.withAlpha a) := by
  simp only [State.decodeRule, apply_ite (CmdResult.map (State.withAlpha a)), ← State.decodeBlocks_withAlpha]
  rfl

theorem CmdResult.finish_map_withAlpha (r : CmdResult) :
    ∃ t, r.finish = .next t ∧ (r.map (State.withAlpha a)).finish = .next (t.withAlpha a) := by
  cases r <;> exact ⟨_, rfl, rfl⟩

end Alpha

/-- Settles O25: both rules commute with a change of `ALPHA`, and so does the end of a command. -/
theorem extractAndDecodeIgnoreAlpha : Obligations.ExtractAndDecodeIgnoreAlpha := by
  rintro s a i (rfl | rfl)
  · exact CmdResult.finish_map_withAlpha a (.done s.extractBit)
  · obtain ⟨t, hs, ha⟩ := CmdResult.finish_map_withAlpha a s.decodeRule
    rw [← State.decodeRule_withAlpha] at ha
    exact ⟨t, hs, ha⟩

end Sys2Proof.Machine
end

section
/-! SUPPORT. The framer and the unframer (43_framer.md): what each of their four commands answers (R133 to R137), what the
unframer makes of any bit list (R139), and the framed message as such a list (R131, R140). -/

namespace Sys2Proof.Machine

open Sys2Proof.Claims

/-! ### The framer's commands -/

theorem exec_frmrst (s : State) : exec .frmrst s = .next (completed { s with fpos := 0 }) := rfl

/-- Settles O31: `FPOS` is all that `FRMRST` writes. -/
theorem frmrstRestartsFraming : Obligations.FrmrstRestartsFraming := exec_frmrst

theorem State.messageTooLong_eq_true_iff {s : State} : s.messageTooLong = true ↔ ¬messageFits s :=
  decide_eq_true_iff.trans not_le.symm

theorem State.messageTooLong_eq_false_iff {s : State} : s.messageTooLong = false ↔ messageFits s :=
  decide_eq_false_iff_not.trans not_lt

/-- The bit that the machine reads from a byte is the one that R131 names. -/
theorem State.frameBit_eq_framedBit (s : State) (i : Nat) : s.frameBit i = framedBit s i := by
  have bit (b : Byte) (k : Nat) : b.getLsbD k = (b >>> k &&& 1#8 == 1#8) := by
    rw [BitVec.and_one_eq_setWidth_ofBool_getLsbD, BitVec.getLsbD_ushiftRight, Nat.add_zero]
    cases b.getLsbD k <;> rfl
  simp only [State.frameBit, framedBit, bit]

theorem exec_frmget_of_not_messageFits {s : State} (h : ¬messageFits s) : exec .frmget s = .next (failed s 5 2 0) := by
  simp only [exec, execFrmget, State.messageTooLong_eq_true_iff.mpr h, if_true]
  rfl

theorem exec_frmget_of_le {s : State} (h : messageFits s) (k : framedLength s ≤ s.fpos.toNat) :
    exec .frmget s = .next (failed s 7 s.fpos.toNat (framedLength s)) := by
  have hk : s.lbits ≤ s.fpos.toNat := k
  simp only [exec, execFrmget, State.messageTooLong_eq_false_iff.mpr h, Bool.false_eq_true, if_false, hk, if_true]
  rfl

theorem exec_frmget_of_lt {s : State} (h : messageFits s) (k : s.fpos.toNat < framedLength s) :
    exec .frmget s = .next (completed s.takeFrameBit) := by
  have hk : ¬s.lbits ≤ s.fpos.toNat := not_le.mpr k
  simp only [exec, execFrmget, State.messageTooLong_eq_false_iff.mpr h, Bool.false_eq_true, if_false, hk]
  rfl

theorem State.takeFrameBit_eq (s : State) :
    s.takeFrameBit = { s with bit := framedBit s s.fpos.toNat, fpos := s.fpos + 1 } := by
  rw [State.takeFrameBit, State.frameBit_eq_framedBit]

/-- Settles O32: the three cases of `FRMGET`. -/
theorem frmgetDeliversTheFramedBit : Obligations.FrmgetDeliversTheFramedBit := fun _ =>
  ⟨exec_frmget_of_not_messageFits, exec_frmget_of_le, fun h k =>
    ⟨State.takeFrameBit_eq _ ▸ exec_frmget_of_lt h k, State.fpos_next k⟩⟩

/-! ### The unframer's commands -/

theorem exec_unfrst (s : State) : exec .unfrst s = .next (completed s.restartUnframer) := rfl

/-- Settles O33: `UNFRST` writes the unframer's five registers. -/
theorem unfrstRestartsUnframing : Obligations.UnfrstRestartsUnframing := exec_unfrst

theorem exec_unfput_of_done {s t : State} (h : s.unframe = .done t) : exec .unfput s = .next (completed t) :=
  congrArg CmdResult.finish h

theorem exec_unfput_of_overflow {s : State} {i0 i1 : Nat} (h : s.unframe = .raise .outputOverflow i0 i1 s) :
    exec .unfput s = .next (failed s 8 i0 i1) :=
  congrArg CmdResult.finish h

/-- Settles O34: the five cases of `UNFPUT`, and `MSGOUT` where one cell was written. -/
theorem unfputConsumesTheBit : Obligations.UnfputConsumesTheBit := by
  intro s acc
  have hacc : acc = s.shiftedAcc := s.shiftedAcc_eq.symm
  rw [hacc]
  refine ⟨fun h => exec_unfput_of_done (State.unframe_ignores h),
    fun h k => exec_unfput_of_done (State.unframe_shifts h k),
    fun h k z => exec_unfput_of_done (State.unframe_ends h k z),
    fun h k z o => exec_unfput_of_overflow (State.unframe_overflows h k z o),
    fun h k z o => ⟨_, exec_unfput_of_done (State.unframe_stores h k z o), ?_, fun a ha => ?_⟩⟩
  · exact (s.msgoutAt_setMsgout _ _ _).trans (if_pos rfl)
  · exact (s.msgoutAt_setMsgout _ _ _).trans (if_neg ha)

/-- The engine with its unframer replaced. -/
def State.withUnframer (s : State) (u : Unframer) : State :=
  { s with uacc := u.uacc, ucnt := u.ucnt, ubits := u.ubits, uout := u.uout, uterm := u.uterm, msgout := u.msgout }

/-- Two engines that differ in the unframer at most. -/
theorem State.eq_withUnframer {s t : State} (same : s.SameSettings t) (stopc : t.stopc = s.stopc)
    (outlen : t.outlen = s.outlen) (bidx : t.bidx = s.bidx) (bit : t.bit = s.bit) (fpos : t.fpos = s.fpos)
    (blk : t.blk = s.blk) (coef : t.coef = s.coef) (img : t.img = s.img) : t = s.withUnframer t.unframer := by
  obtain ⟨⟩ := same
  cases t
  simp only at *
  subst_vars
  rfl

/-- Where the unframer can take the bit, `UNFPUT` changes the unframer and nothing else. -/
theorem State.unframe_of_put {s : State} {v : Unframer} (h : s.unframer.put s.bit = some v) :
    s.unframe = .done (s.withUnframer v) ∧ (s.withUnframer v).unframer = v := by
  obtain ⟨t, ht, hput⟩ | ⟨-, hnone⟩ := s.unframe_put
  · obtain rfl : v = t.unframer := Option.some.inj (h.symm.trans hput)
    have same := s.good_unframe.settings
    obtain ⟨stopc, outlen, bidx, bit, fpos, blk, coef, img⟩ := s.unframe_frame
    rw [ht] at same stopc outlen bidx bit fpos blk coef img
    have heq : t = s.withUnframer t.unframer := State.eq_withUnframer same stopc outlen bidx bit fpos blk coef img
    rw [ht, ← heq]
    exact ⟨rfl, rfl⟩
  · cases hnone.symm.trans h

theorem exec_unfput_of_put {s : State} {v : Unframer} (h : s.unframer.put s.bit = some v) :
    exec .unfput s = .next (completed (s.withUnframer v)) ∧ (s.withUnframer v).unframer = v :=
  (State.unframe_of_put h).imp_left exec_unfput_of_done

/-! ### The bytes that a bit list spells, R139 -/

/-- Induction on a bit list, byte by byte. -/
theorem byteInduction {P : List Bool → Prop} (few : ∀ l, l.length < 8 → P l)
    (byte : ∀ l rest, l.length = 8 → P rest → P (l ++ rest)) (bits : List Bool) : P bits := by
  induction h : bits.length using Nat.strong_induction_on generalizing bits with
  | _ n ih =>
    rcases lt_or_ge bits.length 8 with hlt | hge
    · exact few bits hlt
    · rw [← List.take_append_drop 8 bits]
      refine byte _ _ (List.length_take_of_le hge) (ih _ ?_ _ rfl)
      rw [List.length_drop]
      omega

theorem spelled_few {l : List Bool} (h : l.length < 8) : spelled l = [] := by
  unfold spelled groupsOf8
  split
  · simp only [List.length_cons] at h; omega
  · rfl

theorem spelled_byte {l : List Bool} (h : l.length = 8) (rest : List Bool) :
    spelled (l ++ rest) = byteOfBits l :: spelled rest := by
  match l, h with
  | [_, _, _, _, _, _, _, _], _ => rfl

/-- The bits of a function of the index spell its bytes. -/
theorem spelled_range (f : Nat → Bool) (n : Nat) : spelled ((List.range (8 * n)).map f) =
    (List.range n).map fun j => byteOfBits ((List.range 8).map fun i => f (8 * j + i)) := by
  induction n generalizing f with
  | zero => rfl
  | succ n ih =>
    have hbits : (List.range (8 * (n + 1))).map f =
        (List.range 8).map f ++ (List.range (8 * n)).map fun i => f (8 + i) := by
      rw [Nat.mul_succ, Nat.add_comm, List.range_add, List.map_append, List.map_map]
      rfl
    rw [hbits, spelled_byte (by simp), ih, List.range_succ_eq_map (n := n), List.map_cons, List.map_map]
    refine congrArg₂ List.cons ?_ (List.map_congr_left fun j _ => ?_)
    · simp only [Nat.mul_zero, Nat.zero_add]
    · exact congrArg byteOfBits (List.map_congr_left fun i _ => congrArg f (by omega))

/-- A list that spells the bytes of a function of the index, the first zero byte at index `z` (R139). -/
theorem unframed_of_zero_at {bits : List Bool} {g : Nat → Byte} {n z : Nat} (h : spelled bits = (List.range n).map g)
    (hz : z < n) (zero : g z = 0) (nonzero : ∀ j, j < z → g j ≠ 0) :
    unframed bits = (List.range z).map g ∧ terminated bits = true := by
  obtain ⟨k, rfl⟩ := Nat.exists_eq_add_of_lt hz
  have hsplit : spelled bits = (List.range z).map g ++ 0 :: ((List.range k).map fun i => g (z + (i + 1))) := by
    rw [h, Nat.add_assoc, List.range_add, List.range_succ_eq_map, List.map_append, List.map_cons, List.map_map, ← zero]
    simp [Function.comp_def]
  constructor
  · rw [unframed, hsplit, List.takeWhile_append_of_pos]
    · simp
    · simpa using nonzero
  · rw [terminated, hsplit]
    simp

/-! ### The unframer on a bit list, R138, R139 -/

section Byte
variable {l : List Bool} (hl : l.length = 8) (rest : List Bool)
include hl

theorem unframed_zeroByte (h : byteOfBits l = 0) : unframed (l ++ rest) = [] := by
  rw [unframed, spelled_byte hl, h]
  rfl

theorem terminated_zeroByte (h : byteOfBits l = 0) : terminated (l ++ rest) = true := by
  rw [terminated, spelled_byte hl, h]
  rfl

theorem unframed_byte (h : byteOfBits l ≠ 0) : unframed (l ++ rest) = byteOfBits l :: unframed rest := by
  rw [unframed, spelled_byte hl]
  exact List.takeWhile_cons_of_pos (by simpa using h)

theorem terminated_byte (h : byteOfBits l ≠ 0) : terminated (l ++ rest) = terminated rest := by
  have hne : ((0 : Byte) == byteOfBits l) = false := beq_false_of_ne h.symm
  rw [terminated, spelled_byte hl, List.contains_cons, hne, Bool.false_or]
  rfl

end Byte

/-- The unframer after the eight bits of a terminator (R137). -/
def Unframer.endMessage (u : Unframer) : Unframer := { u with uterm := true, ubits := u.ubits + 8 }

/-- The unframer after the eight bits of the message byte `b` (R137). -/
def Unframer.storeByte (u : Unframer) (b : Byte) : Unframer :=
  { u with msgout := Mem.write u.msgout u.uout.toNat b, uout := u.uout + 1, ubits := u.ubits + 8 }

/-- The unframer between two bytes, before a terminator. -/
structure Unframer.AtByte (u : Unframer) : Prop where
  uterm : u.uterm = false
  uacc : u.uacc = 0
  ucnt : u.ucnt = 0

theorem Unframer.run_zeroByte {u : Unframer} {l : List Bool} (hu : u.AtByte) (hl : l.length = 8) (h : byteOfBits l = 0) :
    Unframer.run l u = some u.endMessage :=
  (Unframer.run_byte l u hu.uterm hu.ucnt hu.uacc hl).trans (if_pos h)

theorem Unframer.run_storeByte {u : Unframer} {l : List Bool} (hu : u.AtByte) (hl : l.length = 8) (h : byteOfBits l ≠ 0)
    (room : u.uout.toNat < u.size) : Unframer.run l u = some (u.storeByte (byteOfBits l)) :=
  (Unframer.run_byte l u hu.uterm hu.ucnt hu.uacc hl).trans ((if_neg h).trans (if_neg (not_le.mpr room)))

/-- How many bits of a list the unframer counts: those up to and including the terminator, or all. -/
def countedBits (bits : List Bool) : Nat := if terminated bits then 8 * ((unframed bits).length + 1) else bits.length

/-- `v` is the unframer `u` after it took a bit list from a byte boundary (R138, R139). -/
structure Unframer.Took (u : Unframer) (bits : List Bool) (v : Unframer) : Prop where
  uout : v.uout.toNat = u.uout.toNat + (unframed bits).length
  stored : ∀ j, j < (unframed bits).length → Mem.lookup v.msgout (u.uout.toNat + j) = (unframed bits)[j]?
  kept : ∀ a, a < u.uout.toNat ∨ u.uout.toNat + (unframed bits).length ≤ a →
    Mem.lookup v.msgout a = Mem.lookup u.msgout a
  uterm : v.uterm = terminated bits
  cleared : terminated bits = true → v.uacc = 0 ∧ v.ucnt = 0
  ucnt : terminated bits = false → v.ucnt.toNat = bits.length % 8
  ubits : v.ubits = u.ubits + BitVec.ofNat 32 (countedBits bits)

theorem Unframer.took_few {u : Unframer} {l : List Bool} (hu : u.AtByte) (h : l.length < 8) :
    u.Took l { u with uacc := l.foldl appendBit u.uacc, ucnt := u.ucnt + BitVec.ofNat 3 l.length,
                      ubits := u.ubits + BitVec.ofNat 32 l.length } := by
  have hunframed : unframed l = [] := by rw [unframed, spelled_few h]; rfl
  have hterminated : terminated l = false := by rw [terminated, spelled_few h]; rfl
  exact {
    uout := by simp [hunframed]
    stored := by simp [hunframed]
    kept := fun _ _ => rfl
    uterm := hu.uterm.trans hterminated.symm
    cleared := by simp [hterminated]
    ucnt := by simp [hu.ucnt]
    ubits := by simp [countedBits, hterminated] }

theorem Unframer.took_zeroByte {u : Unframer} {l : List Bool} (hu : u.AtByte) (hl : l.length = 8) (h : byteOfBits l = 0)
    (rest : List Bool) : u.Took (l ++ rest) u.endMessage := by
  have hunframed := unframed_zeroByte hl rest h
  have hterminated := terminated_zeroByte hl rest h
  exact {
    uout := by simp [hunframed, Unframer.endMessage]
    stored := by simp [hunframed]
    kept := fun _ _ => rfl
    uterm := hterminated.symm
    cleared := fun _ => ⟨hu.uacc, hu.ucnt⟩
    ucnt := by simp [hterminated]
    ubits := by simp [countedBits, hunframed, hterminated, Unframer.endMessage] }

theorem countedBits_byte {l : List Bool} (hl : l.length = 8) (rest : List Bool) (h : byteOfBits l ≠ 0) :
    countedBits (l ++ rest) = 8 + countedBits rest := by
  simp only [countedBits, terminated_byte hl rest h, unframed_byte hl rest h, List.length_cons, List.length_append, hl]
  split <;> omega

/-- A byte that is stored, and then the rest of the list. -/
theorem Unframer.took_byte {u v : Unframer} {l rest : List Bool} (hl : l.length = 8) (h : byteOfBits l ≠ 0)
    (hout : (u.uout + 1).toNat = u.uout.toNat + 1) (took : (u.storeByte (byteOfBits l)).Took rest v) :
    u.Took (l ++ rest) v := by
  have hunframed := unframed_byte hl rest h
  have hterminated := terminated_byte hl rest h
  obtain ⟨uout, stored, kept, uterm, cleared, ucnt, ubits⟩ := took
  simp only [Unframer.storeByte, hout] at uout stored kept ubits
  rw [← hterminated] at uterm cleared ucnt
  refine ⟨?_, fun j hj => ?_, fun a ha => ?_, uterm, cleared, fun ht => ?_, ?_⟩
  · rw [uout, hunframed, List.length_cons]; omega
  · rw [hunframed] at hj ⊢
    cases j with
    | zero => exact (kept _ (.inl (Nat.lt_succ_self _))).trans (Mem.lookup_write_self _ _ _)
    | succ j =>
      rw [List.getElem?_cons_succ, ← stored j (Nat.lt_of_succ_lt_succ hj)]
      exact congrArg _ (by omega)
  · rw [hunframed, List.length_cons] at ha
    rw [kept a (by omega), Mem.lookup_write_other _ _ (by omega)]
  · rw [ucnt ht, List.length_append, hl]; omega
  · rw [ubits, countedBits_byte hl rest h, BitVec.ofNat_add, BitVec.add_assoc]; rfl

/-- From a byte boundary the unframer takes every bit list whose bytes fit `MSGOUT`. -/
theorem Unframer.run_took {bits : List Bool} {u : Unframer} (hu : u.AtByte)
    (hfit : u.uout.toNat + (unframed bits).length ≤ u.size) (hsize : u.size < 2 ^ 32) :
    ∃ v, Unframer.run bits u = some v ∧ u.Took bits v := by
  induction bits using byteInduction generalizing u with
  | few l h =>
    have hcnt : u.ucnt.toNat + l.length ≤ 7 := by simp [hu.ucnt]; omega
    exact ⟨_, Unframer.run_few l u hu.uterm hcnt, Unframer.took_few hu h⟩
  | byte l rest hl ih =>
    rw [Unframer.run_append]
    by_cases hz : byteOfBits l = 0
    · rw [Unframer.run_zeroByte hu hl hz]
      exact ⟨_, Unframer.run_terminated rest rfl, Unframer.took_zeroByte hu hl hz rest⟩
    · rw [unframed_byte hl rest hz, List.length_cons] at hfit
      rw [Unframer.run_storeByte hu hl hz (by omega)]
      have hout : (u.uout + 1).toNat = u.uout.toNat + 1 := BitVec.toNat_add_of_lt (by simp; omega)
      have hrest : (u.uout + 1).toNat + (unframed rest).length ≤ u.size := by omega
      obtain ⟨v, hrun, took⟩ := ih (u := u.storeByte (byteOfBits l)) ⟨hu.uterm, hu.uacc, hu.ucnt⟩ hrest hsize
      exact ⟨v, hrun, Unframer.took_byte hl hz hout took⟩

/-! ### The unframer run by the host, R139 -/

/-- What `feed` does to the unframer; the parameters of the engine stay. -/
theorem feed_of_run {bits : List Bool} {s : State} {v : Unframer} (h : Unframer.run bits s.unframer = some v) :
    ∃ t, feed bits s = .next t ∧ t.unframer = v ∧ t.inst = s.inst := by
  induction bits generalizing s with
  | nil => exact ⟨s, rfl, Option.some.inj h, rfl⟩
  | cons b bits ih =>
    obtain ⟨w, hput, hrun⟩ := Option.bind_eq_some_iff.mp h
    let u := completed (State.withUnframer { s with bit := b } w)
    obtain ⟨hexec, hunframer⟩ : exec .unfput { s with bit := b } = .next u ∧ u.unframer = w :=
      exec_unfput_of_put (s := { s with bit := b }) hput
    obtain ⟨t, hfeed, htv, hinst⟩ := ih (s := u) (hunframer ▸ hrun)
    exact ⟨t, by rw [feed, hexec]; exact hfeed, htv, hinst⟩

/-- What `MSGOUT` holds after the bits were taken from a fresh unframer. -/
theorem Unframer.Took.msgoutAt {s t : State} {u : Unframer} {bits : List Bool} (h : u.Took bits t.unframer)
    (hinst : t.inst = s.inst) (hout : u.uout = 0) (hmsgout : u.msgout = s.msgout) :
    (∀ (j : Nat) (hj : j < (unframed bits).length), t.msgoutAt j = (unframed bits)[j]) ∧
      ∀ a, (unframed bits).length ≤ a → t.msgoutAt a = s.msgoutAt a := by
  have stored := h.stored
  have kept := h.kept
  simp only [hout, hmsgout, BitVec.toNat_zero, Nat.zero_add, BitVec.ofNat_eq_ofNat] at stored kept
  constructor
  · intro j hj
    have hj' : Mem.lookup t.msgout j = some (unframed bits)[j] := (stored j hj).trans (List.getElem?_eq_getElem hj)
    rw [State.msgoutAt, hj', Option.getD_some]
  · intro a ha
    have ha' : Mem.lookup t.msgout a = Mem.lookup s.msgout a := kept a (.inr ha)
    rw [State.msgoutAt, State.msgoutAt, ha', hinst]

/-- Settles O35: `feed` runs the unframer, which takes every bit list that fits. -/
theorem unframerComputesUnframe : Obligations.UnframerComputesUnframe := by
  intro s bits hfit hsize
  obtain ⟨v, hrun, took⟩ := Unframer.run_took (bits := bits) (u := s.restartUnframer.unframer) ⟨rfl, rfl, rfl⟩
    ((Nat.zero_add _).trans_le hfit) hsize
  obtain ⟨t, hfeed, rfl, hinst⟩ := feed_of_run hrun
  obtain ⟨stored, kept⟩ := took.msgoutAt (s := s) hinst rfl rfl
  exact ⟨t, hfeed, took.uout.trans (Nat.zero_add _), stored, kept, took.uterm, took.ucnt,
    took.ubits.trans (BitVec.zero_add _)⟩

/-! ### The framed message through the unframer, R140 -/

/-- Byte `j` of the framed message: the message, then the terminator (R131). -/
def framedByte (s : State) (j : Nat) : Byte := if j < s.msglen.toNat then s.msginAt j else 0

/-- The bits of a byte, the most significant first, spell it (R61). -/
theorem byteOfBits_getLsbD : ∀ b : Byte, byteOfBits ((List.range 8).map fun i => b.getLsbD (7 - i)) = b := by
  decide

theorem framedBit_eq_getLsbD (s : State) (j : Nat) {i : Nat} (hi : i < 8) :
    framedBit s (8 * j + i) = (framedByte s j).getLsbD (7 - i) := by
  have hdiv : (8 * j + i) / 8 = j := by omega
  have hmod : (8 * j + i) % 8 = i := by omega
  have hlt : 8 * j + i < 8 * s.msglen.toNat ↔ j < s.msglen.toNat := by omega
  simp only [← State.frameBit_eq_framedBit, State.frameBit, framedByte, hdiv, hmod, hlt]
  split
  · rfl
  · simp

/-- The framed bits spell the message and its terminator. -/
theorem spelled_framedBits (s : State) : spelled ((List.range (framedLength s)).map (framedBit s)) =
    (List.range (s.msglen.toNat + 1)).map (framedByte s) := by
  rw [framedLength, spelled_range]
  refine List.map_congr_left fun j _ => ?_
  rw [← byteOfBits_getLsbD (framedByte s j)]
  exact congrArg byteOfBits (List.map_congr_left fun i hi => framedBit_eq_getLsbD s j (List.mem_range.mp hi))

/-- A framed bit from the framer into the unframer. -/
theorem execAll_frmget_unfput {s : State} {v : Unframer} (h : messageFits s) (k : s.fpos.toNat < framedLength s)
    (hput : s.unframer.put (framedBit s s.fpos.toNat) = some v) :
    (∀ rest, execAll (.frmget :: .unfput :: rest) s = execAll rest (completed (s.takeFrameBit.withUnframer v))) ∧
      (s.takeFrameBit.withUnframer v).unframer = v := by
  rw [← State.frameBit_eq_framedBit] at hput
  obtain ⟨hexec, hunframer⟩ := exec_unfput_of_put (s := completed s.takeFrameBit) hput
  exact ⟨fun rest => (execAll_cons (exec_frmget_of_lt h k) _).trans (execAll_cons hexec rest), hunframer⟩

/-- Framed bits from the framer into the unframer, one after another. -/
theorem execAll_frmget_unfput_of_run {n : Nat} {s : State} {v : Unframer} (m : s.mode = .idle) (h : messageFits s)
    (k : s.fpos.toNat + n ≤ framedLength s)
    (hrun : Unframer.run ((List.range' s.fpos.toNat n).map (framedBit s)) s.unframer = some v) :
    ∃ t, execAll (List.replicate n [Instr.frmget, .unfput]).flatten s = .next t ∧ t.unframer = v ∧ t.inst = s.inst ∧
      t.fpos.toNat = s.fpos.toNat + n ∧ t.mode = .idle := by
  induction n generalizing s with
  | zero => exact ⟨s, rfl, Option.some.inj hrun, rfl, rfl, m⟩
  | succ n ih =>
    rw [List.range'_succ, List.map_cons] at hrun
    obtain ⟨w, hput, hrun⟩ := Option.bind_eq_some_iff.mp hrun
    let u := completed (s.takeFrameBit.withUnframer w)
    have hlt : s.fpos.toNat < framedLength s := by omega
    have hfpos : u.fpos.toNat = s.fpos.toNat + 1 := State.fpos_next hlt
    have hrest : u.fpos.toNat + n ≤ framedLength s := by omega
    obtain ⟨hpair, hunframer⟩ : _ ∧ u.unframer = w := execAll_frmget_unfput (s := s) h hlt hput
    rw [← hfpos, ← hunframer] at hrun
    obtain ⟨t, hexec, htv, hinst, hfpost, hmode⟩ := ih (s := u) rfl h hrest hrun
    refine ⟨t, ?_, htv, hinst, by omega, hmode⟩
    rw [List.replicate_succ, List.flatten_cons]
    exact (hpair _).trans hexec

/-- Settles O36: the framed bits spell the message and its terminator, so that the first zero byte is the one at `z`. -/
theorem framerRoundTrip : Obligations.FramerRoundTrip := by
  intro s z hwf hfits hz hroom hnonzero hzero
  let bits := (List.range (framedLength s)).map (framedBit s)
  have messageByte {j : Nat} (hj : j < z) : framedByte s j = s.msginAt j := if_pos (hj.trans_le hz)
  have terminator : framedByte s z = 0 := by
    rw [framedByte]
    split
    · exact hzero ‹_›
    · rfl
  obtain ⟨hunframed, hterminated⟩ := unframed_of_zero_at (bits := bits) (spelled_framedBits s) (Nat.lt_succ_of_le hz)
    terminator fun j hj => messageByte hj ▸ hnonzero j hj
  have hlength : (unframed bits).length = z := by rw [hunframed, List.length_map, List.length_range]
  have hsize : s.inst.msgoutMax < 2 ^ 32 := by
    simp only [Inst.wf, Bool.and_eq_true, decide_eq_true_eq] at hwf
    exact hwf.2
  obtain ⟨v, hrun, took⟩ := Unframer.run_took (bits := bits) (u := s.restartUnframer.unframer) ⟨rfl, rfl, rfl⟩
    ((Nat.zero_add _).trans_le (hlength.trans_le hroom)) hsize
  let start : State := completed { s with fpos := 0 }.restartUnframer
  have hbits : bits = (List.range' 0 (framedLength s)).map (framedBit start) :=
    congrArg (List.map (framedBit s)) List.range_eq_range'
  rw [hbits] at hrun
  obtain ⟨t, hexec, rfl, hinst, hfpos, hmode⟩ := execAll_frmget_unfput_of_run (s := start) rfl hfits
    (Nat.zero_add _).le hrun
  obtain ⟨stored, -⟩ := took.msgoutAt (s := s) hinst rfl rfl
  refine ⟨t, ?_, took.uterm.trans hterminated, ?_, fun j hj => ?_, hfpos.trans (Nat.zero_add _), hmode⟩
  · exact (execAll_cons (exec_frmrst s) _).trans ((execAll_cons (exec_unfrst _) _).trans hexec)
  · exact took.uout.trans ((Nat.zero_add _).trans hlength)
  · rw [stored j (hlength.symm ▸ hj)]
    simp only [hunframed, List.getElem_map, List.getElem_range, messageByte hj]

end Sys2Proof.Machine
end

section
/-! SUPPORT. `ENCODE` (44_encode_decode.md): its four tests and what it ends with (R146, R158), the image after a number of
iterations of its loop (R147), and the loop as a sequence of primitive commands (R148). -/

namespace Sys2Proof.Machine

open Sys2Proof.Claims

/-! ### The tests, R146 -/

theorem exec_encode (s : State) : exec .encode s = s.encodeRule.finish := rfl

section
variable {s : State}

theorem State.alphaNotPositive_eq_true_iff : s.alphaNotPositive = true ↔ ¬alphaPositive s := by
  rw [State.alphaNotPositive, Bool.not_eq_true', alphaPositive, Bool.not_eq_true]
  rfl

theorem State.alphaNotPositive_eq_false_iff : s.alphaNotPositive = false ↔ alphaPositive s := by
  rw [State.alphaNotPositive, Bool.not_eq_false', alphaPositive]
  rfl

theorem exec_encode_of_not_imageFits (h : ¬imageFits s) : exec .encode s = .next (failed s 5 1 0) := by
  rw [exec_encode, State.encodeRule, if_pos (State.imageTooLarge_eq_true_iff.mpr h)]
  rfl

variable (himage : imageFits s)
include himage

theorem exec_encode_of_not_messageFits (h : ¬messageFits s) : exec .encode s = .next (failed s 5 2 0) := by
  rw [exec_encode, State.encodeRule, State.imageTooLarge_eq_false_iff.mpr himage, if_neg Bool.false_ne_true,
    if_pos (State.messageTooLong_eq_true_iff.mpr h)]
  rfl

variable (hmessage : messageFits s)
include hmessage

theorem exec_encode_of_not_alphaPositive (h : ¬alphaPositive s) : exec .encode s = .next (failed s 5 3 0) := by
  rw [exec_encode, State.encodeRule, State.imageTooLarge_eq_false_iff.mpr himage, if_neg Bool.false_ne_true,
    State.messageTooLong_eq_false_iff.mpr hmessage, if_neg Bool.false_ne_true,
    if_pos (State.alphaNotPositive_eq_true_iff.mpr h)]
  rfl

variable (halpha : alphaPositive s)
include halpha

/-- The last test, where the three before it pass. -/
theorem State.encodeRule_of_alphaPositive : s.encodeRule =
    if s.nblk < s.lbits then .raise .insufficientCapacity s.lbits s.nblk s
    else .done (State.encodeBlocks s.lbits ((s.setBidx 0).setFpos 0)) := by
  rw [State.encodeRule, State.imageTooLarge_eq_false_iff.mpr himage, State.messageTooLong_eq_false_iff.mpr hmessage,
    State.alphaNotPositive_eq_false_iff.mpr halpha]
  rfl

theorem exec_encode_of_capacity_lt (h : capacity s < framedLength s) :
    exec .encode s = .next (failed s 1 (framedLength s) (capacity s)) :=
  congrArg CmdResult.finish ((State.encodeRule_of_alphaPositive himage hmessage halpha).trans (if_pos h))

theorem exec_encode_of_le (h : framedLength s ≤ capacity s) :
    exec .encode s = .next (completed (State.encodeBlocks (framedLength s) ((s.setBidx 0).setFpos 0))) :=
  congrArg CmdResult.finish ((State.encodeRule_of_alphaPositive himage hmessage halpha).trans (if_neg (not_lt.mpr h)))

end

/-- Settles O37: the four tests in their order, and the loop where they pass. -/
theorem encodeTestsBeforeItWrites : Obligations.EncodeTestsBeforeItWrites := fun _ =>
  ⟨exec_encode_of_not_imageFits, exec_encode_of_not_messageFits, exec_encode_of_not_alphaPositive,
    fun himage hmessage halpha => ⟨exec_encode_of_capacity_lt himage hmessage halpha,
      fun hroom => ⟨_, exec_encode_of_le himage hmessage halpha hroom, rfl, rfl⟩⟩⟩

/-! ### The loop, R147 -/

/-- Block `k` as `ENCODE` leaves it. -/
def embeddedBlock (s : State) (k : Nat) : Mat8 Sample := s.inst.numerics.idct (embeddedCoef s k (framedBit s k))

/-- The engine after `n` iterations, with image `m`: the block of the last one is in `COEF` and `BLK`. -/
def State.afterEncoding (s : State) (m : List (Nat × Sample)) (n : Nat) : State :=
  { s with
    img := m, bidx := BitVec.ofNat 32 n, fpos := BitVec.ofNat 32 n
    bit := if n = 0 then s.bit else framedBit s (n - 1)
    coef := if n = 0 then s.coef else embeddedCoef s (n - 1) (framedBit s (n - 1))
    blk := if n = 0 then s.blk else embeddedBlock s (n - 1) }

theorem State.afterEncoding_of_ne_zero (s : State) (m : List (Nat × Sample)) {n : Nat} (h : n ≠ 0) :
    s.afterEncoding m n =
      { s with
        img := m, bidx := BitVec.ofNat 32 n, fpos := BitVec.ofNat 32 n, bit := framedBit s (n - 1)
        coef := embeddedCoef s (n - 1) (framedBit s (n - 1)), blk := embeddedBlock s (n - 1) } := by
  simp only [State.afterEncoding, h, if_false]

/-- In `t` the first `n` blocks of the image of `s` are rewritten, and every other cell is kept. -/
structure State.Rewrote (s : State) (n : Nat) (t : State) : Prop where
  inside : ∀ k, k < n → ∀ r c, t.imgAt (cellOf s k r c) = (embeddedBlock s k).at r c
  outside : ∀ a, (∀ k, k < n → ∀ r c, a ≠ cellOf s k r c) → t.imgAt a = s.imgAt a

theorem capacity_lt_word (s : State) : capacity s < 2 ^ 32 := s.nblk_le.trans_lt (by norm_num)

theorem State.loadBlock_forward_embedBit (t : State) : t.loadBlock.forward.embedBit =
    { t with blk := blockOf t t.bidx.toNat, coef := embeddedCoef t t.bidx.toNat t.bit } := rfl

/-- One iteration, written out (R146). -/
theorem State.encodeBlock_eq (t : State) : t.encodeBlock =
    { t with
      bidx := t.bidx + 1, fpos := t.fpos + 1, bit := framedBit t t.fpos.toNat
      coef := embeddedCoef t t.bidx.toNat (framedBit t t.fpos.toNat)
      blk := t.inst.numerics.idct (embeddedCoef t t.bidx.toNat (framedBit t t.fpos.toNat))
      img := Mem.writeBlock t.img t.sampleAddr
        (t.inst.numerics.idct (embeddedCoef t t.bidx.toNat (framedBit t t.fpos.toNat))) } := by
  rw [State.encodeBlock, State.loadBlock_forward_embedBit, State.takeFrameBit_eq]
  rfl

section
variable {s : State} {m : List (Nat × Sample)} {n : Nat} (h : s.Rewrote n (s.afterEncoding m n)) (hn : n < capacity s)
include h hn

/-- The next block is as it was. -/
theorem State.Rewrote.blockOf : blockOf (s.afterEncoding m n) n = blockOf s n := by
  refine Mat8.ext fun r c => ?_
  rw [Claims.blockOf, Claims.blockOf, Mat8.at_of, Mat8.at_of]
  exact h.outside _ fun k hk r' c' e => hk.ne (cellOf_inj hn e).1.symm

theorem State.Rewrote.encodeBlock_eq : (s.afterEncoding m n).encodeBlock =
    s.afterEncoding (Mem.writeBlock m (cellOf s n) (embeddedBlock s n)) (n + 1) := by
  have hword : (BitVec.ofNat 32 n).toNat = n := Nat.mod_eq_of_lt (hn.trans (capacity_lt_word s))
  have hbidx : (s.afterEncoding m n).bidx.toNat = n := hword
  have hfpos : (s.afterEncoding m n).fpos.toNat = n := hword
  have hcoef (b : Bool) : embeddedCoef (s.afterEncoding m n) n b = embeddedCoef s n b := by
    rw [embeddedCoef, h.blockOf hn]
    rfl
  have haddr : (s.afterEncoding m n).sampleAddr = cellOf s n := by
    funext r c
    rw [State.sampleAddr_eq_cellOf, hbidx]
    rfl
  rw [State.encodeBlock_eq, haddr, hbidx, hfpos, hcoef]
  have hnext : BitVec.ofNat 32 n + 1 = BitVec.ofNat 32 (n + 1) := (BitVec.ofNat_add n 1).symm
  rw [State.afterEncoding_of_ne_zero _ _ n.succ_ne_zero, ← hnext]
  rfl

/-- One iteration rewrites one more block. -/
theorem State.Rewrote.succ :
    s.Rewrote (n + 1) (s.afterEncoding (Mem.writeBlock m (cellOf s n) (embeddedBlock s n)) (n + 1)) := by
  constructor
  · intro k hk r c
    obtain rfl | hlt := (Nat.le_of_lt_succ hk).eq_or_lt
    · exact congrArg (Option.getD · _) (Mem.lookup_writeBlock_inside _ _ (fun _ _ _ _ e => (cellOf_inj hn e).2) r c)
    · refine (congrArg (Option.getD · _) (Mem.lookup_writeBlock_outside _ _ ?_)).trans (h.inside k hlt r c)
      exact fun r' c' e => hlt.ne' (cellOf_inj hn e).1
  · intro a ha
    refine (congrArg (Option.getD · _) (Mem.lookup_writeBlock_outside _ _ ?_)).trans
      (h.outside a fun k hk => ha k (Nat.lt_succ_of_lt hk))
    exact fun r c => (ha n (Nat.lt_succ_self n) r c).symm

end

theorem State.encodeBlocks_succ (n : Nat) (s : State) :
    State.encodeBlocks (n + 1) s = (State.encodeBlocks n s).encodeBlock := by
  induction n generalizing s with
  | zero => rfl
  | succ n ih => exact ih s.encodeBlock

/-- Any number of iterations up to the capacity. -/
theorem State.encodeBlocks_rewrote {s : State} {n : Nat} (hn : n ≤ capacity s) :
    ∃ m, State.encodeBlocks n ((s.setBidx 0).setFpos 0) = s.afterEncoding m n ∧ s.Rewrote n (s.afterEncoding m n) := by
  induction n with
  | zero => exact ⟨s.img, rfl, fun _ hk => absurd hk (Nat.not_lt_zero _), fun _ _ => rfl⟩
  | succ n ih =>
    obtain ⟨m, hm, hrewrote⟩ := ih (Nat.le_of_succ_le hn)
    exact ⟨_, by rw [State.encodeBlocks_succ, hm, hrewrote.encodeBlock_eq hn], hrewrote.succ hn⟩

/-- What `ENCODE` ends with, where no error applies. -/
theorem exec_encode_rewrote {s : State} (himage : imageFits s) (hmessage : messageFits s) (halpha : alphaPositive s)
    (hroom : framedLength s ≤ capacity s) :
    ∃ m, exec .encode s = .next (completed (s.afterEncoding m (framedLength s))) ∧
      s.Rewrote (framedLength s) (s.afterEncoding m (framedLength s)) := by
  obtain ⟨m, hm, hrewrote⟩ := State.encodeBlocks_rewrote hroom
  exact ⟨m, hm ▸ exec_encode_of_le himage hmessage halpha hroom, hrewrote⟩

/-- Settles O38: the state after as many iterations as there are framed bits. -/
theorem encodeRewritesTheFramedBlocks : Obligations.EncodeRewritesTheFramedBlocks := by
  intro s himage hmessage halpha hroom last
  obtain ⟨m, hexec, inside, outside⟩ := exec_encode_rewrote himage hmessage halpha hroom
  have hlast : framedBit s (framedLength s - 1) = false := if_neg (by simp only [framedLength]; omega)
  have hne : framedLength s ≠ 0 := by simp [framedLength]
  refine ⟨m, ?_, inside, outside⟩
  rw [hexec, State.afterEncoding_of_ne_zero s m hne]
  simp only [last, embeddedBlock, hlast]

/-! ### The loop as primitive commands, R148 -/

/-- The primitive commands of one iteration (R148). -/
def encodePrimitives : List Instr := [.frmget, .ldblk, .fdct, .embed, .idct, .stblk, .blknext]

/-- Block `BIDX` is stored, and `BIDX` moves on. -/
theorem execAll_stblk_blknext {s : State} (himage : s.imageTooLarge = false) (hbidx : s.bidx.toNat < s.nblk)
    (rest : List Instr) :
    execAll (.stblk :: .blknext :: rest) (completed s) = execAll rest (completed (s.storeBlock.setBidx (s.bidx + 1))) := by
  have hstore : exec .stblk (completed s) = .next (completed s.storeBlock) :=
    State.withBlock_finish_of_lt (s := completed s) State.storeBlock (State.imageTooLarge_eq_false_iff.mp himage) hbidx
  exact (execAll_cons hstore _).trans (execAll_cons (exec_blknext_of_lt (s := completed s.storeBlock) hbidx) rest)

/-- The primitive commands of one iteration have its effect. -/
theorem execAll_encodePrimitives {s : State} (himage : s.imageTooLarge = false) (hmessage : messageFits s)
    (halpha : alphaPositive s) (hfpos : s.fpos.toNat < framedLength s) (hbidx : s.bidx.toNat < s.nblk)
    (rest : List Instr) :
    execAll (encodePrimitives ++ rest) (completed s) = execAll rest (completed s.encodeBlock) := by
  have hload : exec .ldblk (completed s.takeFrameBit) = .next (completed s.takeFrameBit.loadBlock) :=
    State.withBlock_finish_of_lt (s := completed s.takeFrameBit) State.loadBlock
      (State.imageTooLarge_eq_false_iff.mp himage) hbidx
  have hembed : exec .embed (completed s.takeFrameBit.loadBlock.forward) =
      .next (completed s.takeFrameBit.loadBlock.forward.embedBit) :=
    exec_embed_of_alphaPositive (s := completed s.takeFrameBit.loadBlock.forward) halpha
  have hstore := execAll_stblk_blknext (s := s.takeFrameBit.loadBlock.forward.embedBit.inverse) (by simpa using himage)
    (by simpa using hbidx) rest
  rw [show s.takeFrameBit.loadBlock.forward.embedBit.inverse.bidx = s.bidx by simp] at hstore
  calc _ = execAll _ (completed s.takeFrameBit) := execAll_cons (exec_frmget_of_lt (s := completed s) hmessage hfpos) _
    _ = execAll _ (completed s.takeFrameBit.loadBlock) := execAll_cons hload _
    _ = execAll _ (completed s.takeFrameBit.loadBlock.forward) := execAll_cons (exec_fdct _) _
    _ = execAll _ (completed s.takeFrameBit.loadBlock.forward.embedBit) := execAll_cons hembed _
    _ = execAll _ (completed s.takeFrameBit.loadBlock.forward.embedBit.inverse) := execAll_cons (exec_idct _) _
    _ = execAll rest (completed s.encodeBlock) := hstore

/-- Two engines with the same parameters, sizes and `ALPHA`: all that the tests of `ENCODE` look at. -/
structure State.SameSetup (s t : State) : Prop where
  inst : t.inst = s.inst
  width : t.width = s.width
  height : t.height = s.height
  msglen : t.msglen = s.msglen
  alpha : t.alpha = s.alpha

namespace State.SameSetup

variable {s t : State} (h : s.SameSetup t)
include h

theorem imageFits : imageFits t ↔ imageFits s := by simp only [Claims.imageFits, h.inst, h.width, h.height]

theorem messageFits : messageFits t ↔ messageFits s := by simp only [Claims.messageFits, h.inst, h.msglen]

theorem alphaPositive : alphaPositive t ↔ alphaPositive s := by simp only [Claims.alphaPositive, h.inst, h.alpha]

theorem capacity : capacity t = capacity s := by simp only [Claims.capacity, h.width, h.height]

theorem framedLength : framedLength t = framedLength s := by simp only [Claims.framedLength, h.msglen]

end State.SameSetup

/-- As many iterations as primitive commands, from a state that a command completed. -/
theorem execAll_encodePrimitives_replicate {n : Nat} {s : State} (himage : imageFits s) (hmessage : messageFits s)
    (halpha : alphaPositive s) (hfpos : s.fpos.toNat + n ≤ framedLength s) (hbidx : s.bidx.toNat + n ≤ capacity s) :
    execAll (List.replicate n encodePrimitives).flatten (completed s) = .next (completed (State.encodeBlocks n s)) := by
  induction n generalizing s with
  | zero => rfl
  | succ n ih =>
    have hfpos' : s.fpos.toNat < framedLength s := by omega
    have hbidx' : s.bidx.toNat < capacity s := by omega
    have hfits : s.imageTooLarge = false := State.imageTooLarge_eq_false_iff.mpr himage
    have settings := (s.good_encodeBlock hfits hbidx' hfpos').settings
    have same : s.SameSetup s.encodeBlock :=
      ⟨settings.inst, settings.width, settings.height, settings.msglen, settings.alpha⟩
    rw [List.replicate_succ, List.flatten_cons, execAll_encodePrimitives hfits hmessage halpha hfpos' hbidx']
    refine ih (same.imageFits.mpr himage) (same.messageFits.mpr hmessage) (same.alphaPositive.mpr halpha) ?_ ?_
    · rw [same.framedLength, State.encodeBlock_fpos, State.fpos_next hfpos']
      omega
    · rw [same.capacity, State.encodeBlock_bidx, State.bidx_next hbidx']
      omega

/-- Settles O39: the script resets both positions and then runs the loop. -/
theorem encodeEqualsItsPrimitives : Obligations.EncodeEqualsItsPrimitives := by
  intro s himage hmessage halpha hroom
  refine ⟨_, exec_encode_of_le himage hmessage halpha hroom, ?_⟩
  exact execAll_encodePrimitives_replicate (s := (s.setBidx 0).setFpos 0) himage hmessage halpha
    (Nat.zero_add _).le ((Nat.zero_add _).trans_le hroom)

end Sys2Proof.Machine
end

section
/-! SUPPORT. `ENCODE` in two engines that are loaded alike (R156): their tests agree, and so do the blocks that they write. -/

namespace Sys2Proof.Machine

open Sys2Proof.Claims

/-- Two engines with the same parameters, image, message and `ALPHA`. -/
structure State.LoadedAlike (s s' : State) : Prop extends s.SameSetup s' where
  imgAt : ∀ a, s'.imgAt a = s.imgAt a
  msginAt : ∀ j, j < s.msglen.toNat → s'.msginAt j = s.msginAt j

namespace State.LoadedAlike

variable {s s' : State} (h : s.LoadedAlike s')
include h

theorem cellOf : cellOf s' = cellOf s := by
  funext k r c
  simp only [Claims.cellOf, h.width]

theorem framedBit (i : Nat) : framedBit s' i = framedBit s i := by
  simp only [Claims.framedBit, h.msglen]
  split
  · rw [h.msginAt _ (by omega)]
  · rfl

theorem embeddedBlock (k : Nat) : embeddedBlock s' k = embeddedBlock s k := by
  have hblock : blockOf s' k = blockOf s k := by simp only [blockOf, h.cellOf, h.imgAt]
  simp only [Machine.embeddedBlock, embeddedCoef, hblock, h.framedBit, h.inst, h.alpha]

/-- After the same number of iterations the images agree. -/
theorem imgAt_of_rewrote {t t' : State} {n : Nat} (ht : s.Rewrote n t) (ht' : s'.Rewrote n t') (a : Nat) :
    t'.imgAt a = t.imgAt a := by
  have inside' := ht'.inside
  have outside' := ht'.outside
  rw [h.cellOf] at inside' outside'
  by_cases ha : ∃ k, k < n ∧ ∃ r c, a = Claims.cellOf s k r c
  · obtain ⟨k, hk, r, c, rfl⟩ := ha
    rw [ht.inside k hk, inside' k hk, h.embeddedBlock]
  · push Not at ha
    rw [ht.outside a ha, outside' a ha, h.imgAt]

end State.LoadedAlike

/-- Settles O45: both engines fail the same test, or both rewrite as many blocks alike. -/
theorem encodeIsDeterminedByImageMessageAlpha : Obligations.EncodeIsDeterminedByImageMessageAlpha := by
  intro s s' hinst hwidth hheight hmsglen halpha himg hmsgin
  have alike : s.LoadedAlike s' := ⟨⟨hinst, hwidth, hheight, hmsglen, halpha⟩, himg, hmsgin⟩
  by_cases image : imageFits s
  case neg =>
    exact ⟨_, _, exec_encode_of_not_imageFits image, exec_encode_of_not_imageFits (alike.imageFits.not.mpr image), himg,
      rfl⟩
  have image' := alike.imageFits.mpr image
  by_cases message : messageFits s
  case neg =>
    exact ⟨_, _, exec_encode_of_not_messageFits image message,
      exec_encode_of_not_messageFits image' (alike.messageFits.not.mpr message), himg, rfl⟩
  have message' := alike.messageFits.mpr message
  by_cases positive : alphaPositive s
  case neg =>
    exact ⟨_, _, exec_encode_of_not_alphaPositive image message positive,
      exec_encode_of_not_alphaPositive image' message' (alike.alphaPositive.not.mpr positive), himg, rfl⟩
  have positive' := alike.alphaPositive.mpr positive
  have room' : framedLength s' ≤ capacity s' ↔ framedLength s ≤ capacity s := by rw [alike.framedLength, alike.capacity]
  by_cases room : framedLength s ≤ capacity s
  case neg =>
    exact ⟨_, _, exec_encode_of_capacity_lt image message positive (not_le.mp room),
      exec_encode_of_capacity_lt image' message' positive' (not_le.mp (room'.not.mpr room)), himg, rfl⟩
  obtain ⟨m, hexec, rewrote⟩ := exec_encode_rewrote image message positive room
  obtain ⟨m', hexec', rewrote'⟩ := exec_encode_rewrote image' message' positive' (room'.mpr room)
  rw [alike.framedLength] at hexec' rewrote'
  have himgAt := alike.imgAt_of_rewrote rewrote rewrote'
  exact ⟨_, _, hexec, hexec', himgAt, rfl⟩

end Sys2Proof.Machine
end

section
/-! SUPPORT. `DECODE` (44_encode_decode.md): its loop and the host's loop over primitive commands put the carried bits
through the unframer one by one (R150, R152), and what the carried bytes make of it (R151). -/

namespace Sys2Proof.Machine

open Sys2Proof.Claims

theorem exec_decode (s : State) : exec .decode s = s.decodeRule.finish := rfl

/-- Settles O42: the test comes after `OUTLEN` and `STOPC` were zeroed. -/
theorem decodeRejectsALargeImage : Obligations.DecodeRejectsALargeImage := by
  intro s h
  rw [exec_decode, State.decodeRule, if_pos (State.imageTooLarge_eq_true_iff.mpr h)]
  rfl

/-! ### One iteration -/

/-- What one bit leaves of the unframer: its size, and one more bit counted before a terminator. -/
theorem Unframer.put_eq_some {u w : Unframer} {b : Bool} (h : u.put b = some w) :
    w.size = u.size ∧ (u.uterm = false → w.ubits = u.ubits + 1) := by
  unfold Unframer.put at h
  split at h
  case isTrue hterm =>
    obtain rfl := Option.some.inj h
    exact ⟨rfl, fun hu => absurd (hu.symm.trans hterm) Bool.false_ne_true⟩
  repeat' split at h
  all_goals cases h
  all_goals exact ⟨rfl, fun _ => rfl⟩

/-- The engine `s` after it put as many carried bits into its unframer as `u` counts: the block of the last one is in `BLK`
and `COEF`. -/
def State.afterReading (s : State) (u : Unframer) : State :=
  { s.withUnframer u with
    bidx := u.ubits
    bit := if u.ubits.toNat = 0 then s.bit else carriedBit s (u.ubits.toNat - 1)
    blk := if u.ubits.toNat = 0 then s.blk else blockOf s (u.ubits.toNat - 1)
    coef := if u.ubits.toNat = 0 then s.coef else s.inst.numerics.fdct (blockOf s (u.ubits.toNat - 1)) }

theorem State.afterReading_of_succ (s : State) {u : Unframer} {k : Nat} (h : u.ubits.toNat = k + 1) :
    s.afterReading u =
      { s.withUnframer u with
        bidx := u.ubits, bit := carriedBit s k, blk := blockOf s k, coef := s.inst.numerics.fdct (blockOf s k) } := by
  simp only [State.afterReading, h, Nat.succ_ne_zero, if_false, Nat.add_sub_cancel]

/-- The bit of the next block is read. -/
def State.readBit (s : State) : State := s.loadBlock.forward.extractBit

theorem State.afterReading_readBit (s : State) (u : Unframer) : (s.afterReading u).readBit =
    { s.withUnframer u with
      bidx := u.ubits, bit := carriedBit s u.ubits.toNat, blk := blockOf s u.ubits.toNat
      coef := s.inst.numerics.fdct (blockOf s u.ubits.toNat) } := rfl

section
variable {s : State} {w : Unframer} (hput : s.readBit.unframer.put s.readBit.bit = some w)
include hput

/-- One iteration of `DECODE` (R150). -/
theorem State.decodeBlocks_succ (hterm : s.uterm = false) (n : Nat) : State.decodeBlocks (n + 1) s =
    State.decodeBlocks n ((s.readBit.withUnframer w).setBidx (s.bidx + 1)) := by
  have hunframe : s.loadBlock.forward.extractBit.unframe = .done (s.readBit.withUnframer w) :=
    (State.unframe_of_put hput).1
  rw [State.decodeBlocks, hunframe, hterm]
  rfl

/-- One iteration of the host's loop (R152). -/
theorem execAll_decodePrimitives (himage : imageFits s) (hbidx : s.bidx.toNat < capacity s) :
    execAll [.ldblk, .fdct, .extract, .unfput, .blknext] (completed s) =
      .next (completed ((s.readBit.withUnframer w).setBidx (s.bidx + 1))) := by
  have hload : exec .ldblk (completed s) = .next (completed s.loadBlock) :=
    State.withBlock_finish_of_lt (s := completed s) State.loadBlock himage hbidx
  have hunfput : exec .unfput (completed s.readBit) = .next (completed (s.readBit.withUnframer w)) :=
    (exec_unfput_of_put (s := completed s.readBit) hput).1
  have hnext : exec .blknext (completed (s.readBit.withUnframer w)) =
      .next (completed ((s.readBit.withUnframer w).setBidx (s.bidx + 1))) :=
    exec_blknext_of_lt (s := completed (s.readBit.withUnframer w)) hbidx
  calc _ = execAll _ (completed s.loadBlock) := execAll_cons hload _
    _ = execAll _ (completed s.loadBlock.forward) := execAll_cons (exec_fdct _) _
    _ = execAll _ (completed s.readBit) := execAll_cons (exec_extract _) _
    _ = execAll [.blknext] (completed (s.readBit.withUnframer w)) := execAll_cons hunfput _
    _ = _ := execAll_cons hnext []

end

/-! ### The loops -/

/-- The bits that the next `n` blocks carry, where as many blocks were read as the unframer counts bits. -/
def nextBits (s : State) (u : Unframer) (n : Nat) : List Bool := (List.range' u.ubits.toNat n).map (carriedBit s)

theorem State.afterReading_put {s : State} {u w : Unframer} (hsize : u.size = s.inst.msgoutMax)
    (hput : u.put (carriedBit s u.ubits.toNat) = some w) :
    (s.afterReading u).readBit.unframer.put (s.afterReading u).readBit.bit = some w := by
  have hunframer : (s.afterReading u).readBit.unframer = u := by
    cases u
    subst hsize
    rfl
  rw [hunframer]
  exact hput

section
variable {s : State} {u w : Unframer} (hterm : u.uterm = false) (hlt : u.ubits.toNat < capacity s)
  (hput : u.put (carriedBit s u.ubits.toNat) = some w)
include hterm hlt hput

theorem Unframer.put_ubits_toNat : w.ubits.toNat = u.ubits.toNat + 1 := by
  rw [(Unframer.put_eq_some hput).2 hterm]
  exact BitVec.toNat_add_of_lt (by have := capacity_lt_word s; simp; omega)

theorem State.afterReading_next :
    ((s.afterReading u).readBit.withUnframer w).setBidx ((s.afterReading u).bidx + 1) = s.afterReading w := by
  rw [State.afterReading_of_succ s (Unframer.put_ubits_toNat hterm hlt hput), State.afterReading_readBit,
    (Unframer.put_eq_some hput).2 hterm]
  rfl

end

/-- The unframer takes the bit of the next block first. -/
theorem Unframer.run_nextBits_succ {s : State} {u v : Unframer} {n : Nat} (hterm : u.uterm = false)
    (hlt : u.ubits.toNat < capacity s) (hrun : Unframer.run (nextBits s u (n + 1)) u = some v) :
    ∃ w, u.put (carriedBit s u.ubits.toNat) = some w ∧ Unframer.run (nextBits s w n) w = some v := by
  rw [nextBits, List.range'_succ, List.map_cons] at hrun
  obtain ⟨w, hput, hrun⟩ := Option.bind_eq_some_iff.mp hrun
  exact ⟨w, hput, by rwa [nextBits, Unframer.put_ubits_toNat hterm hlt hput]⟩

/-- The loop of `DECODE` runs the unframer on the carried bits, and then decides how it ends (R150). -/
theorem State.decodeBlocks_afterReading {s : State} {n : Nat} {u v : Unframer} (hsize : u.size = s.inst.msgoutMax)
    (hroom : u.ubits.toNat + n ≤ capacity s) (hrun : Unframer.run (nextBits s u n) u = some v) :
    State.decodeBlocks n (s.afterReading u) = State.decodeBlocks 0 (s.afterReading v) := by
  induction n generalizing u with
  | zero =>
    obtain rfl := Option.some.inj hrun
    rfl
  | succ n ih =>
    cases hterm : u.uterm with
    | true =>
      obtain rfl := Option.some.inj ((Unframer.run_terminated _ hterm).symm.trans hrun)
      have hstop : (s.afterReading u).uterm = true := hterm
      rw [State.decodeBlocks, State.decodeBlocks, if_pos hstop, if_pos hstop]
    | false =>
      have hlt : u.ubits.toNat < capacity s := by omega
      obtain ⟨w, hput, hrun⟩ := Unframer.run_nextBits_succ hterm hlt hrun
      rw [State.decodeBlocks_succ (State.afterReading_put hsize hput) hterm, State.afterReading_next hterm hlt hput]
      refine ih ((Unframer.put_eq_some hput).1.trans hsize) ?_ hrun
      rw [Unframer.put_ubits_toNat hterm hlt hput]
      omega

/-- The host's loop runs the unframer on the same bits, and leaves with its condition false (R152). -/
theorem hostDecode_afterReading {s : State} (himage : imageFits s) {limit n : Nat} {u v : Unframer}
    (hsize : u.size = s.inst.msgoutMax) (hlimit : u.ubits.toNat + n = limit) (hroom : limit ≤ capacity s)
    (hrun : Unframer.run (nextBits s u n) u = some v) :
    hostDecode limit (n + 1) (completed (s.afterReading u)) = .next (completed (s.afterReading v)) ∧
      (v.uterm = true ∨ v.ubits.toNat = limit) := by
  induction n generalizing u with
  | zero =>
    obtain rfl := Option.some.inj hrun
    have hstop : ¬((completed (s.afterReading u)).uterm = false ∧ (completed (s.afterReading u)).bidx.toNat < limit) :=
      fun h => h.2.ne hlimit
    exact ⟨if_neg hstop, .inr hlimit⟩
  | succ n ih =>
    cases hterm : u.uterm with
    | true =>
      obtain rfl := Option.some.inj ((Unframer.run_terminated _ hterm).symm.trans hrun)
      have hstop : ¬((completed (s.afterReading u)).uterm = false ∧ (completed (s.afterReading u)).bidx.toNat < limit) :=
        fun h => Bool.false_ne_true (h.1.symm.trans hterm)
      exact ⟨if_neg hstop, .inl hterm⟩
    | false =>
      have hlt : u.ubits.toNat < capacity s := by omega
      obtain ⟨w, hput, hrun⟩ := Unframer.run_nextBits_succ hterm hlt hrun
      have hgo : (completed (s.afterReading u)).uterm = false ∧ (completed (s.afterReading u)).bidx.toNat < limit :=
        ⟨hterm, show u.ubits.toNat < limit by omega⟩
      have hexec := execAll_decodePrimitives (State.afterReading_put hsize hput) himage hlt
      rw [State.afterReading_next hterm hlt hput] at hexec
      rw [hostDecode, if_pos hgo, hexec]
      refine ih ((Unframer.put_eq_some hput).1.trans hsize) ?_ hrun
      rw [Unframer.put_ubits_toNat hterm hlt hput]
      omega

/-! ### The carried bits, R151 -/

/-- The bits that the blocks of the limit carry. -/
def carriedBits (s : State) : List Bool := (List.range (bitLimit s)).map (carriedBit s)

theorem bitLimit_le (s : State) : bitLimit s ≤ capacity s := by
  unfold bitLimit
  split
  · exact Nat.min_le_right _ _
  · exact le_rfl

/-- Bits that complete no byte spell none. -/
theorem spelled_append_few {l rest : List Bool} (hl : l.length % 8 = 0) (hrest : rest.length < 8) :
    spelled (l ++ rest) = spelled l := by
  induction l using byteInduction with
  | few l h =>
    obtain rfl : l = [] := List.eq_nil_of_length_eq_zero (by omega)
    exact spelled_few hrest
  | byte b l hb ih =>
    rw [List.append_assoc, spelled_byte hb, spelled_byte hb, ih (by rw [List.length_append] at hl; omega)]

/-- The bits of a function of the index spell its whole bytes. -/
theorem spelled_map_range (f : Nat → Bool) (n : Nat) : spelled ((List.range n).map f) =
    (List.range (n / 8)).map fun j => byteOfBits ((List.range 8).map fun i => f (8 * j + i)) := by
  have hsplit : (List.range n).map f =
      (List.range (8 * (n / 8))).map f ++ (List.range (n % 8)).map fun i => f (8 * (n / 8) + i) := by
    conv_lhs => rw [← Nat.div_add_mod n 8, List.range_add, List.map_append, List.map_map]
    rfl
  rw [hsplit, spelled_append_few (by simp) (by simp; omega), spelled_range]

theorem spelled_carriedBits (s : State) :
    spelled (carriedBits s) = (List.range (bitLimit s / 8)).map (carriedByte s) :=
  spelled_map_range _ _

/-- A list that spells the bytes of a function of the index, none of them zero (R139). -/
theorem unframed_of_nonzero {bits : List Bool} {g : Nat → Byte} {n : Nat} (h : spelled bits = (List.range n).map g)
    (nonzero : ∀ j, j < n → g j ≠ 0) : unframed bits = (List.range n).map g ∧ terminated bits = false := by
  constructor
  · rw [unframed, h, List.takeWhile_eq_self_iff]
    simpa using nonzero
  · rw [terminated, h]
    simpa using nonzero

theorem capacity_mul_le (s : State) : capacity s * 64 ≤ s.width.toNat * s.height.toNat := by
  have h := Nat.mul_le_mul (Nat.div_mul_le_self s.width.toNat 8) (Nat.div_mul_le_self s.height.toNat 8)
  calc capacity s * 64 = s.width.toNat / 8 * 8 * (s.height.toNat / 8 * 8) := by rw [capacity]; ring
    _ ≤ _ := h

/-- The carried bytes fit `MSGOUT` (R8). -/
theorem length_unframed_carriedBits_le {s : State} (hwf : s.inst.wf = true) (himage : imageFits s) :
    (unframed (carriedBits s)).length ≤ s.inst.msgoutMax := by
  simp only [Inst.wf, Bool.and_eq_true, decide_eq_true_eq] at hwf
  obtain ⟨⟨-, hout⟩, -⟩ := hwf
  have hspelled : (unframed (carriedBits s)).length ≤ bitLimit s / 8 :=
    (List.takeWhile_sublist _).length_le.trans (by rw [spelled_carriedBits]; simp)
  have hlimit := bitLimit_le s
  have hcapacity := (capacity_mul_le s).trans himage
  omega

/-! ### The whole command -/

/-- The unframer takes all carried bits. -/
theorem run_carriedBits {s : State} (hwf : s.inst.wf = true) (himage : imageFits s) :
    ∃ v, Unframer.run (carriedBits s) s.restartUnframer.unframer = some v ∧
      s.restartUnframer.unframer.Took (carriedBits s) v := by
  have hsize : s.inst.msgoutMax < 2 ^ 32 := by
    simp only [Inst.wf, Bool.and_eq_true, decide_eq_true_eq] at hwf
    exact hwf.2
  exact Unframer.run_took ⟨rfl, rfl, rfl⟩ ((Nat.zero_add _).trans_le (length_unframed_carriedBits_le hwf himage)) hsize

/-- How the loop ends when no bit is left (R150, R168). -/
theorem State.stopAtLimit_finish_of_not_expen {s : State} (h : s.expen = false) :
    s.stopAtLimit.finish = .next (failed s 2 (capacity s) s.uout.toNat) := by
  rw [State.stopAtLimit, if_neg (ne_true_of_eq_false h)]
  rfl

theorem State.stopAtLimit_finish_of_expen {s : State} (h : s.expen = true) : s.stopAtLimit.finish =
    .next (completed (s.setOutcome (if s.explen.toNat ≤ capacity s then .length else .blocks) s.uout)) := by
  rw [State.stopAtLimit, if_pos h]
  rfl

theorem nextBits_restart (s : State) : nextBits s s.restartUnframer.unframer (bitLimit s) = carriedBits s :=
  congrArg (List.map (carriedBit s)) List.range_eq_range'.symm

section
variable {s : State} (himage : imageFits s) {v : Unframer}
  (hrun : Unframer.run (carriedBits s) s.restartUnframer.unframer = some v)
include himage hrun

theorem exec_decode_of_run :
    exec .decode s = (State.decodeBlocks 0 ((s.setOutcome .none 0).afterReading v)).finish := by
  rw [← nextBits_restart] at hrun
  rw [exec_decode, State.decodeRule, if_neg (by rw [State.imageTooLarge_eq_false_iff.mpr himage]; exact Bool.false_ne_true)]
  exact congrArg CmdResult.finish (State.decodeBlocks_afterReading (s := s.setOutcome .none 0) rfl
    ((Nat.zero_add _).trans_le (bitLimit_le s)) hrun)

theorem hostDecode_of_run : execAll [.unfrst, .blkrst] s = .next (completed (s.afterReading s.restartUnframer.unframer)) ∧
    hostDecode (bitLimit s) (bitLimit s + 1) (completed (s.afterReading s.restartUnframer.unframer)) =
      .next (completed (s.afterReading v)) ∧ (v.uterm = true ∨ v.ubits.toNat = bitLimit s) := by
  rw [← nextBits_restart] at hrun
  exact ⟨rfl, hostDecode_afterReading himage rfl (Nat.zero_add _) (bitLimit_le s) hrun⟩

/-- The end of `DECODE` at a terminator. -/
theorem exec_decode_of_uterm (hterm : v.uterm = true) : exec .decode s =
    .next (completed ((s.afterReading v).setOutcome .terminator v.uout)) := by
  rw [exec_decode_of_run himage hrun, State.decodeBlocks, if_pos (by exact hterm)]
  rfl

theorem exec_decode_of_not_uterm (hterm : v.uterm = false) : exec .decode s =
    ((s.setOutcome .none 0).afterReading v).stopAtLimit.finish := by
  rw [exec_decode_of_run himage hrun, State.decodeBlocks, if_neg (by exact ne_true_of_eq_false hterm)]

theorem exec_decode_of_not_expen (hterm : v.uterm = false) (hexpen : s.expen = false) : exec .decode s =
    .next (failed ((s.setOutcome .none 0).afterReading v) 2 (capacity s) v.uout.toNat) :=
  (exec_decode_of_not_uterm himage hrun hterm).trans
    (State.stopAtLimit_finish_of_not_expen (s := (s.setOutcome .none 0).afterReading v) hexpen)

theorem exec_decode_of_expen (hterm : v.uterm = false) (hexpen : s.expen = true) : exec .decode s =
    .next (completed ((s.afterReading v).setOutcome (if s.explen.toNat ≤ capacity s then .length else .blocks) v.uout)) :=
  (exec_decode_of_not_uterm himage hrun hterm).trans
    (State.stopAtLimit_finish_of_expen (s := (s.setOutcome .none 0).afterReading v) hexpen)

end

/-- The end of the loop writes `OUTLEN` and `STOPC` at most. -/
theorem State.decodeBlocks_zero_state (s : State) : ∃ c n, (State.decodeBlocks 0 s).state = s.setOutcome c n := by
  unfold State.decodeBlocks State.stopAtLimit
  split
  · exact ⟨_, _, rfl⟩
  split
  · exact ⟨_, _, rfl⟩
  · exact ⟨s.stopc, s.outlen, rfl⟩

/-- Settles O43: both loops run the unframer on the carried bits. -/
theorem decodeEqualsItsPrimitives : Obligations.DecodeEqualsItsPrimitives := by
  intro s hwf himage
  obtain ⟨v, hrun, -⟩ := run_carriedBits hwf himage
  obtain ⟨hstart, hhost, hend⟩ := hostDecode_of_run himage hrun
  obtain ⟨t, hfinish⟩ := (State.decodeBlocks 0 ((s.setOutcome .none 0).afterReading v)).finish_next
  obtain ⟨c, n, hstate⟩ := ((s.setOutcome .none 0).afterReading v).decodeBlocks_zero_state
  have same (col : Column) (h : col.Same (s.afterReading v) (((s.setOutcome .none 0).afterReading v).setOutcome c n)) :
      col.Same (s.afterReading v) t := Column.Same.finish (hstate.symm ▸ h) hfinish
  refine ⟨t, _, _, (exec_decode_of_run himage hrun).trans hfinish, hstart, hhost, hend, ?_⟩
  exact ⟨same .msgout rfl, same .uout rfl, same .uacc rfl, same .ucnt rfl, same .ubits rfl, same .uterm rfl, same .bidx rfl,
    same .bit rfl, same .blk rfl, same .coef rfl⟩

/-- What `MSGOUT` holds after the carried bits were taken, their bytes before a zero byte being the first `n` of `g`. -/
theorem msgoutAt_of_took {s : State} {v : Unframer} {bits : List Bool} (took : s.restartUnframer.unframer.Took bits v)
    {g : Nat → Byte} {n : Nat} (h : unframed bits = (List.range n).map g) :
    (∀ j, j < n → { s with msgout := v.msgout }.msgoutAt j = g j) ∧
      ∀ a, n ≤ a → { s with msgout := v.msgout }.msgoutAt a = s.msgoutAt a := by
  have hlength : (unframed bits).length = n := by rw [h, List.length_map, List.length_range]
  have took' : s.restartUnframer.unframer.Took bits (s.withUnframer v).unframer := { took with }
  obtain ⟨stored, kept⟩ := took'.msgoutAt (s := s) rfl rfl rfl
  refine ⟨fun j hj => ?_, fun a ha => kept a (hlength.trans_le ha)⟩
  refine (stored j (hlength.symm ▸ hj)).trans ?_
  simp only [h, List.getElem_map, List.getElem_range]

theorem uout_of_took {s : State} {v : Unframer} {bits : List Bool} (took : s.restartUnframer.unframer.Took bits v)
    {g : Nat → Byte} {n : Nat} (h : unframed bits = (List.range n).map g) : v.uout = BitVec.ofNat 32 n := by
  have huout := took.uout
  rw [h, List.length_map, List.length_range] at huout
  have hn : v.uout.toNat = n := huout.trans (Nat.zero_add n)
  rw [← hn, BitVec.ofNat_toNat, BitVec.setWidth_eq]

/-- Settles O40: the first zero byte is the terminator for the unframer, whose bit count is `BIDX`. -/
theorem decodeStopsAtTheTerminator : Obligations.DecodeStopsAtTheTerminator := by
  intro s t hwf himage ht hzero hnonzero
  obtain ⟨v, hrun, took⟩ := run_carriedBits hwf himage
  obtain ⟨hunframed, hterminated⟩ := unframed_of_zero_at (spelled_carriedBits s) ht hzero hnonzero
  have hterm : v.uterm = true := took.uterm.trans hterminated
  obtain ⟨hacc, hcnt⟩ := took.cleared hterminated
  have huout := uout_of_took took hunframed
  have hubits : v.ubits = BitVec.ofNat 32 (8 * (t + 1)) := by
    rw [took.ubits, countedBits, if_pos hterminated, hunframed, List.length_map, List.length_range]
    exact BitVec.zero_add _
  have hlast : v.ubits.toNat = 8 * t + 7 + 1 := by
    have := bitLimit_le s
    have := capacity_lt_word s
    rw [hubits, BitVec.toNat_ofNat, Nat.mod_eq_of_lt (by omega)]
    omega
  refine ⟨v.msgout, ?_, msgoutAt_of_took took hunframed⟩
  rw [exec_decode_of_uterm himage hrun hterm, State.afterReading_of_succ s hlast, ← huout, ← hubits]
  simp only [State.setOutcome, State.withUnframer, hterm, hacc, hcnt]

/-- Settles O41: the unframer takes every bit without a terminator. -/
theorem decodeWithoutATerminator : Obligations.DecodeWithoutATerminator := by
  intro s hwf himage hnonzero
  obtain ⟨v, hrun, took⟩ := run_carriedBits hwf himage
  obtain ⟨hunframed, hterminated⟩ := unframed_of_nonzero (spelled_carriedBits s) hnonzero
  have hterm : v.uterm = false := took.uterm.trans hterminated
  have hlength : (carriedBits s).length = bitLimit s := by rw [carriedBits, List.length_map, List.length_range]
  have huout := uout_of_took took hunframed
  have hubits : v.ubits = BitVec.ofNat 32 (bitLimit s) := by
    rw [took.ubits, countedBits, if_neg (ne_true_of_eq_false hterminated), hlength]
    exact BitVec.zero_add _
  have hcnt : v.ucnt.toNat = bitLimit s % 8 := hlength ▸ took.ucnt hterminated
  obtain ⟨stored, kept⟩ := msgoutAt_of_took took hunframed
  cases hexpen : s.expen with
  | false =>
    have hlimit : bitLimit s = capacity s := if_neg (ne_true_of_eq_false hexpen)
    have hwhole : BitVec.ofNat 32 v.uout.toNat = BitVec.ofNat 32 (capacity s / 8) := by
      rw [BitVec.ofNat_toNat, BitVec.setWidth_eq, huout, hlimit]
    exact ⟨_, exec_decode_of_not_expen himage hrun hterm hexpen, hubits, hterm, huout, hubits, hcnt, stored, kept,
      fun _ => rfl, fun _ => ⟨rfl, rfl, rfl, rfl, hwhole, rfl, rfl⟩, fun h => absurd h Bool.false_ne_true⟩
  | true =>
    exact ⟨_, exec_decode_of_expen himage hrun hterm hexpen, hubits, hterm, huout, hubits, hcnt, stored, kept,
      fun _ => rfl, fun h => absurd h.symm Bool.false_ne_true, fun _ => ⟨rfl, rfl, rfl, huout, rfl⟩⟩

end Sys2Proof.Machine
end

section
/-! SUPPORT. `ENCODE` and then `DECODE` (44_encode_decode.md R157): the rewritten blocks carry the framed bits, and so spell
the message and its terminator. -/

namespace Sys2Proof.Machine

open Sys2Proof.Claims

/-! ### What the rewritten blocks carry -/

/-- Where an embedded bit is required to survive the passage through the image: in the reference numerics, or for nominal
samples and a strength in range (R127, R157). -/
def State.Safe (s : State) : Prop :=
  s.inst.num = .reference ∨ (s.inst.safeAlpha s.alpha ∧ ∀ k, k < framedLength s → nominalBlock s.inst (blockOf s k))

/-- The bit embedded in a block is the one that is read from it (R127). -/
theorem dec_embeddedBlock {s : State} (halpha : alphaPositive s) (hsafe : s.Safe) {k : Nat} (hk : k < framedLength s) :
    dec s.inst.numerics ((s.inst.numerics.fdct (embeddedBlock s k)).at s.inst.cu s.inst.cv) = framedBit s k := by
  obtain href | ⟨hrange, hnominal⟩ := hsafe
  · rw [alphaPositive, Inst.numerics_reference href] at halpha
    rw [embeddedBlock, Inst.numerics_reference href, num_fdct_idct, embeddedCoef, Mat8.at_put_self,
      Inst.numerics_reference href]
    exact dec_pol _ _ _ halpha
  · exact s.inst.np2 (hnominal k hk) hrange (framedBit s k)

section
variable {s t : State} (rewrote : s.Rewrote (framedLength s) t) (hinst : t.inst = s.inst) (hwidth : t.width = s.width)
  (halpha : alphaPositive s) (hsafe : s.Safe)
include rewrote hinst hwidth halpha hsafe

theorem State.Rewrote.carriedBit {k : Nat} (hk : k < framedLength s) : carriedBit t k = framedBit s k := by
  have hblock : Claims.blockOf t k = embeddedBlock s k := by
    refine Mat8.ext fun r c => ?_
    rw [Claims.blockOf, Mat8.at_of, cellOf, hwidth]
    exact rewrote.inside k hk r c
  rw [Claims.carriedBit, hblock, hinst]
  exact dec_embeddedBlock halpha hsafe hk

/-- The rewritten blocks spell the framed message. -/
theorem State.Rewrote.carriedByte {j : Nat} (hj : j ≤ s.msglen.toNat) : carriedByte t j = framedByte s j := by
  rw [Claims.carriedByte, ← byteOfBits_getLsbD (framedByte s j)]
  refine congrArg byteOfBits (List.map_congr_left fun i hi => ?_)
  have hi := List.mem_range.mp hi
  rw [rewrote.carriedBit hinst hwidth halpha hsafe (by rw [framedLength]; omega), framedBit_eq_getLsbD s j hi]

end

/-! ### The round trip, R157 -/

/-- The engine that `ENCODE` left with image `m`, with the explicit length set by the host. -/
def State.encoded (s : State) (m : List (Nat × Sample)) (e : Bool) (l : Word) : State :=
  { completed (s.afterEncoding m (framedLength s)) with expen := e, explen := l }

theorem bitLimit_encoded (s : State) (m : List (Nat × Sample)) (e : Bool) (l : Word) :
    bitLimit (s.encoded m e l) = if e then min l.toNat (capacity s) else capacity s := rfl

/-- Settles O44: the first zero byte that the rewritten blocks spell is the one at `z`. -/
theorem encodeThenDecodeRecoversTheMessage : Obligations.EncodeThenDecodeRecoversTheMessage := by
  intro s z hwf himage hmessage halpha hroom hz hnonzero hzero hsafe
  obtain ⟨m, hexec, rewrote⟩ := exec_encode_rewrote himage hmessage halpha hroom
  have spells (e : Bool) (l : Word) {j : Nat} (hj : j ≤ s.msglen.toNat) :
      carriedByte (s.encoded m e l) j = framedByte s j :=
    State.Rewrote.carriedByte (t := s.encoded m e l) ⟨rewrote.inside, rewrote.outside⟩ rfl rfl halpha hsafe hj
  have messageByte (e : Bool) (l : Word) {j : Nat} (hj : j < z) : carriedByte (s.encoded m e l) j = s.msginAt j :=
    (spells e l (hj.le.trans hz)).trans (if_pos (hj.trans_le hz))
  have terminator (e : Bool) (l : Word) : carriedByte (s.encoded m e l) z = 0 := by
    rw [spells e l hz, framedByte]
    split
    · exact hzero ‹_›
    · rfl
  have hfits : 8 * (z + 1) ≤ capacity s := by
    rw [framedLength] at hroom
    omega
  have hword := capacity_lt_word s
  refine ⟨_, hexec, fun e l hlimit => ?_, fun _ => ?_⟩
  · have hbits : 8 * (z + 1) ≤ bitLimit (s.encoded m e l) := by
      rw [bitLimit_encoded]
      split
      · exact le_min (hlimit.resolve_left (ne_false_of_eq_true ‹_›)) hfits
      · exact hfits
    obtain ⟨out, hdecode, stored, -⟩ := decodeStopsAtTheTerminator (s.encoded m e l) z hwf himage (by omega)
      (terminator e l) fun j hj => messageByte e l hj ▸ hnonzero j hj
    have toNat_word {n : Nat} (hn : n ≤ capacity s) : (BitVec.ofNat 32 n).toNat = n := Nat.mod_eq_of_lt (by omega)
    exact ⟨_, hdecode, rfl, rfl, rfl, toNat_word (by omega), fun j hj => (stored j hj).trans (messageByte e l hj),
      toNat_word hfits⟩
  · have hexplen : (BitVec.ofNat 32 (8 * z)).toNat = 8 * z := Nat.mod_eq_of_lt (by omega)
    have hwhole : bitLimit (s.encoded m true (BitVec.ofNat 32 (8 * z))) / 8 = z := by
      rw [bitLimit_encoded, if_pos rfl, hexplen]
      omega
    obtain ⟨u, hdecode, -, -, -, -, -, stored, -, -, -, completes⟩ :=
      decodeWithoutATerminator (s.encoded m true (BitVec.ofNat 32 (8 * z))) hwf himage fun j hj =>
        messageByte _ _ (hj.trans_eq hwhole) ▸ hnonzero j (hj.trans_eq hwhole)
    obtain ⟨mode, -, -, outlen, stopc⟩ := completes rfl
    refine ⟨u, hdecode, mode, stopc.trans (if_pos ?_), ?_, fun j hj => ?_⟩
    · exact hexplen.trans_le (show 8 * z ≤ capacity s by omega)
    · rw [outlen, hwhole]
      exact Nat.mod_eq_of_lt (by omega)
    · exact (stored j (hj.trans_eq hwhole.symm)).trans (messageByte _ _ hj)

end Sys2Proof.Machine
end

section
/-! SUPPORT. The system commands (45_system.md): each runs in its `CMD` write where the engine is not `BUSY` and is dropped
where it is (R88), and what each leaves in the registers (R160 to R162). -/

namespace Sys2Proof.Machine

/-! ### The step at the `CMD` write of an immediate command -/

theorem step_cmd_immediate {s : State} {i : Instr} (m : s.mode ≠ .busy) (hi : i.immediate = true) (rest : List Event) :
    step { s with agenda := .writeReg 0x00 (encode i) :: rest } = exec i { s with agenda := rest } :=
  (step_commandWrite s _ rest).trans (commandWrite_immediate m (decodeWord_encode i) hi)

theorem step_cmd_busy {s : State} (m : s.mode = .busy) (w : Word) (rest : List Event) :
    step { s with agenda := .writeReg 0x00 w :: rest } = .next { s with agenda := rest, hzd := true } :=
  (step_commandWrite s w rest).trans (commandWrite_busy w m)

/-! ### The commands -/

theorem exec_nop (s : State) : exec .nop s = .next s := rfl

theorem exec_clrerr (s : State) : exec .clrerr s = .next s.leaveError := rfl

theorem exec_sreset (s : State) : exec .sreset s = .next s.resetRegisters := rfl

/-- The constant block, by its elements and as the reset state lists it. -/
theorem Mat8.of_const {α : Type} (x : α) : Mat8.of (fun _ _ => x) = Vector.replicate 64 x :=
  Mat8.ext fun i j => (Mat8.at_of _ i j).trans (Mat8.at_replicate x i j).symm

/-! ### The obligations -/

/-- Settles O12: the rule of `NOP` is the identity. -/
theorem nopChangesNothing : Obligations.NopChangesNothing := fun s rest =>
  ⟨exec_nop s, fun m => step_cmd_immediate (i := .nop) m rfl rest, fun m => step_cmd_busy m _ rest⟩

/-- Settles O13: the rule of `CLRERR` is the return from the error state. -/
theorem clrerrLeavesTheErrorState : Obligations.ClrerrLeavesTheErrorState := fun s rest =>
  ⟨exec_clrerr s, fun m => step_cmd_immediate (i := .clrerr) m rfl rest⟩

/-- Settles O14: the reset state and the table of R50 differ in how they write the two zero blocks alone. -/
theorem sresetResetsTheRegisters : Obligations.SresetResetsTheRegisters := by
  intro s rest r
  have resets (g : List Event) : exec .sreset { s with agenda := g } = .next { r with agenda := g } := by
    rw [exec_sreset]
    simp only [r, Mat8.of_const]
    rfl
  exact ⟨resets s.agenda, fun m => (step_cmd_immediate (i := .sreset) m rfl rest).trans (resets rest),
    fun m => step_cmd_busy m _ rest⟩

end Sys2Proof.Machine
end

section
/-! SUPPORT. The exceptions (60_exceptions.md): how a command rule ends (R175, R176), and that the error state keeps what it
has recorded until the host clears it (R88, R177). -/

namespace Sys2Proof.Machine

open Sys2Proof.Claims

/-! ### How a command rule ends -/

/-- Settles O47: the two ends are those of `finish`, and a register takes a number modulo 2^32 in any case. -/
theorem commandsEndByErrorEntryOrCompletion : Obligations.CommandsEndByErrorEntryOrCompletion := by
  intro s e i0 i1
  have truncates (n : Nat) : BitVec.ofNat 32 (n % 2 ^ 32) = BitVec.ofNat 32 n := BitVec.eq_of_toNat_eq (by simp)
  refine ⟨rfl, ?_⟩
  rw [truncates, truncates]
  rfl

/-! ### What the error state records -/

/-- `t` is in the same `STATE` as `s` and holds the same error record (R175). -/
structure State.SameRecord (s t : State) : Prop where
  mode : t.mode = s.mode
  err : t.err = s.err
  errinfo0 : t.errinfo0 = s.errinfo0
  errinfo1 : t.errinfo1 = s.errinfo1

theorem State.SameRecord.refl (s : State) : s.SameRecord s := ⟨rfl, rfl, rfl, rfl⟩

theorem State.sameRecord_hostRead (s : State) (sp : Space) (i : Nat) : s.SameRecord (s.hostRead sp i) := by
  obtain ⟨-, -, -, e⟩ | ⟨-, -, e⟩ | ⟨-, e⟩ := s.hostRead_cases sp i <;> rw [e] <;> exact ⟨rfl, rfl, rfl, rfl⟩

/-- A host write keeps the record if its effect on the cell does. -/
theorem State.SameRecord.hostWrite {s : State} {store : State → State} (h : s.SameRecord (store s)) (sp : Space) (i : Nat) :
    s.SameRecord (s.hostWrite sp i store) := by
  obtain ⟨-, -, e⟩ | ⟨-, -, e⟩ | ⟨-, e⟩ := s.hostWrite_cases sp i store <;> rw [e]
  · exact ⟨rfl, rfl, rfl, rfl⟩
  · exact h
  · exact .refl s

theorem State.sameRecord_storeReg (s : State) (i : Nat) (w : Word) : s.SameRecord (s.storeReg i w) := by
  obtain ⟨_, _, _, _, _, _, _, e⟩ := s.storeReg_eq i w
  rw [e]
  exact ⟨rfl, rfl, rfl, rfl⟩

theorem State.sameRecord_storeSreg (s : State) (i : Nat) (v : Sample) : s.SameRecord (s.storeSreg i v) := by
  obtain ⟨_, _, _, e⟩ := s.storeSreg_eq i v
  rw [e]
  exact ⟨rfl, rfl, rfl, rfl⟩

/-! ### The events that clear no error -/

/-- The `CMD` writes that clear an error are those of `CLRERR` and of `SRESET` (R177). -/
theorem clearsError_writeReg_cmd (w : Word) :
    clearsError (.writeReg 0x00 w) = false ↔ w ≠ encode .clrerr ∧ w ≠ encode .sreset := by
  change (w == encode .clrerr || w == encode .sreset) = false ↔ _
  rw [Bool.or_eq_false_iff, beq_eq_false_iff_ne, beq_eq_false_iff_ne]

/-- In the error state a `CMD` write that clears no error changes nothing (R88). -/
theorem perform_cmd_sticky {s : State} {w : Word} (m : s.mode = .error) (h : clearsError (.writeReg 0x00 w) = false) :
    perform (.writeReg 0x00 w) s = .next s := by
  obtain ⟨hclrerr, hsreset⟩ := (clearsError_writeReg_cmd w).mp h
  exact commandWrite_sticky m hclrerr hsreset

/-- In the error state an event that clears no error keeps the record: a host access stores in no register of it, a `CMD`
write is ignored and no command is running. -/
theorem perform_sameRecord {e : Event} {s t : State} (m : s.mode = .error) (hclears : clearsError e = false)
    (h : perform e s = .next t) : s.SameRecord t := by
  cases e with
  | read sp i => cases h; exact s.sameRecord_hostRead sp i
  | writeReg i w =>
    by_cases hi : i = 0x00
    · subst hi
      rw [perform_cmd_sticky m hclears] at h
      cases h; exact .refl s
    · simp only [perform, hi, if_false] at h
      cases h; exact (s.sameRecord_storeReg i w).hostWrite _ _
  | writeSreg i v => cases h; exact (s.sameRecord_storeSreg i v).hostWrite _ _
  | writeImg i v => cases h; exact State.SameRecord.hostWrite ⟨rfl, rfl, rfl, rfl⟩ _ _
  | writeMsgin i b => cases h; exact State.SameRecord.hostWrite ⟨rfl, rfl, rfl, rfl⟩ _ _
  | writeMsgout i b => cases h; exact State.SameRecord.hostWrite ⟨rfl, rfl, rfl, rfl⟩ _ _
  | engine =>
    have notBusy : s.mode ≠ .busy := by simp [m]
    rw [perform, if_neg notBusy] at h
    cases h; exact .refl s
  | resetPin => cases hclears

/-- Settles O48: the record stays by what each event writes, and a `CMD` write that clears no error is ignored. -/
theorem recordedErrorStays : Obligations.RecordedErrorStays := by
  intro s t e rest m hclears h
  rw [step_eq_perform] at h
  obtain ⟨mode, err, errinfo0, errinfo1⟩ := perform_sameRecord (s := { s with agenda := rest }) m hclears h
  refine ⟨mode.trans m, err, errinfo0, errinfo1, ?_⟩
  rintro w rfl
  exact Host.Outcome.next.inj (h.symm.trans (perform_cmd_sticky (s := { s with agenda := rest }) m hclears))

end Sys2Proof.Machine
end

section
/-! SUPPORT. The end of a running command (70_reset_and_hazards.md R207): an event either ends it or is a host access, which
leaves the events that are due as they are, so that the engine has its turn at the latest once they have passed. -/

namespace Sys2Proof.Machine

open Sys2Proof.Claims

/-- A command rule ends in `IDLE` or in `ERROR` (R175, R176). -/
theorem CmdResult.finish_mode {r : CmdResult} {t : State} (h : r.finish = .next t) : t.mode ≠ .busy := by
  cases r with
  | done u => cases h; simp
  | raise e i0 i1 u => cases h; simp

theorem completePending_mode {s t : State} (h : completePending s = .next t) : t.mode ≠ .busy := by
  cases hp : s.pending with
  | none => rw [completePending_of_none hp] at h; cases h
  | some i =>
    obtain ⟨r, hr, -⟩ := exec_deferred i s (State.deferred_of_pending hp)
    rw [completePending_of_some hp, hr] at h
    exact CmdResult.finish_mode h

@[simp] theorem State.resetPin_mode (s : State) : s.resetPin.mode = .idle := by
  unfold State.resetPin; split <;> rfl

@[simp] theorem State.hostRead_agenda (s : State) (sp : Space) (i : Nat) : (s.hostRead sp i).agenda = s.agenda := by
  obtain ⟨-, -, -, e⟩ | ⟨-, -, e⟩ | ⟨-, e⟩ := s.hostRead_cases sp i <;> rw [e] <;> rfl

/-- No write to a `BUSY` engine changes what is due: it is dropped, flagged or not. -/
theorem perform_write_busy_agenda {e : Event} {s t : State} {sp : Space} {i : Nat} (hw : writeTarget e = some (sp, i))
    (m : s.mode = .busy) (h : perform e s = .next t) : t.agenda = s.agenda := by
  by_cases hi : i < sp.size s.inst
  · rw [perform_write_busy hw hi m] at h; cases h; exact s.hazard_agenda
  · rw [perform_write_outside hw (not_lt.mp hi)] at h; cases h; rfl

/-- The events after which a command is still running are the host's accesses, which change nothing that is due. -/
theorem perform_stays_busy {e : Event} {s t : State} (m : s.mode = .busy) (h : perform e s = .next t)
    (mt : t.mode = .busy) : e ≠ .engine ∧ t.agenda = s.agenda := by
  cases e with
  | read sp i => cases h; exact ⟨nofun, s.hostRead_agenda sp i⟩
  | writeReg i w => exact ⟨nofun, perform_write_busy_agenda (sp := .reg) rfl m h⟩
  | writeSreg i v => exact ⟨nofun, perform_write_busy_agenda (sp := .sreg) rfl m h⟩
  | writeImg i v => exact ⟨nofun, perform_write_busy_agenda (sp := .img) rfl m h⟩
  | writeMsgin i b => exact ⟨nofun, perform_write_busy_agenda (sp := .msgin) rfl m h⟩
  | writeMsgout i b => exact ⟨nofun, perform_write_busy_agenda (sp := .msgout) rfl m h⟩
  | engine => rw [perform, if_pos m] at h; exact absurd mt (completePending_mode h)
  | resetPin => cases h; simp at mt

/-- A step after which the command is still running takes one event off the agenda and adds none. -/
theorem step_stays_busy {s t : State} (m : s.mode = .busy) (h : step s = .next t) (mt : t.mode = .busy) :
    ∃ e, s.agenda = e :: t.agenda := by
  rw [step_eq_perform] at h
  obtain ⟨he, hagenda⟩ := perform_stays_busy (s := { s with agenda := s.agenda.tail }) m h mt
  rw [hagenda]
  cases hs : s.agenda with
  | nil => exact absurd (by rw [hs, List.headD_nil]) he
  | cons e rest => exact ⟨e, rfl⟩

/-- Settles O11, by induction on the events that are due. -/
theorem runningCommandEnds : Obligations.RunningCommandEnds := by
  intro s hinv m
  induction hagenda : s.agenda generalizing s with
  | nil =>
    obtain ⟨t, hstep⟩ := everyStepAnswersANextState s hinv
    refine ⟨1, t, le_rfl, run_succ_of_step hstep 0, fun mt => ?_⟩
    obtain ⟨e, he⟩ := step_stays_busy m hstep mt
    cases hagenda.symm.trans he
  | cons e rest ih =>
    obtain ⟨t, hstep⟩ := everyStepAnswersANextState s hinv
    by_cases mt : t.mode = .busy
    · obtain ⟨e', he⟩ := step_stays_busy m hstep mt
      obtain ⟨-, hrest⟩ := List.cons.inj (hagenda.symm.trans he)
      obtain ⟨k, u, hk, hrun, hu⟩ := ih t (everyStepKeepsTheInvariant s t hinv hstep) mt hrest.symm
      exact ⟨k + 1, u, Nat.succ_le_succ hk, (run_succ_of_step hstep k).trans hrun, hu⟩
    · exact ⟨1, t, by simp, run_succ_of_step hstep 0, mt⟩

end Sys2Proof.Machine
end

section
/-! SUPPORT. The reset pin (70_reset_and_hazards.md R190, R191): what it leaves in the registers, and in the memories where
it abandons a command. -/

namespace Sys2Proof.Machine

/-! ### The registers -/

theorem step_resetPin_busy {s : State} (m : s.mode = .busy) (rest : List Event) :
    step { s with agenda := .resetPin :: rest } =
      .next (State.abandonCommand { s with agenda := rest }).resetRegisters :=
  (step_eq_perform _).trans (congrArg _ (if_pos m))

theorem step_resetPin_not_busy {s : State} (m : s.mode ≠ .busy) (rest : List Event) :
    step { s with agenda := .resetPin :: rest } = .next (State.resetRegisters { s with agenda := rest }) :=
  (step_eq_perform _).trans (congrArg _ (if_neg m))

/-- Settles O58: abandoning a command touches no register, and without one the memories are kept. -/
theorem resetPinResetsFromAnyState : Obligations.ResetPinResetsFromAnyState := by
  intro s rest
  by_cases m : s.mode = .busy
  · exact ⟨_, step_resetPin_busy m rest, rfl, fun notBusy => absurd m notBusy⟩
  · exact ⟨_, step_resetPin_not_busy m rest, rfl, fun _ => ⟨rfl, rfl⟩⟩

/-! ### A command loses no written cell -/

theorem exec_img_grows {i : Instr} {s t : State} (h : exec i s = .next t) : Mem.Grows s.img t.img := by
  by_cases hw : i ∈ Column.img.writers
  · have ending {r : CmdResult} (hr : r.finish = .next t) : t.img = r.state.img :=
      Column.Same.finish (.refl _ .img) hr
    obtain rfl | rfl : i = .stblk ∨ i = .encode := by simpa [Column.writers] using hw
    · rw [ending (r := s.withBlock State.storeBlock) h]
      unfold State.withBlock
      split
      · exact .refl _
      split
      · exact .refl _
      · exact Mem.grows_writeBlock _ _ _
    · rw [ending (r := s.encodeRule) h]
      obtain e | e := s.encodeRule_frame <;> rw [e]
      · exact .refl _
      · exact State.encodeBlocks_grows _ ((s.setBidx 0).setFpos 0)
  · have hsame : t.img = s.img := exec_column h .img hw
    rw [hsame]
    exact .refl _

theorem exec_msgout_grows {i : Instr} {s t : State} (h : exec i s = .next t) : Mem.Grows s.msgout t.msgout := by
  by_cases hw : i ∈ Column.msgout.writers
  · have ending {r : CmdResult} (hr : r.finish = .next t) : t.msgout = r.state.msgout :=
      Column.Same.finish (.refl _ .msgout) hr
    obtain rfl | rfl : i = .unfput ∨ i = .decode := by simpa [Column.writers] using hw
    · rw [ending (r := s.unframe) h]
      exact s.unframe_grows
    · rw [ending (r := s.decodeRule) h]
      unfold State.decodeRule
      split
      · exact .refl _
      · exact State.decodeBlocks_grows _ ((s.setOutcome .none 0).setBidx 0).restartUnframer
  · have hsame : t.msgout = s.msgout := exec_column h .msgout hw
    rw [hsame]
    exact .refl _

/-! ### The cells of an abandoned command -/

/-- Where a command has only gained cells, each cell that it leaves when abandoned is new where it landed, else old. -/
theorem Memory.lookup_abandon {α : Type} [DecidableEq α] {size : Nat} {old new : List (Nat × α)}
    (hwf : Memory.wf size new = true) (hgrows : Mem.Grows old new) (landed : Nat → Bool) (a : Nat) :
    Mem.lookup (Mem.abandon landed old new) a = if landed a then Mem.lookup new a else Mem.lookup old a := by
  simp only [Memory.wf, Bool.and_eq_true] at hwf
  exact Mem.lookup_abandon landed old hwf.1 a fun w hw => hgrows a (by simp [hw])

section
variable {s u : State} {i : Instr} (hinv : s.Inv) (m : s.mode = .busy) (hpending : s.pending = some i)
  (hexec : exec i s = .next u)

include hpending hexec in
theorem State.wouldEnd_of_exec : s.wouldEnd = u := by
  simp only [State.wouldEnd, completePending_of_some hpending, hexec]

include hinv m hpending hexec

theorem State.abandonCommand_imgAt (a : Nat) :
    s.abandonCommand.imgAt a = if Config.landedImg s.inst.chip s.draws a then u.imgAt a else s.imgAt a := by
  have hu : u.Inv := hinv.completePending m ((completePending_of_some hpending).trans hexec)
  simp only [State.imgAt, State.abandonCommand, State.wouldEnd_of_exec hpending hexec, exec_inst hexec,
    Memory.lookup_abandon hu.img_wf (exec_img_grows hexec)]
  split <;> rfl

theorem State.abandonCommand_msgoutAt (a : Nat) :
    s.abandonCommand.msgoutAt a = if Config.landedMsgout s.inst.chip s.draws a then u.msgoutAt a else s.msgoutAt a := by
  have hu : u.Inv := hinv.completePending m ((completePending_of_some hpending).trans hexec)
  simp only [State.msgoutAt, State.abandonCommand, State.wouldEnd_of_exec hpending hexec, exec_inst hexec,
    Memory.lookup_abandon hu.msgout_wf (exec_msgout_grows hexec)]
  split <;> rfl

end

/-- A deferred command has the same effect whatever is due. -/
theorem exec_with_agenda {i : Instr} {s u : State} (hi : i.immediate = false) (h : exec i s = .next u) (g : List Event) :
    exec i { s with agenda := g } = .next { u with agenda := g } := by
  have hrun := exec_withRun s.mode s.done s.pend g i hi s
  rw [h] at hrun
  exact hrun

/-- Settles O59: a cell is new where the abandoned command's write landed, else old, and reset keeps the cells. -/
theorem abandonedCommandLeavesOldOrNewCells : Obligations.AbandonedCommandLeavesOldOrNewCells := by
  intro s u t i rest hinv m hpending hexec hstep a
  rw [step_resetPin_busy m] at hstep
  cases hstep
  have hexec' := exec_with_agenda (State.deferred_of_pending hpending) hexec rest
  rw [State.resetRegisters_imgAt, State.resetRegisters_msgoutAt,
    State.abandonCommand_imgAt (hinv.agenda rest) m hpending hexec',
    State.abandonCommand_msgoutAt (hinv.agenda rest) m hpending hexec']
  exact ⟨(ite_eq_or_eq _ _ _).symm, (ite_eq_or_eq _ _ _).symm⟩

end Sys2Proof.Machine
end
